-- ==== Sys2Proof/Word.lean ====
section
/-! DEFINITION. The word type of the engine: every command word, payload word, response word and sample is one
32-bit word (R62), and a sample is only ever the bit pattern of a word (R16). -/

namespace Sys2Proof

/-- One 32-bit word: a command word, a payload word, a response word or a `Sample` (R62, R80, R86). -/
abbrev Word := BitVec 32

end Sys2Proof
end

