-- ==== Sys2Proof/Syntax.lean ====
section
/-! DEFINITION. The commands of HBA-CMD version 1 (R2, R85): one constructor of `Instr` per row of
spec/opcode_table.json, with the operands of R88 and R92. -/

namespace Sys2Proof

/-- The four Advancing Buffers, by number (R21): 0 `IN`, 1 `A` (post-overlap-add), 2 `B` (post-highpass), 3 `OUT`. -/
inductive BufId where
  | b0 | b1 | b2 | b3
deriving DecidableEq, Repr

/-- The sixteen configuration and status registers, by name (R30). -/
inductive CfgReg where
  | maxIn | factor | segSize | ctrl | capMul0 | capMul1 | capMul2 | capMul3
  | hpLen | ipLen | winLen | status | fault | faultInfo | shortfall | accPos
deriving DecidableEq, Repr

/-- A command with its payload (R80). `n` and `off` are the 24-bit immediate (R88); a list is the payload, of which a
well-formed command has exactly `n` words (R83, R92). -/
inductive Instr where
  /-- NOP (R180). -/
  | nop
  /-- RESET (R181). -/
  | reset
  /-- SETCFG `r : value` (R182). -/
  | setcfg (r : CfgReg) (value : Word)
  /-- GETCFG `r` (R183). -/
  | getcfg (r : CfgReg)
  /-- LDHP `n : c0 .. c(n-1)` (R185). -/
  | ldhp (n : BitVec 24) (c : List Word)
  /-- LDIP `n : h0 .. h(n-1)` (R186). -/
  | ldip (n : BitVec 24) (h : List Word)
  /-- LDWIN `n : w0 .. w(n-1)` (R187). -/
  | ldwin (n : BitVec 24) (w : List Word)
  /-- BUILD (R188). -/
  | build
  /-- EXTEND `b, n` (R116). -/
  | extend (b : BufId) (n : BitVec 24)
  /-- POKE `b, off : v` (R117). -/
  | poke (b : BufId) (off : BitVec 24) (v : Word)
  /-- APPEND `b, n : v0 .. v(n-1)` (R118). -/
  | append (b : BufId) (n : BitVec 24) (v : List Word)
  /-- APPENDZ `b, n` (R119). -/
  | appendz (b : BufId) (n : BitVec 24)
  /-- DISCARD `b, n` (R120). -/
  | discard (b : BufId) (n : BitVec 24)
  /-- SIZE `b` (R121). -/
  | size (b : BufId)
  /-- PEEK `b, off` (R122). -/
  | peek (b : BufId) (off : BitVec 24)
  /-- STARTIDX `b` (R123). -/
  | startidx (b : BufId)
  /-- ENDIDX `b` (R124). -/
  | endidx (b : BufId)
  /-- FIRRUN (R141). -/
  | firrun
  /-- INTRUN (R151). -/
  | intrun
  /-- OLARUN (R161). -/
  | olarun
  /-- PRIME `n` (R171). -/
  | prime (n : BitVec 24)
  /-- PROCESS `n : x0 .. x(n-1)` (R172). -/
  | process (n : BitVec 24) (x : List Word)
deriving DecidableEq, Repr

end Sys2Proof
end

