-- ==== Sys2Proof/WellFormed.lean ====
section
/-! DEFINITION. Which terms of `Instr` are commands: the payload has exactly as many words as the immediate says
(R83, R92: "the assembler checks that the number of payload words equals the immediate"). Every other operand is in
range by its type. -/

namespace Sys2Proof

/-- The check of R92 on the commands with `plen = imm`: LDHP, LDIP, LDWIN, APPEND, PROCESS. -/
def Instr.wellFormed : Instr → Bool
  | .ldhp n c => c.length == n.toNat
  | .ldip n h => h.length == n.toNat
  | .ldwin n w => w.length == n.toNat
  | .append _ n v => v.length == n.toNat
  | .process n x => x.length == n.toNat
  | .nop | .reset | .setcfg _ _ | .getcfg _ | .build | .extend _ _ | .poke _ _ _ | .appendz _ _ | .discard _ _
  | .size _ | .peek _ _ | .startidx _ | .endidx _ | .firrun | .intrun | .olarun | .prime _ => true

end Sys2Proof
end

