-- ==== Sys2Proof/Decode.lean ====
section
/-! DEFINITION. HBA-CMD version 1: fields, framing, decoder and encoder (R80 to R97), and the opcode table of R85 as
data. The decoder is total on every stream of words and rejects by name. -/

namespace Sys2Proof

/-! ## Fields of a command word (R81) -/

/-- Bits 31:26, the opcode. -/
def opOf (cw : Word) : BitVec 6 := cw.extractLsb' 26 6

/-- Bits 25:24, the buffer number. -/
def bOf (cw : Word) : BitVec 2 := cw.extractLsb' 24 2

/-- Bits 23:0, the immediate. -/
def immOf (cw : Word) : BitVec 24 := cw.extractLsb' 0 24

/-- Bits 3:0, the register number of format R. -/
def rOf (cw : Word) : BitVec 4 := cw.extractLsb' 0 4

/-- Bits 23:4, which format R requires to be zero. -/
def rHighOf (cw : Word) : BitVec 20 := cw.extractLsb' 4 20

/-- A command word from its fields (R81). -/
def cmdWord (op : BitVec 6) (b : BitVec 2) (imm : BitVec 24) : Word := op ++ b ++ imm

/-- The 2-bit number of a buffer (R21). -/
def BufId.bits : BufId → BitVec 2
  | .b0 => 0
  | .b1 => 1
  | .b2 => 2
  | .b3 => 3

/-- The buffer a 2-bit field names (R81, R88). -/
def BufId.ofBits (x : BitVec 2) : BufId :=
  match x.toNat with
  | 0 => .b0
  | 1 => .b1
  | 2 => .b2
  | _ => .b3

/-- The 4-bit number of a register (R30). -/
def CfgReg.bits : CfgReg → BitVec 4
  | .maxIn => 0
  | .factor => 1
  | .segSize => 2
  | .ctrl => 3
  | .capMul0 => 4
  | .capMul1 => 5
  | .capMul2 => 6
  | .capMul3 => 7
  | .hpLen => 8
  | .ipLen => 9
  | .winLen => 10
  | .status => 11
  | .fault => 12
  | .faultInfo => 13
  | .shortfall => 14
  | .accPos => 15

/-- The register a 4-bit field names (R81, R88). -/
def CfgReg.ofBits (x : BitVec 4) : CfgReg :=
  match x.toNat with
  | 0 => .maxIn
  | 1 => .factor
  | 2 => .segSize
  | 3 => .ctrl
  | 4 => .capMul0
  | 5 => .capMul1
  | 6 => .capMul2
  | 7 => .capMul3
  | 8 => .hpLen
  | 9 => .ipLen
  | 10 => .winLen
  | 11 => .status
  | 12 => .fault
  | 13 => .faultInfo
  | 14 => .shortfall
  | _ => .accPos

/-! ## Opcodes (R85) -/

/-- The opcode of a command (R85). -/
def Instr.opcode : Instr → BitVec 6
  | .nop => 0x00
  | .reset => 0x01
  | .setcfg _ _ => 0x02
  | .getcfg _ => 0x03
  | .ldhp _ _ => 0x04
  | .ldip _ _ => 0x05
  | .ldwin _ _ => 0x06
  | .build => 0x07
  | .extend _ _ => 0x10
  | .poke _ _ _ => 0x11
  | .append _ _ _ => 0x12
  | .appendz _ _ => 0x13
  | .discard _ _ => 0x14
  | .size _ => 0x15
  | .peek _ _ => 0x16
  | .startidx _ => 0x17
  | .endidx _ => 0x18
  | .firrun => 0x20
  | .intrun => 0x21
  | .olarun => 0x22
  | .prime _ => 0x30
  | .process _ _ => 0x31

/-- One row of the opcode table: a command word `cw` selects it when `cw AND mask = word` (R82). -/
structure OpcodeRow where
  mnemonic : String
  word : Word
  mask : Word
deriving DecidableEq, Repr

/-- The 22 rows of R85 with the masks of their formats (R82). -/
def opcodeTable : List OpcodeRow :=
  [⟨"NOP", 0x00000000, 0xFFFFFFFF⟩, ⟨"RESET", 0x04000000, 0xFFFFFFFF⟩,
   ⟨"SETCFG", 0x08000000, 0xFFFFFFF0⟩, ⟨"GETCFG", 0x0C000000, 0xFFFFFFF0⟩,
   ⟨"LDHP", 0x10000000, 0xFF000000⟩, ⟨"LDIP", 0x14000000, 0xFF000000⟩,
   ⟨"LDWIN", 0x18000000, 0xFF000000⟩, ⟨"BUILD", 0x1C000000, 0xFFFFFFFF⟩] ++
  [⟨"EXTEND", 0x40000000, 0xFC000000⟩, ⟨"POKE", 0x44000000, 0xFC000000⟩,
   ⟨"APPEND", 0x48000000, 0xFC000000⟩, ⟨"APPENDZ", 0x4C000000, 0xFC000000⟩,
   ⟨"DISCARD", 0x50000000, 0xFC000000⟩, ⟨"SIZE", 0x54000000, 0xFCFFFFFF⟩,
   ⟨"PEEK", 0x58000000, 0xFC000000⟩, ⟨"STARTIDX", 0x5C000000, 0xFCFFFFFF⟩,
   ⟨"ENDIDX", 0x60000000, 0xFCFFFFFF⟩] ++
  [⟨"FIRRUN", 0x80000000, 0xFFFFFFFF⟩, ⟨"INTRUN", 0x84000000, 0xFFFFFFFF⟩,
   ⟨"OLARUN", 0x88000000, 0xFFFFFFFF⟩, ⟨"PRIME", 0xC0000000, 0xFF000000⟩,
   ⟨"PROCESS", 0xC4000000, 0xFF000000⟩]

/-- The command word selects this row (R82). -/
def OpcodeRow.selects (row : OpcodeRow) (cw : Word) : Bool := cw &&& row.mask == row.word

/-! ## Framing (R83, R91, R95, R96) -/

/-- The number of payload words that follow a command word: a function of `op` and `imm` alone (R83). -/
def plen (cw : Word) : Nat :=
  match (opOf cw).toNat with
  | 0x02 => 1
  | 0x11 => 1
  | 0x04 => (immOf cw).toNat
  | 0x05 => (immOf cw).toNat
  | 0x06 => (immOf cw).toNat
  | 0x12 => (immOf cw).toNat
  | 0x31 => (immOf cw).toNat
  | _ => 0

/-- The stream holds at least `n` words. -/
def hasWords : Nat → List Word → Bool
  | 0, _ => true
  | _ + 1, [] => false
  | n + 1, _ :: ws => hasWords n ws

/-- A command framed out of the stream (R95 steps 1 and 2): its command word, its payload, and what follows. -/
structure Frame where
  cw : Word
  payload : List Word
  rest : List Word
deriving DecidableEq, Repr

/-- Why the decoder gives no command. -/
inductive Reject where
  /-- The stream is empty: there is no command word to take (R95). -/
  | emptyStream
  /-- The stream ends inside a payload: the command never starts (R95). -/
  | truncatedPayload
  /-- The opcode is unassigned (R85, R89). -/
  | unassignedOpcode
  /-- The opcode is assigned and a bit its format requires to be 0 is 1 (R84, R89). -/
  | mustBeZero
  /-- The payload handed to `decodeFrame` has not the length R83 gives; no frame of a stream has this. -/
  | payloadLength
deriving DecidableEq, Repr

/-- Take one command word and its payload from the stream, whatever the word is (R83, R95, R96). -/
def frame : List Word → Except Reject Frame
  | [] => .error .emptyStream
  | cw :: ws =>
    if hasWords (plen cw) ws then .ok { cw := cw, payload := ws.take (plen cw), rest := ws.drop (plen cw) }
    else .error .truncatedPayload

/-! ## Decoding a framed command (R82, R84, R85, R89) -/

/-- Format Z: bits 25:0 must be 0. -/
def formZ (cw : Word) (i : Instr) : Except Reject Instr :=
  if bOf cw = 0 ∧ immOf cw = 0 then .ok i else .error .mustBeZero

/-- Format B: bits 23:0 must be 0. -/
def formB (cw : Word) (k : BufId → Instr) : Except Reject Instr :=
  if immOf cw = 0 then .ok (k (BufId.ofBits (bOf cw))) else .error .mustBeZero

/-- Format BI: no bit must be 0. -/
def formBI (cw : Word) (k : BufId → BitVec 24 → Instr) : Except Reject Instr :=
  .ok (k (BufId.ofBits (bOf cw)) (immOf cw))

/-- Format I: bits 25:24 must be 0. -/
def formI (cw : Word) (k : BitVec 24 → Instr) : Except Reject Instr :=
  if bOf cw = 0 then .ok (k (immOf cw)) else .error .mustBeZero

/-- Format R: bits 25:4 must be 0. -/
def formR (cw : Word) (k : CfgReg → Instr) : Except Reject Instr :=
  if bOf cw = 0 ∧ rHighOf cw = 0 then .ok (k (CfgReg.ofBits (rOf cw))) else .error .mustBeZero

/-- The command of a framed word and its payload (R95 step 3). -/
def decodeFrame (cw : Word) (payload : List Word) : Except Reject Instr :=
  match (opOf cw).toNat with
  | 0x00 => formZ cw .nop
  | 0x01 => formZ cw .reset
  | 0x02 => match payload with
    | [v] => formR cw fun r => .setcfg r v
    | _ => .error .payloadLength
  | 0x03 => formR cw .getcfg
  | 0x04 => formI cw fun n => .ldhp n payload
  | 0x05 => formI cw fun n => .ldip n payload
  | 0x06 => formI cw fun n => .ldwin n payload
  | 0x07 => formZ cw .build
  | 0x10 => formBI cw .extend
  | 0x11 => match payload with
    | [v] => formBI cw fun b off => .poke b off v
    | _ => .error .payloadLength
  | 0x12 => formBI cw fun b n => .append b n payload
  | 0x13 => formBI cw .appendz
  | 0x14 => formBI cw .discard
  | 0x15 => formB cw .size
  | 0x16 => formBI cw .peek
  | 0x17 => formB cw .startidx
  | 0x18 => formB cw .endidx
  | 0x20 => formZ cw .firrun
  | 0x21 => formZ cw .intrun
  | 0x22 => formZ cw .olarun
  | 0x30 => formI cw .prime
  | 0x31 => formI cw fun n => .process n payload
  | _ => .error .unassignedOpcode

/-- The first command of a stream and the words after it, or why there is none. An illegal word is rejected here by
name; `Sys2Proof.Machine.step` answers it as R89 says. -/
def decode (ws : List Word) : Except Reject (Instr × List Word) :=
  match frame ws with
  | .error e => .error e
  | .ok f =>
    match decodeFrame f.cw f.payload with
    | .error e => .error e
    | .ok i => .ok (i, f.rest)

/-! ## Encoding (R81, R82, R85) -/

/-- The command word of an instruction. -/
def Instr.commandWord : Instr → Word
  | .nop => cmdWord 0x00 0 0
  | .reset => cmdWord 0x01 0 0
  | .setcfg r _ => cmdWord 0x02 0 (0#20 ++ r.bits)
  | .getcfg r => cmdWord 0x03 0 (0#20 ++ r.bits)
  | .ldhp n _ => cmdWord 0x04 0 n
  | .ldip n _ => cmdWord 0x05 0 n
  | .ldwin n _ => cmdWord 0x06 0 n
  | .build => cmdWord 0x07 0 0
  | .extend b n => cmdWord 0x10 b.bits n
  | .poke b off _ => cmdWord 0x11 b.bits off
  | .append b n _ => cmdWord 0x12 b.bits n
  | .appendz b n => cmdWord 0x13 b.bits n
  | .discard b n => cmdWord 0x14 b.bits n
  | .size b => cmdWord 0x15 b.bits 0
  | .peek b off => cmdWord 0x16 b.bits off
  | .startidx b => cmdWord 0x17 b.bits 0
  | .endidx b => cmdWord 0x18 b.bits 0
  | .firrun => cmdWord 0x20 0 0
  | .intrun => cmdWord 0x21 0 0
  | .olarun => cmdWord 0x22 0 0
  | .prime n => cmdWord 0x30 0 n
  | .process n _ => cmdWord 0x31 0 n

/-- The payload words of an instruction (R83). -/
def Instr.payload : Instr → List Word
  | .setcfg _ v => [v]
  | .ldhp _ c => c
  | .ldip _ h => h
  | .ldwin _ w => w
  | .poke _ _ v => [v]
  | .append _ _ v => v
  | .process _ x => x
  | .nop | .reset | .getcfg _ | .build | .extend _ _ | .appendz _ _ | .discard _ _ | .size _ | .peek _ _
  | .startidx _ | .endidx _ | .firrun | .intrun | .olarun | .prime _ => []

/-- The words of an instruction: the command word, then the payload (R80). -/
def encode (i : Instr) : List Word := i.commandWord :: i.payload

/-! ## The table's numbering of an instruction's bits -/

/-- `n` words of the number `w`, from word number `k` on; word 0 is bits 31:0. -/
def wordsOfNat (w : Nat) : Nat → Nat → List Word
  | _, 0 => []
  | k, n + 1 => BitVec.ofNat 32 (w >>> (32 * k)) :: wordsOfNat w (k + 1) n

/-- The stream that holds exactly the instruction whose low `nbits` bits are those of `w` and whose other bits are 0:
its command word and as many payload words as the command word asks for (R83, R91). -/
def tableWords (nbits w : Nat) : List Word :=
  let v := w % 2 ^ nbits
  let cw := BitVec.ofNat 32 v
  cw :: wordsOfNat v 1 (plen cw)

/-- The instruction the decoder reads from a word numbered as spec/opcode_table.json numbers it. -/
def decodeTableWord (nbits w : Nat) : Option Instr :=
  match decode (tableWords nbits w) with
  | .ok (i, _) => some i
  | .error _ => none

end Sys2Proof
end

