-- ==== Sys2Proof/Config.lean ====
section
/-! DEFINITION. What an implementation of the engine fixes (R10) and the free values: what the spec calls a draw of any
value (R16, R25, U2, U3, U5), and the operations of an arithmetic that is not the default (R10, D4). -/

namespace Sys2Proof

/-- Which sample arithmetic the engine is built with, the parameter `Numerics` of R10 as plain data (D4, U11). -/
inductive Arith where
  /-- The default instance of R16: IEEE 754 binary32 (log entry 2). -/
  | binary32
  /-- Any other arithmetic, by number: nothing is known of its operations (log entry 20). -/
  | other (k : Nat)
deriving DecidableEq, Repr

/-- The parameters of R10. They are plain data held in `State.params`, so that a statement about every state is a
statement about every size and every arithmetic; no command changes them. -/
structure Params where
  /-- `BUF_WORDS`: physical words in each buffer store. -/
  bufWords : Nat
  /-- `HP_WORDS`: words in the FIR coefficient RAM. -/
  hpWords : Nat
  /-- `IP_WORDS`: words in the Interpolator coefficient RAM. -/
  ipWords : Nat
  /-- `WIN_WORDS`: words in the window RAM. -/
  winWords : Nat
  /-- `ACC_WORDS`: words in the accumulator RAM. -/
  accWords : Nat
  /-- `Numerics`: the sample arithmetic. -/
  arith : Arith
deriving DecidableEq, Repr

/-- The constraints of R10 on the physical sizes. -/
abbrev Params.legal (p : Params) : Prop :=
  (1 ≤ p.bufWords ∧ p.bufWords < 2 ^ 24) ∧ (1 ≤ p.hpWords ∧ p.hpWords < 2 ^ 24) ∧
  (1 ≤ p.ipWords ∧ p.ipWords < 2 ^ 24) ∧ (2 ≤ p.winWords ∧ p.winWords < 2 ^ 24) ∧
  (1 ≤ p.accWords ∧ p.accWords < 2 ^ 24)

/-- The suggested defaults of R10, which the spec's vectors assume. DESIGN CHOICE (log entry 1): unsafe for a claim
that leans on one of these numbers. -/
def Params.default : Params :=
  { bufWords := 65536, hpWords := 1024, ipWords := 1024, winWords := 16384, accWords := 12288, arith := .binary32 }

namespace Config

/-- Draw number `d` of an unspecified word (R25, R49, U2, U3): any 32-bit word; nothing says which (log entry 3). -/
opaque freeWord : Nat → BitVec 32

/-- Draw number `d` of the sign (bit 22) and the payload (bits 21:0) of a NaN result (R16, U5): any value; nothing
says which (log entry 4). -/
opaque freeNaN : Nat → BitVec 23

/-- `fzero` of arithmetic number `k` (R10, R16): any word (log entry 20). -/
opaque otherZero (k : Nat) : BitVec 32

/-- `fadd` of arithmetic number `k`, its draw, if it makes one, being number `d` (R10, R16): any function (log entry
20). -/
opaque otherAdd (k d : Nat) (x y : BitVec 32) : BitVec 32

/-- `fmul` of arithmetic number `k`, likewise (log entry 20). -/
opaque otherMul (k d : Nat) (x y : BitVec 32) : BitVec 32

end Config

end Sys2Proof
end

