-- ==== Sys2Proof/Machine/State.lean ====
section
/-! DEFINITION. The state of one engine instance as plain data (R20 to R48), its value after reset (R49, R231), and the
reasons a step can stop. -/

namespace Sys2Proof.Machine

/-- One memory of the engine: word index and word, for the words that hold a definite value (R60, R62). An index that
is not listed holds an unspecified word (R25, R49): reading it is a draw. Log entries 8 and 9. -/
abbrev Memory := List (Nat × Word)

/-- The canonical form: indices strictly rising, so that equal memories are equal lists. -/
abbrev Memory.wf (m : Memory) : Prop := List.Pairwise (fun x y => x.1 < y.1) m

/-- Descriptor and store of one Advancing Buffer (R21 to R25). Counts are naturals (R12, log entry 12). -/
structure Buf where
  /-- `CAP[b]` (R22). -/
  cap : Nat
  /-- `DS[b]` (R23). -/
  ds : Nat
  /-- `DE[b]` (R23). -/
  de : Nat
  /-- `BSI[b]` (R24). -/
  bsi : BitVec 64
  /-- `M[b]` (R25). -/
  store : Memory
deriving DecidableEq, Repr

/-- The engine state `ENG` (R27). -/
inductive Eng where
  | unconfigured | ready | faulted
deriving DecidableEq, Repr

/-- The hardware reset input as the next step finds it (R230, log entry 11). -/
inductive ResetLine where
  /-- Not asserted. -/
  | idle
  /-- Asserted between commands. -/
  | betweenCommands
  /-- Asserted inside the next command, which is abandoned. -/
  | insideCommand
deriving DecidableEq, Repr

/-- The state of one engine instance: what R20 lists, its interface (R80, R86, R230), its parameters (R10), and the
number of the next draw of an unspecified value. -/
structure State where
  /-- The parameters: the physical sizes and the arithmetic (R10, log entries 1 and 20). -/
  params : Params
  /-- Words waiting on the command port, the next to arrive first (R80, log entry 6). -/
  port : List Word
  /-- Words of the response stream, the first to leave first (R86, log entry 6). -/
  resp : List Word
  /-- The hardware reset input (R230, log entry 11). -/
  resetIn : ResetLine
  /-- The MODEL's own: the number of the next draw (log entry 5). -/
  draws : Nat
  /-- `ENG` (R27). -/
  eng : Eng
  /-- `STATUS.PRIMED` (R37). -/
  primed : Bool
  /-- `STATUS.OVERSIZE` (R37). -/
  oversize : Bool
  /-- `STATUS.SHORT` (R37). -/
  short : Bool
  /-- `CFG.MAX_IN`, register 0 (R31). -/
  maxIn : Word
  /-- `CFG.FACTOR`, register 1 (R32). -/
  factor : Word
  /-- `CFG.SEG_SIZE`, register 2 (R33). -/
  segSize : Word
  /-- `CFG.CTRL`, register 3 (R34). -/
  ctrl : Word
  /-- `CFG.CAPMUL0`, register 4 (R35). -/
  capMul0 : Word
  /-- `CFG.CAPMUL1`, register 5 (R35). -/
  capMul1 : Word
  /-- `CFG.CAPMUL2`, register 6 (R35). -/
  capMul2 : Word
  /-- `CFG.CAPMUL3`, register 7 (R35). -/
  capMul3 : Word
  /-- `CFG.HP_LEN`, register 8 (R36). -/
  hpLen : Word
  /-- `CFG.IP_LEN`, register 9 (R36). -/
  ipLen : Word
  /-- `CFG.WIN_LEN`, register 10 (R36). -/
  winLen : Word
  /-- `CFG.FAULT`, register 12 (R38). -/
  fault : Word
  /-- `CFG.FAULT_INFO`, register 13 (R39). -/
  faultInfo : Word
  /-- `CFG.SHORTFALL`, register 14 (R40). -/
  shortfall : Word
  /-- The accumulator cursor `ACC_POS` (R45), seen as register 15 (R41). -/
  accPos : Nat
  /-- Buffer 0, `IN` (R21). -/
  buf0 : Buf
  /-- Buffer 1, `A` (R21). -/
  buf1 : Buf
  /-- Buffer 2, `B` (R21). -/
  buf2 : Buf
  /-- Buffer 3, `OUT` (R21). -/
  buf3 : Buf
  /-- FIR coefficient RAM `HC` (R42). -/
  hc : Memory
  /-- Its reversed cache `HR` (R42). -/
  hr : Memory
  /-- Interpolator coefficient RAM `IC` (R43). -/
  ic : Memory
  /-- Its reversed cache `IR` (R43). -/
  ir : Memory
  /-- Window RAM `W` (R44). -/
  win : Memory
  /-- Accumulator RAM `ACC` (R45). -/
  acc : Memory
deriving DecidableEq, Repr

/-- Why a step of the machine stops. A fault of the engine (R200) is not one of these: its entry is a next state. -/
inductive Fault where
  /-- Raised by `step`: no word waits on the command port, so the engine waits (R95, U9: "stuck"). Safe: nothing has
  changed, and the engine goes on when a word arrives. -/
  | portEmpty
  /-- Raised by `step`: the words waiting end inside a payload, so the command never starts (R95, U9: "stuck"). Safe:
  nothing has changed, and the engine goes on when the payload is complete. -/
  | portTruncated
deriving DecidableEq, Repr

/-- Why a step has no meaning. -/
inductive Refusal where
  /-- Raised by `exec` for an instruction that has no meaning yet; no arm of `exec` raises it. Safe. -/
  | notModelled (mnemonic : String)
deriving DecidableEq, Repr

/-- A buffer after reset: every descriptor register 0, the store unspecified (R49). -/
def Buf.reset : Buf := { cap := 0, ds := 0, de := 0, bsi := 0, store := [] }

/-- The engine right after reset (R49, R231): `ENG` UNCONFIGURED, every register and descriptor 0, every memory
unspecified. The interface fields, the parameters and the draw number are the model's (log entries 1, 5, 6, 11, 20). -/
def State.reset : State where
  params := Params.default
  port := []
  resp := []
  resetIn := .idle
  draws := 0
  eng := .unconfigured
  primed := false
  oversize := false
  short := false
  maxIn := 0
  factor := 0
  segSize := 0
  ctrl := 0
  capMul0 := 0
  capMul1 := 0
  capMul2 := 0
  capMul3 := 0
  hpLen := 0
  ipLen := 0
  winLen := 0
  fault := 0
  faultInfo := 0
  shortfall := 0
  accPos := 0
  buf0 := Buf.reset
  buf1 := Buf.reset
  buf2 := Buf.reset
  buf3 := Buf.reset
  hc := []
  hr := []
  ic := []
  ir := []
  win := []
  acc := []

end Sys2Proof.Machine
end

