-- ==== Sys2Proof/Machine/Flags.lean ====
section
/-! DEFINITION. The status words: `STATUS` (R37), `FAULT` (R38), the status word of a response (R86), the causes of a
fault with their codes (R200), and the flags the commands set (R37, R171, R172, R188). -/

namespace Sys2Proof.Machine

/-- The causes of a fault (R200). -/
inductive Cause where
  | overflow | underflow | illegal | state | config | range | history
deriving DecidableEq, Repr

/-- The code of a cause (R200). -/
def Cause.code : Cause → BitVec 4
  | .overflow => 1
  | .underflow => 2
  | .illegal => 3
  | .state => 4
  | .config => 5
  | .range => 6
  | .history => 7

/-- The value of `ENG` as `STATUS[1:0]` shows it (R27). -/
def Eng.bits : Eng → BitVec 2
  | .unconfigured => 0
  | .ready => 1
  | .faulted => 2

/-- `STATUS` (R37): `ENG` in bits 1:0, `PRIMED` bit 4, `OVERSIZE` bit 5, `SHORT` bit 6, the rest 0. -/
def statusReg (s : State) : Word :=
  0#25 ++ BitVec.ofBool s.short ++ BitVec.ofBool s.oversize ++ BitVec.ofBool s.primed ++ 0#2 ++ s.eng.bits

/-- The word fault entry writes to `FAULT` (R38, R210): `OP` in bits 13:8, `BUF` bits 5:4, `CAUSE` bits 3:0. -/
def faultWord (op : BitVec 6) (b : BitVec 2) (c : Cause) : Word :=
  0#18 ++ op ++ 0#2 ++ b ++ c.code

/-- `FAULT.CAUSE` (R38). -/
def faultCause (w : Word) : BitVec 4 := w.extractLsb' 0 4

/-- `FAULT.BUF` (R38). -/
def faultBuf (w : Word) : BitVec 2 := w.extractLsb' 4 2

/-- `FAULT.OP` (R38). -/
def faultOp (w : Word) : BitVec 6 := w.extractLsb' 8 6

/-- The status word of an OK response (R86): `RESULT` in bits 23:0, the rest 0. Log entry 13. -/
def okWord (result : Nat) : Word := 0#8 ++ BitVec.ofNat 24 result

/-- The status word of an error response (R86): bit 31 `ERR`, `CAUSE` in bits 27:24, the rest 0. -/
def errWord (c : Cause) : Word := 1#1 ++ 0#3 ++ c.code ++ 0#24

/-- PRIME completed (R37, R171). -/
def State.setPrimed (s : State) : State := { s with primed := true }

/-- PROCESS took the degraded path (R37, R172). -/
def State.setOversize (s : State) : State := { s with oversize := true }

/-- PROCESS zero-filled `n` samples (R37, R40, R172). -/
def State.setShort (s : State) (n : Nat) : State := { s with short := true, shortfall := BitVec.ofNat 32 n }

/-- BUILD clears the diagnostic flags and `SHORTFALL` (R37, R40, R188). -/
def State.clearFlags (s : State) : State :=
  { s with primed := false, oversize := false, short := false, shortfall := 0 }

end Sys2Proof.Machine
end

