-- ==== Sys2Proof/Machine/Numerics.lean ====
section
/-! DEFINITION. Sample arithmetic (R16, R17): the record `Numerics` that every stage takes as an argument, its default
instance IEEE 754 binary32, and the inner product `dot`. -/

namespace Sys2Proof.Machine

/-- The sample arithmetic (R16). `fadd d` and `fmul d` are the operations whose NaN result, if they give one, is draw
number `d` (U5); an instance with no such draw ignores `d`. -/
structure Numerics where
  fzero : Word
  fadd : Nat → Word → Word → Word
  fmul : Nat → Word → Word → Word

namespace Binary32

/-! The default instance. PRESUMED (log entry 2): the format and its operations are general knowledge (R16, R62, G1).
A finite magnitude is a natural number of units of 2^-149, the least positive value. -/

/-- Sign, bit 31 (R62). -/
def sign (x : Word) : Bool := x.getLsbD 31

/-- Biased exponent, bits 30:23 (R62). -/
def expo (x : Word) : Nat := (x.extractLsb' 23 8).toNat

/-- Fraction, bits 22:0 (R62). -/
def frac (x : Word) : Nat := (x.extractLsb' 0 23).toNat

/-- The exponent field is all ones and the fraction is not 0. -/
def isNaN (x : Word) : Bool := expo x == 255 && frac x != 0

/-- The exponent field is all ones and the fraction is 0. -/
def isInf (x : Word) : Bool := expo x == 255 && frac x == 0

/-- Significand of a finite value: the fraction, with the hidden bit for a normal number. -/
def mant (x : Word) : Nat := if expo x = 0 then frac x else 2 ^ 23 + frac x

/-- How many places the significand stands above units of 2^-149. -/
def lift (x : Word) : Nat := expo x - 1

/-- Magnitude of a finite value in units of 2^-149. -/
def mag (x : Word) : Nat := mant x <<< lift x

/-- The word with this sign and these low 31 bits. -/
def pack (s : Bool) (low : Nat) : Word := BitVec.ofBool s ++ BitVec.ofNat 31 low

/-- Quotient `p / 2^t` rounded to nearest, ties to the even quotient. -/
def roundShift (p t : Nat) : Nat :=
  let q := p >>> t
  let r := p % 2 ^ t
  if 2 * r < 2 ^ t then q
  else if 2 * r = 2 ^ t then q + q % 2
  else q + 1

/-- The value `p × 2^l / 2^k` units of 2^-149, rounded to nearest even with gradual underflow; infinity where it is
too large. `t` is how far `p × 2^l` moves down: at least `k`, and far enough to leave at most 24 bits; a carry out of
them moves into the exponent field. -/
def roundPack (s : Bool) (p l k : Nat) : Word :=
  if p = 0 then pack s 0
  else
    let t := max k (p.log2 + l - 23)
    let q := if l ≤ t then roundShift p (t - l) else p <<< (l - t)
    pack s (min (((t - k) <<< 23) + q) 0x7F800000)

/-- Draw number `d` of a quiet NaN: exponent all ones, the fraction's top bit 1, the sign and the other fraction bits
free (R16, U5). -/
def nan (d : Nat) : Word :=
  let x := Config.freeNaN d
  x.extractLsb' 22 1 ++ 0x1FF#9 ++ x.extractLsb' 0 22

/-- Infinity. -/
def inf (s : Bool) : Word := pack s 0x7F800000

/-- Addition, one rounding (R16). An exact zero sum is +0 but for the sum of two negative zeros. -/
def add (d : Nat) (x y : Word) : Word :=
  if isNaN x || isNaN y then nan d
  else if isInf x then
    if isInf y && (sign x != sign y) then nan d else x
  else if isInf y then y
  else if sign x = sign y then roundPack (sign x) (mag x + mag y) 0 0
  else if mag x = mag y then pack false 0
  else if mag y < mag x then roundPack (sign x) (mag x - mag y) 0 0
  else roundPack (sign y) (mag y - mag x) 0 0

/-- Multiplication, one rounding (R16). -/
def mul (d : Nat) (x y : Word) : Word :=
  let s := sign x != sign y
  if isNaN x || isNaN y then nan d
  else if isInf x || isInf y then
    if (isInf x || mag x != 0) && (isInf y || mag y != 0) then inf s else nan d
  else roundPack s (mant x * mant y) (lift x + lift y) 149

end Binary32

/-- The default `Numerics`, IEEE 754 binary32 (R16). PRESUMED, log entry 2. -/
def numerics : Numerics where
  fzero := 0x00000000
  fadd := Binary32.add
  fmul := Binary32.mul

/-- The operations of the arithmetic the engine is built with (R10, R16). Log entry 20. -/
def arithmetic : Arith → Numerics
  | .binary32 => numerics
  | .other k => { fzero := Config.otherZero k, fadd := Config.otherAdd k, fmul := Config.otherMul k }

/-- Draw numbers are handed out four to a tap: `tapDraw d j` is the first of the `j`-th tap's, from `d` on. A tap reads
at most three words (draws 0 to 2 of `Config.freeWord`) and makes one product and one sum (draws 0 and 1 of
`Config.freeNaN`). Log entry 5. -/
def tapDraw (d j : Nat) : Nat := d + 4 * j

/-- `dot(n, a, c)` (R17): from `fzero`, in ascending `k`, one rounding for each product and one for each sum. `a k d'`
and `c k d'` are the `k`-th operands, read with draw `d'` should the word be unspecified. -/
def dot (num : Numerics) (d n : Nat) (a c : Nat → Nat → Word) : Word :=
  (List.range n).foldl
    (fun acc k =>
      num.fadd (tapDraw d k + 1) acc (num.fmul (tapDraw d k) (a k (tapDraw d k)) (c k (tapDraw d k + 1))))
    num.fzero

end Sys2Proof.Machine
end

