-- ==== Sys2Proof/Machine/Ops.lean ====
section
/-! DEFINITION. The named operations over memories, buffers and the response stream: the micro-operations of R110 to
R114, taking a fault (R15, R210, R211), leaving the faulted state by reset (R212, R230, R231), gating by the engine
state (R189), and taking a command from the port (R95). -/

namespace Sys2Proof.Machine

/-! ## Memories (R60) -/

/-- The definite word at an index, or none where the word is unspecified (R14, R25). -/
def Memory.read : Memory → Nat → Option Word
  | [], _ => none
  | (a, w) :: m, i => if a = i then some w else Memory.read m i

/-- The word a read gives: the definite word, or draw number `d` of an unspecified one (R25, U2). -/
def Memory.get (m : Memory) (i d : Nat) : Word := (m.read i).getD (Config.freeWord d)

/-- The cells of the words `ws` at the indices from `base` on. -/
def Memory.cells (base : Nat) : List Word → Memory
  | [] => []
  | w :: ws => (base, w) :: Memory.cells (base + 1) ws

/-- The cells below an index. -/
def Memory.below (m : Memory) (i : Nat) : Memory := m.filter fun c => c.1 < i

/-- The cells at an index and above. -/
def Memory.above (m : Memory) (i : Nat) : Memory := m.filter fun c => i ≤ c.1

/-- Write the words `ws` at the indices from `base` on (R14 `MemWrite`, in ascending order). -/
def Memory.fill (m : Memory) (base : Nat) (ws : List Word) : Memory :=
  m.below base ++ Memory.cells base ws ++ m.above (base + ws.length)

/-- `MemWrite` of one word (R14). -/
def Memory.write (m : Memory) (i : Nat) (w : Word) : Memory := m.fill i [w]

/-- The `n` words from `base` on become unspecified (R25). -/
def Memory.forget (m : Memory) (base n : Nat) : Memory := m.below base ++ m.above (base + n)

/-- The words `lo .. hi-1` moved down to index 0 on, everything else unspecified (R110, D35). A word that was
unspecified stays so (log entry 10). -/
def Memory.shiftDown (m : Memory) (lo hi : Nat) : Memory :=
  ((m.above lo).below hi).map fun c => (c.1 - lo, c.2)

/-- BUILD's reversed copy (R42, R43): word `k` below `n` becomes word `n - 1 - k` of `src`; the others are kept. -/
def Memory.reverseInto (m src : Memory) (n : Nat) : Memory :=
  ((src.below n).reverse.map fun c => (n - 1 - c.1, c.2)) ++ m.above n

/-! ## Buffers (R21 to R26) -/

/-- The descriptor and store of a buffer. -/
def State.buf (s : State) : BufId → Buf
  | .b0 => s.buf0
  | .b1 => s.buf1
  | .b2 => s.buf2
  | .b3 => s.buf3

/-- Replace the descriptor and store of a buffer. -/
def State.setBuf (s : State) (b : BufId) (q : Buf) : State :=
  match b with
  | .b0 => { s with buf0 := q }
  | .b1 => { s with buf1 := q }
  | .b2 => { s with buf2 := q }
  | .b3 => { s with buf3 := q }

/-- `size(b)` of a descriptor (R26). -/
def Buf.size (q : Buf) : Nat := q.de - q.ds

/-- `start_index(b)` (R26). -/
def Buf.startIndex (q : Buf) : BitVec 64 := q.bsi + BitVec.ofNat 64 q.ds

/-- `end_index(b)` (R26). -/
def Buf.endIndex (q : Buf) : BitVec 64 := q.bsi + BitVec.ofNat 64 q.de

/-- The definite word of a slot: a slot outside the live range has none (R25, R47). -/
def Buf.slot? (q : Buf) (i : Nat) : Option Word :=
  if q.ds ≤ i ∧ i < q.de then q.store.read i else none

/-- `data(b, k)` where the slot holds a definite word (R14, R114). -/
def Buf.data? (q : Buf) (k : Nat) : Option Word := q.slot? (q.ds + k)

/-- Compaction (R110): live samples to slot 0 on, `BSI` up by the amount shifted, `DS` to 0. -/
def Buf.compact (q : Buf) : Buf :=
  { q with
    ds := 0
    de := q.size
    bsi := q.bsi + BitVec.ofNat 64 q.ds
    store := q.store.shiftDown q.ds q.de }

/-- Compaction when the physical end would otherwise be exceeded (R110). -/
def Buf.makeRoom (q : Buf) (n : Nat) : Buf := if q.cap < q.de + n then q.compact else q

/-- Reserve `n` trailing slots: they are live and unspecified (R25, R110). -/
def Buf.reserve (q : Buf) (n : Nat) : Buf :=
  { q with de := q.de + n, store := q.store.forget q.de n }

/-- `MemWrite` of the words `ws` from slot `p` on (R14). -/
def Buf.fill (q : Buf) (p : Nat) (ws : List Word) : Buf := { q with store := q.store.fill p ws }

/-- `DS[b] <- DS[b] + n` (R113). -/
def Buf.consume (q : Buf) (n : Nat) : Buf := { q with ds := q.ds + n }

/-- `size(b)` (R26, R114). -/
def State.size (s : State) (b : BufId) : Nat := (s.buf b).size

/-- `data(b, k)`, with draw number `d` should the slot be unspecified (R14, R25, R114). -/
def State.data (s : State) (b : BufId) (k d : Nat) : Word := ((s.buf b).data? k).getD (Config.freeWord d)

/-- The `Numerics` of the engine (R10): the argument of every operation on samples. -/
def State.num (s : State) : Numerics := arithmetic s.params.arith

/-- `n` draw numbers are used up (log entry 5). -/
def State.advance (s : State) (n : Nat) : State := { s with draws := s.draws + n }

/-! ## Named updates of the rest of the state -/

/-- LDHP's words and length (R185). -/
def State.loadHc (s : State) (n : BitVec 24) (ws : List Word) : State :=
  { s with hc := s.hc.fill 0 ws, hpLen := n.setWidth 32 }

/-- LDIP's words and length (R186). -/
def State.loadIc (s : State) (n : BitVec 24) (ws : List Word) : State :=
  { s with ic := s.ic.fill 0 ws, ipLen := n.setWidth 32 }

/-- LDWIN's words and length (R187). -/
def State.loadWin (s : State) (n : BitVec 24) (ws : List Word) : State :=
  { s with win := s.win.fill 0 ws, winLen := n.setWidth 32 }

/-- Replace `HR` (R42). -/
def State.setHr (s : State) (m : Memory) : State := { s with hr := m }

/-- Replace `IR` (R43). -/
def State.setIr (s : State) (m : Memory) : State := { s with ir := m }

/-- Replace the accumulator and its cursor (R45). -/
def State.setAcc (s : State) (m : Memory) (pos : Nat) : State := { s with acc := m, accPos := pos }

/-- `ENG <- READY` (R27, R188). -/
def State.enterReady (s : State) : State := { s with eng := .ready }

/-- Fault entry's writes (R210): `FAULT`, `FAULT_INFO`, and `ENG <- FAULTED`. -/
def State.latchFault (s : State) (fault info : Word) : State :=
  { s with fault := fault, faultInfo := info, eng := .faulted }

/-! ## Commands that may fault part way (R15, R210) -/

/-- The operands of `raise Cause(b, info)` (R15). -/
structure Trap where
  cause : Cause
  buf : BufId
  info : Nat
deriving DecidableEq, Repr

/-- What a piece of a command comes to: a result and a state, or a `raise` with the state as it stands there: what was
done before it stays done (R210). -/
inductive Run (α : Type) where
  | done (a : α) (s : State)
  | raised (t : Trap) (s : State)
deriving Repr

/-- One piece after another: a `raise` ends the command (R15). -/
def Run.bind {α β : Type} (x : Run α) (f : α → State → Run β) : Run β :=
  match x with
  | .done a s => f a s
  | .raised t s => .raised t s

/-- What a command answers when it completes (R18, R86): `RESULT` and the response data words. -/
structure Answer where
  result : Nat
  data : List Word
deriving DecidableEq, Repr

/-- `respond(result)`, no data words (R18). -/
def respond (result : Nat) (s : State) : Run Answer := .done { result := result, data := [] } s

/-- Words leave on the response stream (R86). -/
def State.emit (s : State) (ws : List Word) : State := { s with resp := s.resp ++ ws }

/-- TAKING A FAULT (R15, R210): `FAULT` and `FAULT_INFO` are written, `ENG` becomes FAULTED, and the response is an
error response without data words. In FAULTED a command is only refused: the error response and no other change
(R211). -/
def State.takeFault (s : State) (op : BitVec 6) (t : Trap) : State :=
  match s.eng with
  | .faulted => s.emit [errWord t.cause]
  | _ => (s.latchFault (faultWord op t.buf.bits t.cause) (BitVec.ofNat 32 t.info)).emit [errWord t.cause]

/-- The end of a command (R86): its OK response, or the fault it raised. -/
def finish (op : BitVec 6) : Run Answer → State
  | .done a s => s.emit (okWord a.result :: a.data)
  | .raised t s => s.takeFault op t

/-- The state part of a reset (R49, R181, R231): everything to its reset value but the parameters, the interface and the
draw number. -/
def State.toReset (s : State) : State :=
  { State.reset with
    params := s.params
    port := s.port
    resp := s.resp
    resetIn := s.resetIn
    draws := s.draws }

/-- THE WAY OUT OF FAULTED (R212): the hardware reset (R230). No response; the reset input is taken. -/
def State.hardReset (s : State) : State := { s.toReset with resetIn := .idle }

/-! ## Gating by the engine state (R189, R204, R209) -/

/-- The command runs only in UNCONFIGURED; elsewhere it raises `State(0, info)` (in FAULTED: is refused). -/
def whenUnconfigured (info : Nat) (s : State) (body : Run Answer) : Run Answer :=
  match s.eng with
  | .unconfigured => body
  | _ => .raised { cause := .state, buf := .b0, info := info } s

/-- The command runs only in READY; elsewhere it raises `State(0, 0)` (in FAULTED: is refused). -/
def whenReady (s : State) (body : Run Answer) : Run Answer :=
  match s.eng with
  | .ready => body
  | _ => .raised { cause := .state, buf := .b0, info := 0 } s

/-! ## Micro-operations (R110 to R113) -/

/-- `extend(b, n)` (R110): the physical index of the first reserved slot. -/
def extend (s : State) (b : BufId) (n : Nat) : Run Nat :=
  let q := s.buf b
  if q.cap < q.size + n then .raised { cause := .overflow, buf := b, info := n } s
  else .done (q.makeRoom n).de (s.setBuf b ((q.makeRoom n).reserve n))

/-- `append(b, v, n)` (R111). -/
def append (s : State) (b : BufId) (n : Nat) (v : List Word) : Run Unit :=
  (extend s b n).bind fun p s' => .done () (s'.setBuf b ((s'.buf b).fill p (v.take n)))

/-- `append_zeros(b, n)` (R112). -/
def appendZeros (num : Numerics) (s : State) (b : BufId) (n : Nat) : Run Unit :=
  append s b n (List.replicate n num.fzero)

/-- `discard(b, n)` (R113). -/
def discard (s : State) (b : BufId) (n : Nat) : Run Unit :=
  if s.size b < n then .raised { cause := .underflow, buf := b, info := n } s
  else .done () (s.setBuf b ((s.buf b).consume n))

/-! ## Taking a command from the port (R95) -/

/-- What the port offers. -/
inductive Fetched where
  /-- A command and the state with its words taken from the port. -/
  | command (i : Instr) (s : State)
  /-- An illegal word and the state with it and its payload taken from the port (R89). -/
  | illegal (cw : Word) (s : State)
  /-- No word is waiting. -/
  | empty
  /-- The waiting words end inside a payload. -/
  | truncated
deriving Repr

/-- Steps (1) to (3) of R95. -/
def fetch (s : State) : Fetched :=
  match frame s.port with
  | .error .emptyStream => .empty
  | .error _ => .truncated
  | .ok f =>
    match decodeFrame f.cw f.payload with
    | .ok i => .command i { s with port := f.rest }
    | .error _ => .illegal f.cw { s with port := f.rest }

/-- The words of the next command are taken from the port and nothing is done with them, if a whole command waits. -/
def State.dropCommand (s : State) : State :=
  match frame s.port with
  | .ok f => { s with port := f.rest }
  | .error _ => s

/-- An illegal command word (R89, R203): the fault `Illegal(cw)`; its words are already taken. -/
def answerIllegal (cw : Word) (s : State) : State :=
  s.takeFault (opOf cw) { cause := .illegal, buf := .b0, info := cw.toNat }

/-- A step with the reset input asserted (R230): the reset state, with no response. Inside a command the command's
words are taken first and the command is abandoned (log entry 11). -/
def resetStep (s : State) : State :=
  match s.resetIn with
  | .insideCommand => s.dropCommand.hardReset
  | _ => s.hardReset

end Sys2Proof.Machine
end

