-- ==== Sys2Proof/Machine/Operands.lean ====
section
/-! DEFINITION. The operands of the commands: the configuration register file by number (R29 to R41), the derived
constants of the stages (R46), the coefficient, window and accumulator words a stage reads (R42 to R45), and the counts
and offsets of R88. -/

namespace Sys2Proof.Machine

/-! ## The register file (R29, R30) -/

/-- The number of a register, 0 to 15 (R30). -/
def regNum (r : CfgReg) : Nat := r.bits.toNat

/-- The writable mask of a register (R30); a read-only register has no writable bit. -/
def writableMask : CfgReg → Word
  | .maxIn => 0x00FFFFFF
  | .factor => 0x00000007
  | .segSize => 0x00FFFFFF
  | .ctrl => 0x00000001
  | .capMul0 => 0x00FFFFFF
  | .capMul1 => 0x00FFFFFF
  | .capMul2 => 0x00FFFFFF
  | .capMul3 => 0x00FFFFFF
  | .hpLen | .ipLen | .winLen | .status | .fault | .faultInfo | .shortfall | .accPos => 0

/-- The value of a register as GETCFG reads it (R183). -/
def State.readCfg (s : State) : CfgReg → Word
  | .maxIn => s.maxIn
  | .factor => s.factor
  | .segSize => s.segSize
  | .ctrl => s.ctrl
  | .capMul0 => s.capMul0
  | .capMul1 => s.capMul1
  | .capMul2 => s.capMul2
  | .capMul3 => s.capMul3
  | .hpLen => s.hpLen
  | .ipLen => s.ipLen
  | .winLen => s.winLen
  | .status => statusReg s
  | .fault => s.fault
  | .faultInfo => s.faultInfo
  | .shortfall => s.shortfall
  | .accPos => BitVec.ofNat 32 s.accPos

/-- `CFG[r] <- value AND writable_mask(r)` (R29, R182); a read-only register is left as it is. -/
def State.writeCfg (s : State) (r : CfgReg) (value : Word) : State :=
  let v := value &&& writableMask r
  match r with
  | .maxIn => { s with maxIn := v }
  | .factor => { s with factor := v }
  | .segSize => { s with segSize := v }
  | .ctrl => { s with ctrl := v }
  | .capMul0 => { s with capMul0 := v }
  | .capMul1 => { s with capMul1 := v }
  | .capMul2 => { s with capMul2 := v }
  | .capMul3 => { s with capMul3 := v }
  | .hpLen | .ipLen | .winLen | .status | .fault | .faultInfo | .shortfall | .accPos => s

/-- Bits 23:0 of a register as a count. -/
def field24 (w : Word) : Nat := (w.extractLsb' 0 24).toNat

/-- `CAPMULb` (R35). -/
def State.capMulReg (s : State) : BufId → Word
  | .b0 => s.capMul0
  | .b1 => s.capMul1
  | .b2 => s.capMul2
  | .b3 => s.capMul3

/-- `MAX_IN` as a count (R31). -/
def State.maxInCount (s : State) : Nat := field24 s.maxIn

/-- `CAPMULb` as a count (R35). -/
def State.capMul (s : State) (b : BufId) : Nat := field24 (s.capMulReg b)

/-! ## Derived constants (R46) -/

/-- `D = L = FACTOR` (R9, R32). -/
def State.D (s : State) : Nat := (s.factor.extractLsb' 0 3).toNat

/-- `S = SEG_SIZE` (R33). -/
def State.S (s : State) : Nat := field24 s.segSize

/-- `WS = D × S`, the window size. -/
def State.WS (s : State) : Nat := s.D * s.S

/-- `A = (D − 1) × S`, the accumulator length. -/
def State.A (s : State) : Nat := (s.D - 1) * s.S

/-- `CTRL.HP_EN` (R34). -/
def State.hpEn (s : State) : Bool := s.ctrl.getLsbD 0

/-- `LH = HP_LEN`, the FIR length (R36). -/
def State.LH (s : State) : Nat := field24 s.hpLen

/-- `N = IP_LEN`, the interpolation filter's length (R36). -/
def State.N (s : State) : Nat := field24 s.ipLen

/-- `WIN_LEN` as a count (R36). -/
def State.winCount (s : State) : Nat := field24 s.winLen

/-- `ceil(a / b)` (R12). -/
def ceilDiv (a b : Nat) : Nat := (a + b - 1) / b

/-- `R = ceil(N / L)`, the Interpolator's input record size. -/
def State.R (s : State) : Nat := ceilDiv s.N s.D

/-- `INT_IN`, the buffer the Interpolator reads (R46, R170). -/
def State.intIn (s : State) : BufId := if s.hpEn then .b2 else .b1

end Sys2Proof.Machine
end

