-- ==== Sys2Proof/Machine/Buffer.lean ====
section
/-! DEFINITION. The buffer commands (R116 to R124, R126): EXTEND, POKE, APPEND, APPENDZ, DISCARD, SIZE, PEEK, STARTIDX,
ENDIDX. -/

namespace Sys2Proof.Machine

/-- EXTEND `b, n` (R116): the answer is the reserved region's offset from `data()`, with `DS[b]` read after. -/
def execExtend (b : BufId) (n : BitVec 24) (s : State) : Host.Outcome State Fault Refusal :=
  .next (finish (Instr.extend b n).opcode (whenReady s
    ((extend s b n.toNat).bind fun p s' => respond (p - (s'.buf b).ds) s')))

/-- `raise Range(b, off)` unless the offset names a live sample (R117, R122, R206). -/
def inRange (s : State) (b : BufId) (off : Nat) (body : Run Answer) : Run Answer :=
  if s.size b ≤ off then .raised { cause := .range, buf := b, info := off } s else body

/-- POKE `b, off : v` (R117). -/
def execPoke (b : BufId) (off : BitVec 24) (v : Word) (s : State) : Host.Outcome State Fault Refusal :=
  .next (finish (Instr.poke b off v).opcode (whenReady s (inRange s b off.toNat
    (respond 0 (s.setBuf b ((s.buf b).fill ((s.buf b).ds + off.toNat) [v]))))))

/-- APPEND `b, n : v0 .. v(n-1)` (R118). -/
def execAppend (b : BufId) (n : BitVec 24) (v : List Word) (s : State) : Host.Outcome State Fault Refusal :=
  .next (finish (Instr.append b n v).opcode (whenReady s
    ((append s b n.toNat v).bind fun _ s' => respond 0 s')))

/-- APPENDZ `b, n` (R119). -/
def execAppendz (b : BufId) (n : BitVec 24) (s : State) : Host.Outcome State Fault Refusal :=
  .next (finish (Instr.appendz b n).opcode (whenReady s
    ((appendZeros s.num s b n.toNat).bind fun _ s' => respond 0 s')))

/-- DISCARD `b, n` (R120). -/
def execDiscard (b : BufId) (n : BitVec 24) (s : State) : Host.Outcome State Fault Refusal :=
  .next (finish (Instr.discard b n).opcode (whenReady s
    ((discard s b n.toNat).bind fun _ s' => respond 0 s')))

/-- SIZE `b` (R121). -/
def execSize (b : BufId) (s : State) : Host.Outcome State Fault Refusal :=
  .next (finish (Instr.size b).opcode (whenReady s (respond (s.size b) s)))

/-- The sample a PEEK answers with, and the state: an unspecified slot uses up one draw, so that a second PEEK of it may
answer another word (R25, R122, U2). -/
def peekRun (s : State) (b : BufId) (off : Nat) : Run Answer :=
  match (s.buf b).data? off with
  | some w => .done { result := 0, data := [w] } s
  | none => .done { result := 0, data := [Config.freeWord s.draws] } (s.advance 1)

/-- PEEK `b, off` (R122). -/
def execPeek (b : BufId) (off : BitVec 24) (s : State) : Host.Outcome State Fault Refusal :=
  .next (finish (Instr.peek b off).opcode (whenReady s (inRange s b off.toNat (peekRun s b off.toNat))))

/-- The two response words of a logical index, low word first (R87, R123, R124). -/
def indexWords (v : BitVec 64) : List Word := [v.extractLsb' 0 32, v.extractLsb' 32 32]

/-- STARTIDX `b` (R123). -/
def execStartidx (b : BufId) (s : State) : Host.Outcome State Fault Refusal :=
  .next (finish (Instr.startidx b).opcode (whenReady s
    (.done { result := 0, data := indexWords (s.buf b).startIndex } s)))

/-- ENDIDX `b` (R124). -/
def execEndidx (b : BufId) (s : State) : Host.Outcome State Fault Refusal :=
  .next (finish (Instr.endidx b).opcode (whenReady s
    (.done { result := 0, data := indexWords (s.buf b).endIndex } s)))

end Sys2Proof.Machine
end

