-- ==== Sys2Proof/Machine/Fir.lean ====
section
/-! DEFINITION. The FIR Filter (R140 to R142): buffer 1 to buffer 2. -/

namespace Sys2Proof.Machine

/-- Output `i` of a FIR run (R141): `dot(LH, k ↦ data(1, i + k), k ↦ HR[k])`. -/
def firOut (num : Numerics) (s : State) (i : Nat) : Word :=
  dot num (tapDraw s.draws (i * s.LH)) s.LH (fun k d => s.data .b1 (i + k) d) (fun k d => s.hr.get k d)

/-- `fir_run()` (R141): the number of output samples written. -/
def firRun (num : Numerics) (s : State) : Run Nat :=
  if s.size .b1 < s.LH - 1 then .raised { cause := .history, buf := .b1, info := s.size .b1 } s
  else
    let m := s.size .b1 + 1 - s.LH
    (extend s .b2 m).bind fun p s1 =>
      let s2 := s1.setBuf .b2 ((s1.buf .b2).fill p ((List.range m).map (firOut num s1)))
      (discard (s2.advance (4 * (m * s.LH))) .b1 m).bind fun _ s3 => .done m s3

/-- FIRRUN (R141): in READY with the highpass built; else `State(0, 0)` (R189, R204). -/
def execFirrun (s : State) : Host.Outcome State Fault Refusal :=
  .next (finish Instr.firrun.opcode (whenReady s
    (if s.hpEn then (firRun s.num s).bind respond
     else .raised { cause := .state, buf := .b0, info := 0 } s)))

end Sys2Proof.Machine
end

