-- ==== Sys2Proof/Machine/Interpolator.lean ====
section
/-! DEFINITION. The Interpolator (R150 to R152): buffer `INT_IN` to buffer 3. -/

namespace Sys2Proof.Machine

/-- `Q`, the number of taps of phase `j` (R151): the indices `j, j + L, j + 2L, ...` below `N`. -/
def phaseTaps (N L j : Nat) : Nat := if N ≤ j then 0 else (N - 1 - j) / L + 1

/-- Output `t × L + j` of an Interpolator run (R151): the record's last sample first, with every `L`-th tap of `IR`. -/
def intOut (num : Numerics) (s : State) (o : Nat) : Word :=
  let t := o / s.D
  let j := o % s.D
  dot num (tapDraw s.draws (o * s.R)) (phaseTaps s.N s.D j)
    (fun q d => s.data s.intIn (t + s.R - 1 - q) d) (fun q d => s.ir.get (j + q * s.D) d)

/-- `int_run()` (R151): the number of output samples written. -/
def intRun (num : Numerics) (s : State) : Run Nat :=
  let i := s.intIn
  if s.size i < s.R - 1 then .raised { cause := .history, buf := i, info := s.size i } s
  else
    let m := s.size i + 1 - s.R
    (extend s .b3 (m * s.D)).bind fun p s1 =>
      let s2 := s1.setBuf .b3 ((s1.buf .b3).fill p ((List.range (m * s.D)).map (intOut num s1)))
      (discard (s2.advance (4 * (m * s.D * s.R))) i m).bind fun _ s3 => .done (m * s.D) s3

/-- INTRUN (R151). -/
def execIntrun (s : State) : Host.Outcome State Fault Refusal :=
  .next (finish Instr.intrun.opcode (whenReady s ((intRun s.num s).bind respond)))

end Sys2Proof.Machine
end

