-- ==== Sys2Proof/Machine/OverlapAdder.lean ====
section
/-! DEFINITION. The Overlap-Adder (R160 to R164): buffer 0 to buffer 1, with the accumulator and its cursor. -/

namespace Sys2Proof.Machine

/-- What one window works on (R161): the accumulator and its cursor. -/
structure Ola where
  acc : Memory
  pos : Nat
deriving DecidableEq, Repr

/-- The accumulator index of element `k = s × S + i` of a window (R161): `(ACC_POS + s × S + i) mod A`. -/
def accIndex (s : State) (pos k : Nat) : Nat := (pos + k) % s.A

/-- The product of element `k` of window `w` and its window coefficient (R161): `fmul(x[w × WS + k], W[k])`. -/
def olaProduct (num : Numerics) (s : State) (w k : Nat) : Word :=
  let d := tapDraw s.draws (w * s.WS + k)
  num.fmul d (s.data .b0 (w * s.WS + k) d) (s.win.get k (d + 1))

/-- Step (a) of R161 for element `i` of the first segment: the emitted sample, product first, accumulator second. -/
def olaEmit (num : Numerics) (s : State) (w : Nat) (o : Ola) (i : Nat) : Word :=
  let d := tapDraw s.draws (w * s.WS + i)
  num.fadd (d + 1) (olaProduct num s w i) (o.acc.get (accIndex s o.pos i) (d + 2))

/-- Step (b) of R161 for element `k` of an internal segment: the accumulator first, the product second. -/
def olaAdd (num : Numerics) (s : State) (w : Nat) (o : Ola) (k : Nat) : Ola :=
  let d := tapDraw s.draws (w * s.WS + k)
  let a := accIndex s o.pos k
  { o with acc := o.acc.write a (num.fadd (d + 1) (o.acc.get a (d + 2)) (olaProduct num s w k)) }

/-- Step (c) of R161 for element `k` of the final segment: the accumulator is overwritten. -/
def olaOverwrite (num : Numerics) (s : State) (w : Nat) (o : Ola) (k : Nat) : Ola :=
  { o with acc := o.acc.write (accIndex s o.pos k) (olaProduct num s w k) }

/-- One window (R161): the `S` samples emitted, and the accumulator and cursor after it. Elements `S .. (D−1)×S − 1`
are the internal segments and `(D−1)×S .. D×S − 1` the final one, in ascending order. -/
def olaWindow (num : Numerics) (s : State) (w : Nat) (o : Ola) : List Word × Ola :=
  let out := (List.range s.S).map (olaEmit num s w o)
  let o1 := ((List.range ((s.D - 2) * s.S)).map (s.S + ·)).foldl (olaAdd num s w) o
  let o2 := ((List.range s.S).map ((s.D - 1) * s.S + ·)).foldl (olaOverwrite num s w) o1
  (out, { o2 with pos := (o2.pos + s.S) % s.A })

/-- The first `wc` windows in order, oldest first (R161). -/
def olaWindows (num : Numerics) (s : State) (o : Ola) : Nat → List Word × Ola
  | 0 => ([], o)
  | w + 1 =>
    let r := olaWindows num s o w
    let r' := olaWindow num s w r.2
    (r.1 ++ r'.1, r'.2)

/-- `ola_run()` (R161): the number of output samples written. -/
def olaRun (num : Numerics) (s : State) : Run Nat :=
  let wc := s.size .b0 / s.WS
  (extend s .b1 (wc * s.S)).bind fun p s1 =>
    let r := olaWindows num s1 { acc := s1.acc, pos := s1.accPos } wc
    let s2 := s1.setBuf .b1 ((s1.buf .b1).fill p r.1)
    let s3 := s2.setAcc r.2.acc r.2.pos
    (discard (s3.advance (4 * (wc * s.WS))) .b0 (wc * s.WS)).bind fun _ s4 => .done (wc * s.S) s4

/-- OLARUN (R161). -/
def execOlarun (s : State) : Host.Outcome State Fault Refusal :=
  .next (finish Instr.olarun.opcode (whenReady s ((olaRun s.num s).bind respond)))

end Sys2Proof.Machine
end

