-- ==== Sys2Proof/Machine/Chain.lean ====
section
/-! DEFINITION. The chain sequencer (R170 to R174): PRIME and PROCESS. -/

namespace Sys2Proof.Machine

/-- PRIME `n` (R171). -/
def execPrime (n : BitVec 24) (s : State) : Host.Outcome State Fault Refusal :=
  .next (finish (Instr.prime n).opcode (whenReady s
    ((appendZeros s.num s .b0 n.toNat).bind fun _ s' => respond 0 s'.setPrimed)))

/-- The stages of one PROCESS in their order (R170, R172 step 2): Overlap-Adder, FIR when `HP_EN = 1`, Interpolator. -/
def stagesRun (num : Numerics) (s : State) : Run Nat :=
  (olaRun num s).bind fun _ s1 =>
    (if s1.hpEn then firRun num s1 else .done 0 s1).bind fun _ s2 => intRun num s2

/-- Steps 3 and 4 of R172: copy up to `count` samples out of buffer 3, zero-fill the rest, discard what was copied. -/
def deliver (num : Numerics) (count : Nat) (s : State) : Run Answer :=
  let k := min count (s.size .b3)
  let out := (List.range k).map (fun i => s.data .b3 i (s.draws + i)) ++ List.replicate (count - k) num.fzero
  let s1 := if k < count then s.setShort (count - k) else s
  (discard (s1.advance k) .b3 k).bind fun _ s2 => .done { result := k, data := out } s2

/-- PROCESS after its state check (R172): the degraded path, or append, stages, delivery. -/
def processRun (num : Numerics) (count : Nat) (x : List Word) (s : State) : Run Answer :=
  if s.maxInCount < count then
    .done { result := 0, data := List.replicate count num.fzero } s.setOversize
  else
    (append s .b0 count x).bind fun _ s1 =>
      (stagesRun num s1).bind fun _ s2 => deliver num count s2

/-- PROCESS `n : x0 .. x(n-1)` (R172). -/
def execProcess (n : BitVec 24) (x : List Word) (s : State) : Host.Outcome State Fault Refusal :=
  .next (finish (Instr.process n x).opcode (whenReady s (processRun s.num n.toNat x s)))

end Sys2Proof.Machine
end

