-- ==== Sys2Proof/Machine/Control.lean ====
section
/-! DEFINITION. The control commands (R180 to R188): NOP, RESET, SETCFG, GETCFG, LDHP, LDIP, LDWIN, BUILD. -/

namespace Sys2Proof.Machine

/-- NOP (R180): nothing, in every engine state. -/
def execNop (s : State) : Host.Outcome State Fault Refusal :=
  .next (finish Instr.nop.opcode (respond 0 s))

/-- RESET (R181): the reset state of R49, in every engine state. -/
def execReset (s : State) : Host.Outcome State Fault Refusal :=
  .next (finish Instr.reset.opcode (respond 0 s.toReset))

/-- SETCFG `r : value` (R182). -/
def execSetcfg (r : CfgReg) (value : Word) (s : State) : Host.Outcome State Fault Refusal :=
  .next (finish (Instr.setcfg r value).opcode (whenUnconfigured (regNum r) s
    (if 8 ≤ regNum r then .raised { cause := .config, buf := .b0, info := regNum r } s
     else respond 0 (s.writeCfg r value))))

/-- GETCFG `r` (R183): in every engine state. -/
def execGetcfg (r : CfgReg) (s : State) : Host.Outcome State Fault Refusal :=
  .next (finish (Instr.getcfg r).opcode (.done { result := 0, data := [s.readCfg r] } s))

/-- The load common to LDHP, LDIP and LDWIN (R185 to R187): the state check, the size check, then the words and the
length, which `store` puts where they go. -/
def loadTable (n : BitVec 24) (words : Nat) (s s' : State) : Run Answer :=
  whenUnconfigured n.toNat s
    (if words < n.toNat then .raised { cause := .config, buf := .b0, info := n.toNat } s
     else respond 0 s')

/-- LDHP `n : c0 .. c(n-1)` (R185). -/
def execLdhp (n : BitVec 24) (c : List Word) (s : State) : Host.Outcome State Fault Refusal :=
  .next (finish (Instr.ldhp n c).opcode (loadTable n s.params.hpWords s (s.loadHc n (c.take n.toNat))))

/-- LDIP `n : h0 .. h(n-1)` (R186). -/
def execLdip (n : BitVec 24) (h : List Word) (s : State) : Host.Outcome State Fault Refusal :=
  .next (finish (Instr.ldip n h).opcode (loadTable n s.params.ipWords s (s.loadIc n (h.take n.toNat))))

/-- LDWIN `n : w0 .. w(n-1)` (R187). -/
def execLdwin (n : BitVec 24) (w : List Word) (s : State) : Host.Outcome State Fault Refusal :=
  .next (finish (Instr.ldwin n w).opcode (loadTable n s.params.winWords s (s.loadWin n (w.take n.toNat))))

/-! ## BUILD (R188) -/

/-- Check 4 of R188 for one buffer fails. -/
def capBad (s : State) (b : BufId) : Bool :=
  s.capMul b == 0 || decide (s.params.bufWords < s.capMul b * s.maxInCount)

/-- The first check of R188 that fails: the buffer it names and its number. -/
def buildCheck (s : State) : Option (BufId × Nat) :=
  if ¬ (s.D = 2 ∨ s.D = 3 ∨ s.D = 4) then some (.b0, 1)
  else if s.maxInCount = 0 then some (.b0, 2)
  else if s.S = 0 then some (.b0, 3)
  else if capBad s .b0 then some (.b0, 4)
  else if capBad s .b1 then some (.b1, 4)
  else if capBad s .b2 then some (.b2, 4)
  else if capBad s .b3 then some (.b3, 4)
  else if s.winCount ≠ s.D * s.S then some (.b0, 5)
  else if s.params.accWords < (s.D - 1) * s.S then some (.b0, 6)
  else if s.N = 0 then some (.b0, 7)
  else if s.hpEn ∧ s.LH = 0 then some (.b0, 8)
  else if s.hpEn ∧ s.capMul .b1 * s.maxInCount < s.LH - 1 then some (.b1, 9)
  else if s.capMul s.intIn * s.maxInCount < s.R - 1 then some (s.intIn, 9)
  else none

/-- A buffer as BUILD sizes it (R188): `CAP[b] = CAPMULb × MAX_IN`, the offsets and `BSI[b]` 0. -/
def sizedBuf (s : State) (b : BufId) : Buf :=
  { s.buf b with cap := s.capMul b * s.maxInCount, ds := 0, de := 0, bsi := 0 }

/-- BUILD's first steps (R188, R160): size the buffers, zero the live accumulator, `ACC_POS` to 0. -/
def buildSized (num : Numerics) (s : State) : State :=
  { s with
    buf0 := sizedBuf s .b0
    buf1 := sizedBuf s .b1
    buf2 := sizedBuf s .b2
    buf3 := sizedBuf s .b3
    acc := s.acc.fill 0 (List.replicate s.A num.fzero)
    accPos := 0 }

/-- BUILD's FIR part (R140): the reversed copy `HR` and the priming of buffer 1, when `HP_EN = 1`. -/
def buildFir (num : Numerics) (s : State) : Run Unit :=
  if s.hpEn then appendZeros num (s.setHr (s.hr.reverseInto s.hc s.LH)) .b1 (s.LH - 1)
  else .done () s

/-- BUILD's Interpolator part (R150): the reversed copy `IR` and the priming of buffer `INT_IN`. -/
def buildInt (num : Numerics) (s : State) : Run Unit :=
  appendZeros num (s.setIr (s.ir.reverseInto s.ic s.N)) s.intIn (s.R - 1)

/-- BUILD after its state check (R188): all checks, then the construction, which no check of R188 lets fail. -/
def buildRun (num : Numerics) (s : State) : Run Answer :=
  match buildCheck s with
  | some (b, check) => .raised { cause := .config, buf := b, info := check } s
  | none =>
    (buildFir num (buildSized num s)).bind fun _ s1 =>
      (buildInt num s1).bind fun _ s2 =>
        respond 0 s2.clearFlags.enterReady

/-- BUILD (R188). -/
def execBuild (s : State) : Host.Outcome State Fault Refusal :=
  .next (finish Instr.build.opcode (whenUnconfigured 0 s (buildRun s.num s)))

end Sys2Proof.Machine
end

