-- ==== Sys2Proof/Machine/Dispatch.lean ====
section
/-! DEFINITION. One arm per command (R85). -/

namespace Sys2Proof.Machine

def exec (i : Instr) (s : State) : Host.Outcome State Fault Refusal :=
  match i with
  | .nop => Sys2Proof.Machine.execNop s
  | .reset => Sys2Proof.Machine.execReset s
  | .setcfg r value => Sys2Proof.Machine.execSetcfg r value s
  | .getcfg r => Sys2Proof.Machine.execGetcfg r s
  | .ldhp n c => Sys2Proof.Machine.execLdhp n c s
  | .ldip n h => Sys2Proof.Machine.execLdip n h s
  | .ldwin n w => Sys2Proof.Machine.execLdwin n w s
  | .build => Sys2Proof.Machine.execBuild s
  | .extend b n => Sys2Proof.Machine.execExtend b n s
  | .poke b off v => Sys2Proof.Machine.execPoke b off v s
  | .append b n v => Sys2Proof.Machine.execAppend b n v s
  | .appendz b n => Sys2Proof.Machine.execAppendz b n s
  | .discard b n => Sys2Proof.Machine.execDiscard b n s
  | .size b => Sys2Proof.Machine.execSize b s
  | .peek b off => Sys2Proof.Machine.execPeek b off s
  | .startidx b => Sys2Proof.Machine.execStartidx b s
  | .endidx b => Sys2Proof.Machine.execEndidx b s
  | .firrun => Sys2Proof.Machine.execFirrun s
  | .intrun => Sys2Proof.Machine.execIntrun s
  | .olarun => Sys2Proof.Machine.execOlarun s
  | .prime n => Sys2Proof.Machine.execPrime n s
  | .process n x => Sys2Proof.Machine.execProcess n x s

end Sys2Proof.Machine
end

