-- ==== Sys2Proof/Machine/Step.lean ====
section
/-! DEFINITION. One step of the engine: one command, or the hardware reset (R20, R67, R68, R95, R230). -/

namespace Sys2Proof.Machine

/-- One step. With the reset input asserted, the reset (R230); else one command from the port to completion (R95): a
legal one by its rule, an illegal word by R89. Without a whole command on the port the engine waits (R95, U9). -/
def step (s : State) : Host.Outcome State Fault Refusal :=
  match s.resetIn with
  | .betweenCommands => .next (resetStep s)
  | .insideCommand => .next (resetStep s)
  | .idle =>
    match fetch s with
    | .command i s' => exec i s'
    | .illegal cw s' => .next (answerIllegal cw s')
    | .empty => .fault .portEmpty
    | .truncated => .fault .portTruncated

/-- `s` with exactly one instruction on the command port, numbered as spec/opcode_table.json numbers it, and the reset
input idle, so that the next step takes it (log entry 6). -/
def State.withFetchWord (s : State) (nbits w : Nat) : State :=
  { s with port := tableWords nbits w, resetIn := .idle }

end Sys2Proof.Machine
end

