-- ==== Sys2Proof/Safety.lean ====
section
/-! DEFINITION. What counts as a sound state of the engine, in the terms the statements use: the invariants the spec
states of every state its rules reach, and the frames of the commands. -/

namespace Sys2Proof.Machine

/-! ## Invariants -/

/-- Every memory is in canonical form: indices strictly rising. -/
def CanonicalMemories (s : State) : Prop :=
  (∀ b, (s.buf b).store.wf) ∧ s.hc.wf ∧ s.hr.wf ∧ s.ic.wf ∧ s.ir.wf ∧ s.win.wf ∧ s.acc.wf

/-- The listed words of every RAM lie within its physical size (R42 to R45). -/
def WithinRams (s : State) : Prop :=
  (∀ c ∈ s.hc, c.1 < s.params.hpWords) ∧ (∀ c ∈ s.hr, c.1 < s.params.hpWords) ∧
  (∀ c ∈ s.ic, c.1 < s.params.ipWords) ∧ (∀ c ∈ s.ir, c.1 < s.params.ipWords) ∧
  (∀ c ∈ s.win, c.1 < s.params.winWords) ∧ (∀ c ∈ s.acc, c.1 < s.params.accWords)

/-- The three lengths never exceed the RAM they measure (R36, R185 to R187). -/
def LengthsFit (s : State) : Prop :=
  s.LH ≤ s.params.hpWords ∧ s.N ≤ s.params.ipWords ∧ s.winCount ≤ s.params.winWords

/-- A buffer as R23 and R115 require it: `0 ≤ DS ≤ DE ≤ CAP ≤ BUF_WORDS`, and only slots below `CAP` were ever written
(R25). -/
def Buf.sound (q : Buf) (bufWords : Nat) : Prop :=
  q.ds ≤ q.de ∧ q.de ≤ q.cap ∧ q.cap ≤ bufWords ∧ ∀ c ∈ q.store, c.1 < q.cap

/-- The sizes meet the constraints of R10, and every count the spec gives 24 bits fits in them (R12, R22, R23, R45). -/
def CountsFit (s : State) : Prop :=
  s.params.legal ∧ (∀ b, (s.buf b).cap < 2 ^ 24 ∧ (s.buf b).ds < 2 ^ 24 ∧ (s.buf b).de < 2 ^ 24) ∧ s.accPos < 2 ^ 24

/-- Every buffer is sound, and before BUILD no buffer exists: each is as reset left it (R27, R49). -/
def SoundBuffers (s : State) : Prop :=
  (∀ b, (s.buf b).sound s.params.bufWords) ∧ (s.eng = .unconfigured → ∀ b, s.buf b = Buf.reset)

/-- Reserved bits read as 0 (R29 to R36, R40): registers 0 to 7 hold no bit outside their mask, and the lengths and
`SHORTFALL` none above bit 23. -/
def ReservedBitsZero (s : State) : Prop :=
  (∀ r, regNum r < 8 → s.readCfg r &&& writableMask r = s.readCfg r) ∧
  s.hpLen.toNat < 2 ^ 24 ∧ s.ipLen.toNat < 2 ^ 24 ∧ s.winLen.toNat < 2 ^ 24 ∧ s.shortfall.toNat < 2 ^ 24

/-- The fault latch (R27, R38, R39, R200): outside FAULTED both fault registers are 0; in FAULTED the cause is one of 1
to 7; bits 7:6 and 31:14 of `FAULT` are 0. -/
def FaultLatch (s : State) : Prop :=
  (s.eng ≠ .faulted → s.fault = 0 ∧ s.faultInfo = 0) ∧
  (s.eng = .faulted → 1 ≤ (faultCause s.fault).toNat ∧ (faultCause s.fault).toNat ≤ 7) ∧
  s.fault.extractLsb' 6 2 = 0 ∧ s.fault.extractLsb' 14 18 = 0

/-- The diagnostic flags and the cursor before BUILD (R37, R40, R45, R49). -/
def IdleBeforeBuild (s : State) : Prop :=
  s.eng = .unconfigured → s.primed = false ∧ s.oversize = false ∧ s.short = false ∧ s.shortfall = 0 ∧ s.accPos = 0

/-- The accumulator cursor while READY (R45, R162): a multiple of `S` below `A`, over a live accumulator that holds a
definite word at every index. -/
def CursorSound (s : State) : Prop :=
  s.accPos < s.A ∧ s.S ∣ s.accPos ∧ ∀ k, k < s.A → (s.acc.read k).isSome

/-- What BUILD has checked and READY keeps (R31 to R36, R188). -/
def ConfigLegal (s : State) : Prop :=
  (s.D = 2 ∨ s.D = 3 ∨ s.D = 4) ∧ 1 ≤ s.maxInCount ∧ 1 ≤ s.S ∧
  (∀ b, 1 ≤ s.capMul b ∧ s.capMul b * s.maxInCount ≤ s.params.bufWords) ∧
  s.winCount = s.D * s.S ∧ (s.D - 1) * s.S ≤ s.params.accWords ∧ 1 ≤ s.N ∧
  (s.hpEn = true → 1 ≤ s.LH ∧ s.LH - 1 ≤ s.capMul .b1 * s.maxInCount) ∧
  s.R - 1 ≤ s.capMul s.intIn * s.maxInCount

/-- READY means a legal configuration, buffers of the capacities it gives, and a sound cursor (R22, R45, R188). -/
def ReadySound (s : State) : Prop :=
  s.eng = .ready →
    ConfigLegal s ∧ (∀ b, (s.buf b).cap = s.capMul b * s.maxInCount) ∧ CursorSound s

/-- Before BUILD or after it, the words of a table below its length are definite, and while READY the caches are the
reversed vectors (R42, R43, R47). -/
def TablesSound (s : State) : Prop :=
  (∀ k, k < s.LH → (s.hc.read k).isSome) ∧ (∀ k, k < s.N → (s.ic.read k).isSome) ∧
  (∀ k, k < s.winCount → (s.win.read k).isSome) ∧
  (s.eng = .ready → ∀ k, k < s.N → s.ir.read k = s.ic.read (s.N - 1 - k)) ∧
  (s.eng = .ready → s.hpEn = true → ∀ k, k < s.LH → s.hr.read k = s.hc.read (s.LH - 1 - k))

/-! ## Frames -/

/-- Nothing but the buffers, the response stream and the draw number differs. -/
def OnlyBuffersDiffer (s t : State) : Prop :=
  { t with buf0 := s.buf0, buf1 := s.buf1, buf2 := s.buf2, buf3 := s.buf3, resp := s.resp, draws := s.draws } = s

/-- Nothing but the buffers, the accumulator with its cursor, the response stream and the draw number differs. -/
def OnlyBuffersAndAccDiffer (s t : State) : Prop :=
  OnlyBuffersDiffer s { t with acc := s.acc, accPos := s.accPos }

/-- Buffer `b` is the only buffer that differs. -/
def OnlyBufferDiffers (b : BufId) (s t : State) : Prop := ∀ b', b' ≠ b → t.buf b' = s.buf b'

/-- `n` samples of a buffer were discarded (R113, R115): `DS` is up by `n`, and with it the start index; `CAP`, `DE`,
`BSI`, the store and the end index are as before. -/
def Discarded (n : Nat) (q q' : Buf) : Prop :=
  q' = { q with ds := q.ds + n } ∧ q'.startIndex = q.startIndex + BitVec.ofNat 64 n ∧ q'.endIndex = q.endIndex

/-- `n` slots were added to a buffer (R110, R115), across a compaction too: the end index is up by `n`, and `CAP` and the
start index are as before. -/
def Extended (n : Nat) (q q' : Buf) : Prop :=
  q'.cap = q.cap ∧ q'.startIndex = q.startIndex ∧ q'.endIndex = q.endIndex + BitVec.ofNat 64 n

/-- The configuration, the lengths, the tables and their caches are the same (R184). -/
def SameConfiguration (s t : State) : Prop :=
  t.params = s.params ∧ (∀ r, regNum r < 11 → t.readCfg r = s.readCfg r) ∧
  t.hc = s.hc ∧ t.hr = s.hr ∧ t.ic = s.ic ∧ t.ir = s.ir ∧ t.win = s.win

/-- Outcome of a command that only takes a fault: the fault registers, `ENG` and one error response (R210). -/
def faultedBy (s : State) (op : BitVec 6) (b : BufId) (c : Cause) (info : Nat) : State :=
  { s with
    fault := faultWord op b.bits c
    faultInfo := BitVec.ofNat 32 info
    eng := .faulted
    resp := s.resp ++ [errWord c] }

/-- Outcome of a legal command that is refused in FAULTED (R211): one error response. -/
def refusedIn (s : State) : State := { s with resp := s.resp ++ [errWord .state] }

/-! ## Responses (R86, R87) -/

/-- How many data words follow the status word of a command that completed (R87). -/
def dataWords : Instr → Nat
  | .getcfg _ | .peek _ _ => 1
  | .startidx _ | .endidx _ => 2
  | .process n _ => n.toNat
  | .nop | .reset | .setcfg _ _ | .ldhp _ _ | .ldip _ _ | .ldwin _ _ | .build | .extend _ _ | .poke _ _ _
  | .append _ _ _ | .appendz _ _ | .discard _ _ | .size _ | .firrun | .intrun | .olarun | .prime _ => 0

/-- A status word and data words are one response to a command that answers with `k` data words when it completes
(R86). -/
def IsResponse (k : Nat) (sw : Word) (data : List Word) : Prop :=
  sw.extractLsb' 28 3 = 0 ∧
  (sw.getLsbD 31 = true → data = [] ∧ sw.extractLsb' 0 24 = 0 ∧ 1 ≤ (sw.extractLsb' 24 4).toNat ∧
    (sw.extractLsb' 24 4).toNat ≤ 7) ∧
  (sw.getLsbD 31 = false → sw.extractLsb' 24 4 = 0 ∧ data.length = k)

/-! ## Sequences of buffer commands (R115) -/

/-- The commands of R116 to R124, with PRIME, NOP and GETCFG. -/
def isBufferCommand : Instr → Bool
  | .nop | .getcfg _ | .extend _ _ | .poke _ _ _ | .append _ _ _ | .appendz _ _ | .discard _ _ | .size _ | .peek _ _
  | .startidx _ | .endidx _ | .prime _ => true
  | .reset | .setcfg _ _ | .ldhp _ _ | .ldip _ _ | .ldwin _ _ | .build | .firrun | .intrun | .olarun
  | .process _ _ => false

/-- The slots a command that answers OK adds to a buffer. -/
def appendedTo (b : BufId) : Instr → Nat
  | .extend b' n => if b' = b then n.toNat else 0
  | .append b' n _ => if b' = b then n.toNat else 0
  | .appendz b' n => if b' = b then n.toNat else 0
  | .prime n => if BufId.b0 = b then n.toNat else 0
  | _ => 0

/-- The samples a command that answers OK discards from a buffer. -/
def discardedFrom (b : BufId) : Instr → Nat
  | .discard b' n => if b' = b then n.toNat else 0
  | _ => 0

/-- The commands, one after another, lead from `s` to `t`. -/
def runsTo : List Instr → State → State → Prop
  | [], s, t => t = s
  | i :: is, s, t => ∃ u, exec i s = .next u ∧ runsTo is u t

/-! ## PROCESS and its stages (R172, R210) -/

/-- PROCESS from `s` ended in `t` as a stage command, run from `r`, ended in `u`: with that command's state, fault cause,
buffer, information and error word, and PROCESS's own opcode in `FAULT.OP`. -/
def FaultedAs (s r u t : State) : Prop :=
  t.eng = .faulted ∧ faultOp t.fault = 0x31 ∧ faultBuf t.fault = faultBuf u.fault ∧
  faultCause t.fault = faultCause u.fault ∧ { t with fault := u.fault, resp := u.resp } = u ∧
  ∃ sw : Word, u.resp = r.resp ++ [sw] ∧ t.resp = s.resp ++ [sw]

/-! ## Streaming (R173, R233) -/

/-- Every stage input holds exactly its history: buffer `INT_IN` `R − 1` samples, and with a highpass buffer 1 `LH − 1`
samples (R142, R151). -/
def HistoriesFull (s : State) : Prop :=
  s.size s.intIn = s.R - 1 ∧ (s.hpEn = true → s.size .b1 = s.LH - 1)

/-- `Z` samples are in the chain: those waiting in buffer 0 and those ready in buffer 3 (R173: each window moves `WS`
samples from the one to the other). -/
def InChain (s : State) (z : Nat) : Prop := s.size .b0 + s.size .b3 = z

/-- The history the consumer of buffer 1 keeps there (R233's `H1`). -/
def historyOfA (s : State) : Nat := if s.hpEn then s.LH - 1 else s.R - 1

/-- The most samples one Overlap-Adder run can emit when `Z` samples are in the chain before a block of at most `M`
(R233's `G`). -/
def mostEmitted (s : State) (z : Nat) : Nat := s.S * ((z + s.maxInCount) / s.WS)

/-- The capacities of R233 for `Z` samples in the chain. -/
def CapacitiesSuffice (s : State) (z : Nat) : Prop :=
  z + s.maxInCount ≤ s.buf0.cap ∧ historyOfA s + mostEmitted s z ≤ s.buf1.cap ∧
  (s.hpEn = true → s.R - 1 + mostEmitted s z ≤ s.buf2.cap) ∧ z + s.maxInCount ≤ s.buf3.cap

end Sys2Proof.Machine
end

