-- ==== Sys2Proof/Certificates/Slice0/Obligations.lean ====
section
/-! DEFINITION. The statements for the provers: what the numbered rules of spec/ say of the model. -/

open Sys2Proof Sys2Proof.Machine

/-! ## Encoding, framing and the step -/

/-- R80 to R83, R85, R88: for every well-formed command, decoding its words gives it back, whatever follows them. -/
def Obligations.DecodeOfEncodeGivesTheCommand : Prop :=
  ∀ (i : Instr) (rest : List Word), i.wellFormed = true → decode (encode i ++ rest) = .ok (i, rest)

/-- R80 to R85, R91: a stream that decodes is the words of the decoded command, which is well formed, and the rest. -/
def Obligations.DecodedWordsAreTheEncoding : Prop :=
  ∀ (ws rest : List Word) (i : Instr), decode ws = .ok (i, rest) → i.wellFormed = true ∧ ws = encode i ++ rest

/-- R82, R84, R85, R89: at most one row of the opcode table matches a command word, and a framed word decodes exactly
when a row matches it. -/
def Obligations.OpcodeTableDecidesLegality : Prop :=
  (∀ cw : Word, (opcodeTable.filter fun row => row.selects cw).length ≤ 1) ∧
  (∀ (cw : Word) (payload : List Word), payload.length = plen cw →
    ((∃ i, decodeFrame cw payload = .ok i) ↔ ∃ row ∈ opcodeTable, row.selects cw = true))

/-- V-ENC-1: words written out from R85 decode to the commands they stand for. -/
def Obligations.WrittenOutWordsDecode : Prop :=
  decode [0x08000007, 0x00000002] = .ok (.setcfg .capMul3 2, []) ∧
  decode [0x10000003, 0x3F800000, 0x40000000, 0x40400000] =
    .ok (.ldhp 3 [0x3F800000, 0x40000000, 0x40400000], []) ∧
  decode [0x41000003] = .ok (.extend .b1 3, []) ∧
  decode [0x45000002, 0x3F800000] = .ok (.poke .b1 2 0x3F800000, []) ∧
  decode [0x57000000] = .ok (.size .b3, []) ∧
  decode [0x80000000] = .ok (.firrun, []) ∧
  decode [0x84000000] = .ok (.intrun, []) ∧
  decode [0x88000000] = .ok (.olarun, []) ∧
  decode [0xC0000004] = .ok (.prime 4, []) ∧
  decode [0xC4000002, 0x3F800000, 0xBF800000, 0x00000000] =
    .ok (.process 2 [0x3F800000, 0xBF800000], [0])

/-- R95: with the reset input idle, a step runs the command the port's words decode to, on the state with those words
taken from the port. -/
def Obligations.StepRunsTheDecodedCommand : Prop :=
  ∀ (s : State) (i : Instr) (rest : List Word), s.resetIn = .idle → decode s.port = .ok (i, rest) →
    step s = exec i { s with port := rest }

/-- R89, R203, R211: an illegal word takes its payload from the port; outside FAULTED it takes the fault `Illegal` with
the word as information and changes nothing else; in FAULTED it is only answered. -/
def Obligations.IllegalWordTakesTheIllegalFault : Prop :=
  ∀ (s : State) (cw : Word) (payload rest : List Word), s.resetIn = .idle → s.port = cw :: (payload ++ rest) →
    payload.length = plen cw → (∀ row ∈ opcodeTable, row.selects cw = false) →
    (s.eng ≠ .faulted →
      step s = .next
        { s with
          port := rest
          resp := s.resp ++ [0x83000000]
          eng := .faulted
          fault := faultWord (cw.extractLsb' 26 6) 0 .illegal
          faultInfo := cw }) ∧
    (s.eng = .faulted → step s = .next { s with port := rest, resp := s.resp ++ [0x83000000] })

/-- R95, U9: without a whole command on the port there is no further step. -/
def Obligations.NoStepWithoutAWholeCommand : Prop :=
  (∀ s : State, s.resetIn = .idle → s.port = [] → step s = .fault .portEmpty) ∧
  (∀ (s : State) (cw : Word) (ws : List Word), s.resetIn = .idle → s.port = cw :: ws → ws.length < plen cw →
    step s = .fault .portTruncated)

/-- R230, R49: a hardware reset gives the reset state with no response. Which words of the port are taken is the model's
choice (log entry 11) and is not said here. -/
def Obligations.HardwareResetGivesTheResetState : Prop :=
  ∀ s : State, s.resetIn ≠ .idle → ∃ (t : State) (taken : List Word), step s = .next t ∧ s.port = taken ++ t.port ∧
    { t with port := [], params := State.reset.params, resp := [], draws := 0 } = State.reset ∧
    t.resp = s.resp ∧ t.params = s.params

/-- R86, R87: every command has its step, and adds exactly one response: one status word, bits 30:28 of which are 0,
and data words. An OK response has cause 0 and as many data words as R87 gives the command; an error response has
`RESULT` 0, a cause of 1 to 7 and no data word. An illegal word's response is the one word of the cause `Illegal`. -/
def Obligations.ExactlyOneResponse : Prop :=
  (∀ (i : Instr) (s : State), ∃ (t : State) (sw : Word) (data : List Word), exec i s = .next t ∧
    t.resp = s.resp ++ sw :: data ∧ IsResponse (dataWords i) sw data) ∧
  ∀ s t : State, s.resetIn = .idle → step s = .next t → ∃ (sw : Word) (data : List Word),
    t.resp = s.resp ++ sw :: data ∧
    (∀ i rest, decode s.port = .ok (i, rest) → IsResponse (dataWords i) sw data) ∧
    ((∀ i rest, decode s.port ≠ .ok (i, rest)) → sw = 0x83000000 ∧ data = [])

/-! ## The engine state and the fault latch -/

/-- R211: in FAULTED, NOP and GETCFG answer as always and RESET leads out; every other legal command is refused: its
words are taken, its response is one error response with cause `State`, and no state changes; an illegal word is
answered with cause `Illegal` and changes nothing. -/
def Obligations.FaultedRefusesTheOtherCommands : Prop :=
  (∀ (i : Instr) (s : State), s.eng = .faulted → i ≠ .nop → i ≠ .reset → (∀ r, i ≠ .getcfg r) →
    exec i s = .next { s with resp := s.resp ++ [0x84000000] }) ∧
  (∀ (i : Instr) (s : State) (rest : List Word), s.eng = .faulted → s.resetIn = .idle →
    decode s.port = .ok (i, rest) → i ≠ .nop → i ≠ .reset → (∀ r, i ≠ .getcfg r) →
    step s = .next { s with port := rest, resp := s.resp ++ [0x84000000] }) ∧
  (∀ (s : State) (r : CfgReg), s.eng = .faulted →
    exec .nop s = .next { s with resp := s.resp ++ [0x00000000] } ∧
    exec (.getcfg r) s = .next { s with resp := s.resp ++ [0x00000000, s.readCfg r] } ∧
    ∃ t, exec .reset s = .next t ∧ t.eng = .unconfigured ∧ t.resp = s.resp ++ [0x00000000]) ∧
  (∀ (s : State) (cw : Word) (payload rest : List Word), s.eng = .faulted → s.resetIn = .idle →
    s.port = cw :: (payload ++ rest) → payload.length = plen cw → (∀ row ∈ opcodeTable, row.selects cw = false) →
    step s = .next { s with port := rest, resp := s.resp ++ [0x83000000] })

/-- R212, R38: RESET leaves FAULTED, for the reset state; no other command does, and none of the others changes the
latched fault. -/
def Obligations.OnlyResetLeavesFaulted : Prop :=
  (∀ (i : Instr) (s t : State), s.eng = .faulted → exec i s = .next t → i ≠ .reset →
    t.eng = .faulted ∧ t.fault = s.fault ∧ t.faultInfo = s.faultInfo) ∧
  (∀ s : State, s.eng = .faulted →
    ∃ t, exec .reset s = .next t ∧ t.eng = .unconfigured ∧ t.fault = 0 ∧ t.faultInfo = 0)

/-- R189, R204, R210: a legal command not accepted in UNCONFIGURED or READY takes the fault `State` and does nothing
else. -/
def Obligations.WrongStateTakesTheStateFault : Prop :=
  (∀ (i : Instr) (s : State), s.eng = .unconfigured →
    ((∃ b n, i = .extend b n) ∨ (∃ b o v, i = .poke b o v) ∨ (∃ b n v, i = .append b n v) ∨
      (∃ b n, i = .appendz b n) ∨ (∃ b n, i = .discard b n) ∨ (∃ b, i = .size b) ∨ (∃ b o, i = .peek b o) ∨
      (∃ b, i = .startidx b) ∨ (∃ b, i = .endidx b) ∨ i = .firrun ∨ i = .intrun ∨ i = .olarun ∨
      (∃ n, i = .prime n) ∨ ∃ n x, i = .process n x) →
    exec i s = .next (faultedBy s i.opcode .b0 .state 0)) ∧
  (∀ s : State, s.eng = .ready →
    (∀ r v, exec (.setcfg r v) s = .next (faultedBy s 0x02 .b0 .state (regNum r))) ∧
    (∀ n c, exec (.ldhp n c) s = .next (faultedBy s 0x04 .b0 .state n.toNat)) ∧
    (∀ n c, exec (.ldip n c) s = .next (faultedBy s 0x05 .b0 .state n.toNat)) ∧
    (∀ n c, exec (.ldwin n c) s = .next (faultedBy s 0x06 .b0 .state n.toNat)) ∧
    exec .build s = .next (faultedBy s 0x07 .b0 .state 0) ∧
    (s.hpEn = false → exec .firrun s = .next (faultedBy s 0x20 .b0 .state 0)))

/-- R27: RESET goes to UNCONFIGURED from any state, only BUILD goes from UNCONFIGURED to READY, a fault goes to FAULTED,
and no other change of `ENG` happens. -/
def Obligations.EngineStateTransitions : Prop :=
  ∀ (i : Instr) (s t : State), exec i s = .next t →
    (i = .reset → t.eng = .unconfigured) ∧
    (i ≠ .reset → t.eng = s.eng ∨ t.eng = .faulted ∨ (i = .build ∧ s.eng = .unconfigured ∧ t.eng = .ready)) ∧
    (t.eng = .faulted ∧ s.eng ≠ .faulted → ∃ c : Cause, faultCause t.fault = c.code ∧ t.resp = s.resp ++ [errWord c])

/-- R184: SETCFG, LDHP, LDIP, LDWIN and BUILD are accepted only in UNCONFIGURED: elsewhere they answer with cause
`State`. Once BUILD has succeeded, the configuration registers 0 to 7, the three lengths, the tables, the window and
the caches do not change until RESET, in FAULTED either. -/
def Obligations.ConfigurationImmutableOnceReady : Prop :=
  (∀ (i : Instr) (s t : State), s.eng ≠ .unconfigured → i ≠ .reset → exec i s = .next t → SameConfiguration s t) ∧
  (∀ (i : Instr) (s t : State), s.eng ≠ .unconfigured →
    ((∃ r v, i = .setcfg r v) ∨ (∃ n c, i = .ldhp n c) ∨ (∃ n c, i = .ldip n c) ∨ (∃ n c, i = .ldwin n c) ∨
      i = .build) →
    exec i s = .next t → t.eng = .faulted ∧ t.resp = s.resp ++ [0x84000000])

/-- R162: nothing but BUILD, reset and the window loop of OLARUN and PROCESS changes `ACC` or `ACC_POS`. -/
def Obligations.OnlyTheOverlapAdderMovesTheCursor : Prop :=
  ∀ (i : Instr) (s t : State), exec i s = .next t → i ≠ .build → i ≠ .reset → i ≠ .olarun →
    (∀ n x, i ≠ .process n x) → t.acc = s.acc ∧ t.accPos = s.accPos

/-! ## Control commands -/

/-- R181, R49: RESET in every engine state gives the reset state and answers OK: `ENG` UNCONFIGURED, every register,
descriptor and the cursor 0, every memory word unspecified. The port, the reset input, the parameters and the draw number are
not part of it (log entries 1, 5, 6, 11, 20). -/
def Obligations.ResetCommandGivesTheResetState : Prop :=
  encode .reset = [0x04000000] ∧
  (∀ s : State, exec .reset s = .next
    { State.reset with
      params := s.params
      port := s.port
      resetIn := s.resetIn
      draws := s.draws
      resp := s.resp ++ [0x00000000] }) ∧
  State.reset.eng = .unconfigured ∧ (∀ r, State.reset.readCfg r = 0) ∧ State.reset.accPos = 0 ∧
  (∀ b, (State.reset.buf b).cap = 0 ∧ (State.reset.buf b).ds = 0 ∧ (State.reset.buf b).de = 0 ∧
    (State.reset.buf b).bsi = 0) ∧
  (∀ k, (∀ b, (State.reset.buf b).store.read k = none) ∧ State.reset.hc.read k = none ∧ State.reset.hr.read k = none ∧
    State.reset.ic.read k = none ∧ State.reset.ir.read k = none ∧ State.reset.win.read k = none ∧
    State.reset.acc.read k = none)

/-- R180, R183: in every engine state NOP answers OK, GETCFG answers OK with the register, and both change nothing. -/
def Obligations.NopAndGetcfgOnlyAnswer : Prop :=
  encode .nop = [0x00000000] ∧
  ∀ (r : CfgReg) (s : State),
    encode (.getcfg r) = [0x0C000000 ||| BitVec.ofNat 32 (regNum r)] ∧
    exec .nop s = .next { s with resp := s.resp ++ [0x00000000] } ∧
    exec (.getcfg r) s = .next { s with resp := s.resp ++ [0x00000000, s.readCfg r] }

/-- R27, R37, R38, R41, R86, R200: where the fields of `STATUS`, of the word fault entry writes, and of `ACC_POS` lie,
the three values of `ENG`, the seven cause codes, and the error status word of each cause. -/
def Obligations.StatusRegisterFields : Prop :=
  (∀ s : State, (s.readCfg .status).extractLsb' 0 2 = s.eng.bits ∧ (s.readCfg .status).extractLsb' 2 2 = 0 ∧
    (s.readCfg .status).getLsbD 4 = s.primed ∧ (s.readCfg .status).getLsbD 5 = s.oversize ∧
    (s.readCfg .status).getLsbD 6 = s.short ∧ (s.readCfg .status).extractLsb' 7 25 = 0) ∧
  (∀ (op : BitVec 6) (b : BitVec 2) (c : Cause), (faultWord op b c).extractLsb' 0 4 = c.code ∧
    (faultWord op b c).extractLsb' 4 2 = b ∧ (faultWord op b c).extractLsb' 6 2 = 0 ∧
    (faultWord op b c).extractLsb' 8 6 = op ∧ (faultWord op b c).extractLsb' 14 18 = 0) ∧
  (∀ s : State, s.accPos < 2 ^ 24 → (s.readCfg .accPos).toNat = s.accPos) ∧
  Eng.unconfigured.bits = 0 ∧ Eng.ready.bits = 1 ∧ Eng.faulted.bits = 2 ∧
  Cause.overflow.code = 1 ∧ Cause.underflow.code = 2 ∧ Cause.illegal.code = 3 ∧ Cause.state.code = 4 ∧
  Cause.config.code = 5 ∧ Cause.range.code = 6 ∧ Cause.history.code = 7 ∧
  errWord .overflow = 0x81000000 ∧ errWord .underflow = 0x82000000 ∧ errWord .illegal = 0x83000000 ∧
  errWord .state = 0x84000000 ∧ errWord .config = 0x85000000 ∧ errWord .range = 0x86000000 ∧
  errWord .history = 0x87000000

/-- R182, R29: in UNCONFIGURED, SETCFG of a register 0 to 7 stores the value through its mask and changes no other
register and nothing else; of a register 8 to 15 it takes the fault `Config` with the register's number. In READY it
takes the fault `State` with that number; in FAULTED it is refused. -/
def Obligations.SetcfgStoresTheMaskedValue : Prop :=
  ∀ (r : CfgReg) (v : Word) (s : State),
    encode (.setcfg r v) = [0x08000000 ||| BitVec.ofNat 32 (regNum r), v] ∧
    (regNum r < 8 → writableMask r = if r = .factor then 0x00000007 else if r = .ctrl then 0x00000001 else 0x00FFFFFF) ∧
    (s.eng = .unconfigured → regNum r < 8 →
      ∃ t, exec (.setcfg r v) s = .next t ∧ t.readCfg r = v &&& writableMask r ∧
        (∀ r', r' ≠ r → t.readCfg r' = s.readCfg r') ∧ t.resp = s.resp ++ [0x00000000] ∧
        { t with
          maxIn := s.maxIn, factor := s.factor, segSize := s.segSize, ctrl := s.ctrl, capMul0 := s.capMul0,
          capMul1 := s.capMul1, capMul2 := s.capMul2, capMul3 := s.capMul3, resp := s.resp } = s) ∧
    (s.eng = .unconfigured → 8 ≤ regNum r →
      exec (.setcfg r v) s = .next (faultedBy s 0x02 .b0 .config (regNum r))) ∧
    (s.eng = .ready → exec (.setcfg r v) s = .next (faultedBy s 0x02 .b0 .state (regNum r))) ∧
    (s.eng = .faulted → exec (.setcfg r v) s = .next (refusedIn s))

/-- R185: in UNCONFIGURED, LDHP of a vector that fits writes it to `HC` from word 0 on, sets `HP_LEN`, and changes
nothing else; a longer one takes the fault `Config` with the count and writes nothing. In READY it takes the fault
`State` with the count; in FAULTED it is refused. -/
def Obligations.LdhpLoadsTheVector : Prop :=
  ∀ (n : BitVec 24) (ws : List Word) (s : State), ws.length = n.toNat →
    encode (.ldhp n ws) = (0x04#6 ++ 0#2 ++ n) :: ws ∧
    (s.eng = .unconfigured → n.toNat ≤ s.params.hpWords →
      ∃ t, exec (.ldhp n ws) s = .next t ∧ (∀ k, k < n.toNat → t.hc.read k = ws[k]?) ∧
        (∀ k, n.toNat ≤ k → t.hc.read k = s.hc.read k) ∧ t.hpLen.toNat = n.toNat ∧
        t.resp = s.resp ++ [0x00000000] ∧ { t with hc := s.hc, hpLen := s.hpLen, resp := s.resp } = s) ∧
    (s.eng = .unconfigured → s.params.hpWords < n.toNat →
      exec (.ldhp n ws) s = .next (faultedBy s 0x04 .b0 .config n.toNat)) ∧
    (s.eng = .ready → exec (.ldhp n ws) s = .next (faultedBy s 0x04 .b0 .state n.toNat)) ∧
    (s.eng = .faulted → exec (.ldhp n ws) s = .next (refusedIn s))

/-- R186: in UNCONFIGURED, LDIP of a vector that fits writes it to `IC` from word 0 on, sets `IP_LEN`, and changes
nothing else; a longer one takes the fault `Config` with the count and writes nothing. In READY it takes the fault
`State` with the count; in FAULTED it is refused. -/
def Obligations.LdipLoadsTheVector : Prop :=
  ∀ (n : BitVec 24) (ws : List Word) (s : State), ws.length = n.toNat →
    encode (.ldip n ws) = (0x05#6 ++ 0#2 ++ n) :: ws ∧
    (s.eng = .unconfigured → n.toNat ≤ s.params.ipWords →
      ∃ t, exec (.ldip n ws) s = .next t ∧ (∀ k, k < n.toNat → t.ic.read k = ws[k]?) ∧
        (∀ k, n.toNat ≤ k → t.ic.read k = s.ic.read k) ∧ t.ipLen.toNat = n.toNat ∧
        t.resp = s.resp ++ [0x00000000] ∧ { t with ic := s.ic, ipLen := s.ipLen, resp := s.resp } = s) ∧
    (s.eng = .unconfigured → s.params.ipWords < n.toNat →
      exec (.ldip n ws) s = .next (faultedBy s 0x05 .b0 .config n.toNat)) ∧
    (s.eng = .ready → exec (.ldip n ws) s = .next (faultedBy s 0x05 .b0 .state n.toNat)) ∧
    (s.eng = .faulted → exec (.ldip n ws) s = .next (refusedIn s))

/-- R187: in UNCONFIGURED, LDWIN of a vector that fits writes it to `W` from word 0 on, sets `WIN_LEN`, and changes
nothing else; a longer one takes the fault `Config` with the count and writes nothing. In READY it takes the fault
`State` with the count; in FAULTED it is refused. -/
def Obligations.LdwinLoadsTheWindow : Prop :=
  ∀ (n : BitVec 24) (ws : List Word) (s : State), ws.length = n.toNat →
    encode (.ldwin n ws) = (0x06#6 ++ 0#2 ++ n) :: ws ∧
    (s.eng = .unconfigured → n.toNat ≤ s.params.winWords →
      ∃ t, exec (.ldwin n ws) s = .next t ∧ (∀ k, k < n.toNat → t.win.read k = ws[k]?) ∧
        (∀ k, n.toNat ≤ k → t.win.read k = s.win.read k) ∧ t.winLen.toNat = n.toNat ∧
        t.resp = s.resp ++ [0x00000000] ∧ { t with win := s.win, winLen := s.winLen, resp := s.resp } = s) ∧
    (s.eng = .unconfigured → s.params.winWords < n.toNat →
      exec (.ldwin n ws) s = .next (faultedBy s 0x06 .b0 .config n.toNat)) ∧
    (s.eng = .ready → exec (.ldwin n ws) s = .next (faultedBy s 0x06 .b0 .state n.toNat)) ∧
    (s.eng = .faulted → exec (.ldwin n ws) s = .next (refusedIn s))

/-- R188, R50: in UNCONFIGURED with a legal configuration, BUILD sizes the buffers, zeroes the accumulator and its
cursor, caches the reversed vectors, primes the stage inputs with zeros, clears the diagnostic flags and `SHORTFALL`,
enters READY and answers OK. Registers 0 to 10, `HC`, `IC`, `W` and the fault registers keep their values. -/
def Obligations.BuildConstructsTheEngine : Prop :=
  ∀ s : State, s.eng = .unconfigured → ConfigLegal s → CanonicalMemories s →
    ∃ t, exec .build s = .next t ∧ t.eng = .ready ∧
      (∀ b, (t.buf b).cap = s.capMul b * s.maxInCount ∧ (t.buf b).bsi = 0 ∧ (t.buf b).ds = 0) ∧
      t.size .b0 = 0 ∧ t.size .b3 = 0 ∧
      t.size .b1 = (if s.hpEn then s.LH - 1 else s.R - 1) ∧
      t.size .b2 = (if s.hpEn then s.R - 1 else 0) ∧
      (∀ k, k < t.size .b1 → (t.buf .b1).data? k = some s.num.fzero) ∧
      (∀ k, k < t.size .b2 → (t.buf .b2).data? k = some s.num.fzero) ∧
      t.accPos = 0 ∧ (∀ k, k < s.A → t.acc.read k = some s.num.fzero) ∧
      (∀ k, k < s.N → t.ir.read k = s.ic.read (s.N - 1 - k)) ∧
      (s.hpEn = true → ∀ k, k < s.LH → t.hr.read k = s.hc.read (s.LH - 1 - k)) ∧
      t.primed = false ∧ t.oversize = false ∧ t.short = false ∧ t.shortfall = 0 ∧
      t.resp = s.resp ++ [0x00000000] ∧
      { t with
        eng := s.eng, primed := s.primed, oversize := s.oversize, short := s.short, shortfall := s.shortfall,
        accPos := s.accPos, acc := s.acc, hr := s.hr, ir := s.ir, buf0 := s.buf0, buf1 := s.buf1, buf2 := s.buf2,
        buf3 := s.buf3, resp := s.resp } = s

/-- R188, R205, R209: in UNCONFIGURED, BUILD reports the first of its nine checks that fails, with the buffer checks 4
and 9 name, and constructs nothing. -/
def Obligations.BuildReportsTheFirstFailingCheck : Prop :=
  ∀ s : State, s.eng = .unconfigured →
    let bad (b : BufId) (k : Nat) : Prop := exec .build s = .next (faultedBy s 0x07 b .config k)
    let c1 := s.D = 2 ∨ s.D = 3 ∨ s.D = 4
    let c2 := s.maxInCount ≠ 0
    let c3 := s.S ≠ 0
    let c4 (b : BufId) := s.capMul b ≠ 0 ∧ s.capMul b * s.maxInCount ≤ s.params.bufWords
    let c4s := c4 .b0 ∧ c4 .b1 ∧ c4 .b2 ∧ c4 .b3
    let c5 := s.winCount = s.D * s.S
    let c6 := (s.D - 1) * s.S ≤ s.params.accWords
    let c7 := s.N ≠ 0
    let c8 := s.hpEn = true → s.LH ≠ 0
    let c9 := s.hpEn = true → s.LH - 1 ≤ s.capMul .b1 * s.maxInCount
    (¬ c1 → bad .b0 1) ∧
    (c1 → ¬ c2 → bad .b0 2) ∧
    (c1 → c2 → ¬ c3 → bad .b0 3) ∧
    (c1 → c2 → c3 → ¬ c4 .b0 → bad .b0 4) ∧
    (c1 → c2 → c3 → c4 .b0 → ¬ c4 .b1 → bad .b1 4) ∧
    (c1 → c2 → c3 → c4 .b0 → c4 .b1 → ¬ c4 .b2 → bad .b2 4) ∧
    (c1 → c2 → c3 → c4 .b0 → c4 .b1 → c4 .b2 → ¬ c4 .b3 → bad .b3 4) ∧
    (c1 → c2 → c3 → c4s → ¬ c5 → bad .b0 5) ∧
    (c1 → c2 → c3 → c4s → c5 → ¬ c6 → bad .b0 6) ∧
    (c1 → c2 → c3 → c4s → c5 → c6 → ¬ c7 → bad .b0 7) ∧
    (c1 → c2 → c3 → c4s → c5 → c6 → c7 → ¬ c8 → bad .b0 8) ∧
    (c1 → c2 → c3 → c4s → c5 → c6 → c7 → c8 → ¬ c9 → bad .b1 9) ∧
    (c1 → c2 → c3 → c4s → c5 → c6 → c7 → c8 → c9 →
      s.capMul s.intIn * s.maxInCount < s.R - 1 → bad s.intIn 9)

/-! ## Buffer commands -/

/-- R116, R110: EXTEND within the capacity answers with the old size, reserves `n` trailing slots that hold no definite
word, keeps every live sample in order, leaves `start_index` and adds `n` to `end_index`. It compacts only when it would
otherwise run past the physical array end: then the stored start index grows by the old `DS`, and the offsets move down
by it. Beyond the capacity it takes the fault `Overflow` with the buffer and the count, and changes nothing else. -/
def Obligations.ExtendReservesSlots : Prop :=
  ∀ (b : BufId) (n : BitVec 24) (s : State),
    encode (.extend b n) = [0x10#6 ++ b.bits ++ n] ∧
    (s.eng = .ready → (s.buf b).ds ≤ (s.buf b).de → s.size b + n.toNat ≤ (s.buf b).cap →
      ∃ t, exec (.extend b n) s = .next t ∧ t.resp = s.resp ++ [okWord (s.size b)] ∧
        t.size b = s.size b + n.toNat ∧ (t.buf b).cap = (s.buf b).cap ∧ (t.buf b).de ≤ (t.buf b).cap ∧
        (∀ k, k < s.size b → (t.buf b).data? k = (s.buf b).data? k) ∧
        (∀ k, s.size b ≤ k → (t.buf b).data? k = none) ∧
        (t.buf b).startIndex = (s.buf b).startIndex ∧
        (t.buf b).endIndex = (s.buf b).endIndex + BitVec.ofNat 64 n.toNat ∧
        ((s.buf b).de + n.toNat ≤ (s.buf b).cap →
          (t.buf b).ds = (s.buf b).ds ∧ (t.buf b).de = (s.buf b).de + n.toNat ∧ (t.buf b).bsi = (s.buf b).bsi ∧
          ∀ a, a < (s.buf b).de ∨ (s.buf b).de + n.toNat ≤ a → (t.buf b).store.read a = (s.buf b).store.read a) ∧
        ((s.buf b).cap < (s.buf b).de + n.toNat →
          (t.buf b).ds = 0 ∧ (t.buf b).de = s.size b + n.toNat ∧
          (t.buf b).bsi = (s.buf b).bsi + BitVec.ofNat 64 (s.buf b).ds) ∧
        OnlyBuffersDiffer s t ∧ OnlyBufferDiffers b s t ∧ t.draws = s.draws) ∧
    (s.eng = .ready → (s.buf b).cap < s.size b + n.toNat →
      exec (.extend b n) s = .next (faultedBy s 0x10 b .overflow n.toNat))

/-- R117: POKE of a live offset stores the word bit for bit in the slot `DS[b] + off` and leaves every other slot, every
descriptor and everything else. At or beyond the size it takes the fault `Range` with the offset. -/
def Obligations.PokeStoresOneWord : Prop :=
  ∀ (b : BufId) (off : BitVec 24) (v : Word) (s : State),
    encode (.poke b off v) = [0x11#6 ++ b.bits ++ off, v] ∧
    (s.eng = .ready → off.toNat < s.size b →
      ∃ t, exec (.poke b off v) s = .next t ∧ t.resp = s.resp ++ [0x00000000] ∧
        (t.buf b).store.read ((s.buf b).ds + off.toNat) = some v ∧
        (∀ a, a ≠ (s.buf b).ds + off.toNat → (t.buf b).store.read a = (s.buf b).store.read a) ∧
        { t.buf b with store := (s.buf b).store } = s.buf b ∧
        OnlyBuffersDiffer s t ∧ OnlyBufferDiffers b s t ∧ t.draws = s.draws) ∧
    (s.eng = .ready → s.size b ≤ off.toNat → exec (.poke b off v) s = .next (faultedBy s 0x11 b .range off.toNat))

/-- R111, R118, R65: APPEND within the capacity puts the payload words, bit for bit, behind the live samples, which
keep their values and order; the offsets are those EXTEND leaves. Beyond the capacity it takes the fault `Overflow`,
and nothing is stored. -/
def Obligations.AppendStoresThePayload : Prop :=
  ∀ (b : BufId) (n : BitVec 24) (v : List Word) (s : State), v.length = n.toNat →
    encode (.append b n v) = (0x12#6 ++ b.bits ++ n) :: v ∧
    (s.eng = .ready → (s.buf b).ds ≤ (s.buf b).de → s.size b + n.toNat ≤ (s.buf b).cap →
      ∃ t, exec (.append b n v) s = .next t ∧ t.resp = s.resp ++ [0x00000000] ∧
        t.size b = s.size b + n.toNat ∧ (t.buf b).cap = (s.buf b).cap ∧
        (∀ k, k < s.size b → (t.buf b).data? k = (s.buf b).data? k) ∧
        (∀ k, k < n.toNat → (t.buf b).data? (s.size b + k) = v[k]?) ∧
        (∀ u, exec (.extend b n) s = .next u →
          (t.buf b).ds = (u.buf b).ds ∧ (t.buf b).de = (u.buf b).de ∧ (t.buf b).bsi = (u.buf b).bsi) ∧
        (t.buf b).startIndex = (s.buf b).startIndex ∧
        (t.buf b).endIndex = (s.buf b).endIndex + BitVec.ofNat 64 n.toNat ∧
        OnlyBuffersDiffer s t ∧ OnlyBufferDiffers b s t ∧ t.draws = s.draws) ∧
    (s.eng = .ready → (s.buf b).cap < s.size b + n.toNat →
      exec (.append b n v) s = .next (faultedBy s 0x12 b .overflow n.toNat))

/-- R112, R119: APPENDZ within the capacity appends `n` words `fzero`, which is `0x00000000` in the
default arithmetic; the offsets are those EXTEND leaves. Beyond it, it takes the fault `Overflow`, and nothing is
stored. -/
def Obligations.AppendzAppendsZeros : Prop :=
  ∀ (b : BufId) (n : BitVec 24) (s : State),
    encode (.appendz b n) = [0x13#6 ++ b.bits ++ n] ∧ (s.params.arith = .binary32 → s.num.fzero = 0x00000000) ∧
    (s.eng = .ready → (s.buf b).ds ≤ (s.buf b).de → s.size b + n.toNat ≤ (s.buf b).cap →
      ∃ t, exec (.appendz b n) s = .next t ∧ t.resp = s.resp ++ [0x00000000] ∧
        t.size b = s.size b + n.toNat ∧ (t.buf b).cap = (s.buf b).cap ∧
        (∀ k, k < s.size b → (t.buf b).data? k = (s.buf b).data? k) ∧
        (∀ k, k < n.toNat → (t.buf b).data? (s.size b + k) = some s.num.fzero) ∧
        (∀ u, exec (.extend b n) s = .next u →
          (t.buf b).ds = (u.buf b).ds ∧ (t.buf b).de = (u.buf b).de ∧ (t.buf b).bsi = (u.buf b).bsi) ∧
        (t.buf b).startIndex = (s.buf b).startIndex ∧
        (t.buf b).endIndex = (s.buf b).endIndex + BitVec.ofNat 64 n.toNat ∧
        OnlyBuffersDiffer s t ∧ OnlyBufferDiffers b s t ∧ t.draws = s.draws) ∧
    (s.eng = .ready → (s.buf b).cap < s.size b + n.toNat →
      exec (.appendz b n) s = .next (faultedBy s 0x13 b .overflow n.toNat))

/-- R113, R120: DISCARD of at most the live samples advances `DS[b]` by `n` and touches nothing else: not `BSI[b]`,
`DE[b]` or the store. Of more it takes the fault `Underflow` with the count. -/
def Obligations.DiscardAdvancesTheStart : Prop :=
  ∀ (b : BufId) (n : BitVec 24) (s : State),
    encode (.discard b n) = [0x14#6 ++ b.bits ++ n] ∧
    (s.eng = .ready → n.toNat ≤ s.size b →
      ∃ t, exec (.discard b n) s = .next t ∧ t.resp = s.resp ++ [0x00000000] ∧
        t.buf b = { s.buf b with ds := (s.buf b).ds + n.toNat } ∧
        t.size b = s.size b - n.toNat ∧ (∀ k, (t.buf b).data? k = (s.buf b).data? (n.toNat + k)) ∧
        (t.buf b).startIndex = (s.buf b).startIndex + BitVec.ofNat 64 n.toNat ∧
        (t.buf b).endIndex = (s.buf b).endIndex ∧
        OnlyBuffersDiffer s t ∧ OnlyBufferDiffers b s t ∧ t.draws = s.draws) ∧
    (s.eng = .ready → s.size b < n.toNat → exec (.discard b n) s = .next (faultedBy s 0x14 b .underflow n.toNat))

/-- R121, R123, R124, R26: SIZE, STARTIDX and ENDIDX answer with `DE − DS`, `BSI + DS` and `BSI + DE` (64 bits, low
word first) and change nothing. -/
def Obligations.QueriesAnswerAndChangeNothing : Prop :=
  ∀ (b : BufId) (s : State), encode (.size b) = [0x15#6 ++ b.bits ++ 0#24] ∧
    encode (.startidx b) = [0x17#6 ++ b.bits ++ 0#24] ∧ encode (.endidx b) = [0x18#6 ++ b.bits ++ 0#24] ∧
    (s.eng = .ready → s.size b < 2 ^ 24 → ∃ sw : Word, sw.toNat = (s.buf b).de - (s.buf b).ds ∧
      exec (.size b) s = .next { s with resp := s.resp ++ [sw] }) ∧
    (s.eng = .ready → ∃ lo hi : Word, hi ++ lo = (s.buf b).bsi + BitVec.ofNat 64 (s.buf b).ds ∧
      exec (.startidx b) s = .next { s with resp := s.resp ++ [0x00000000, lo, hi] }) ∧
    (s.eng = .ready → ∃ lo hi : Word, hi ++ lo = (s.buf b).bsi + BitVec.ofNat 64 (s.buf b).de ∧
      exec (.endidx b) s = .next { s with resp := s.resp ++ [0x00000000, lo, hi] })

/-- R122, R25, R64: PEEK of a live offset answers OK with one word: the stored word where the slot has been written, and
then nothing changes; a word of which this says nothing where it was only reserved, and then no state of the engine
changes. At or beyond the size it takes the fault `Range` with the offset. -/
def Obligations.PeekAnswersTheSample : Prop :=
  ∀ (b : BufId) (off : BitVec 24) (s : State),
    encode (.peek b off) = [0x16#6 ++ b.bits ++ off] ∧
    (s.eng = .ready → off.toNat < s.size b → ∀ w, (s.buf b).store.read ((s.buf b).ds + off.toNat) = some w →
      exec (.peek b off) s = .next { s with resp := s.resp ++ [0x00000000, w] }) ∧
    (s.eng = .ready → off.toNat < s.size b → (s.buf b).store.read ((s.buf b).ds + off.toNat) = none →
      ∃ (t : State) (w : Word), exec (.peek b off) s = .next t ∧ t.resp = s.resp ++ [0x00000000, w] ∧
        { t with resp := s.resp, draws := s.draws } = s) ∧
    (s.eng = .ready → s.size b ≤ off.toNat → exec (.peek b off) s = .next (faultedBy s 0x16 b .range off.toNat))

/-- R115, R26: the accounting law. Over a sequence of buffer commands and queries that all answer OK, with `e` the sum
of the counts appended to or reserved in a buffer and `g` the sum of the counts discarded from it, the size is the old
size plus `e` minus `g`, `start_index` has grown by `g` and `end_index` by `e`. -/
def Obligations.AccountingLaw : Prop :=
  ∀ (cmds : List Instr) (b : BufId) (s t : State), (∀ b, (s.buf b).ds ≤ (s.buf b).de) → s.eng = .ready →
    (∀ i ∈ cmds, isBufferCommand i = true) → runsTo cmds s t → t.eng = .ready →
    t.size b + (cmds.map (discardedFrom b)).sum = s.size b + (cmds.map (appendedTo b)).sum ∧
    (t.buf b).startIndex = (s.buf b).startIndex + BitVec.ofNat 64 (cmds.map (discardedFrom b)).sum ∧
    (t.buf b).endIndex = (s.buf b).endIndex + BitVec.ofNat 64 (cmds.map (appendedTo b)).sum

/-! ## The stages -/

/-- R141: FIRRUN writes `m = size(1) − LH + 1` samples behind those of buffer 2 and discards `m` samples of buffer 1:
the start index of the one grows by `m`, the end index of the other, and both capacities stay. A sample whose inputs
`x` and reversed taps `h` are written is the inner product, in ascending order of `dot`, of `LH` consecutive samples
with the reversed coefficients. `d` stands for the draws of NaN results, of which nothing is said. With less input
than its history it takes `History`, without room for its output `Overflow`, and outside READY or without the highpass
`State`; each changes nothing else. -/
def Obligations.FirrunWritesTheInnerProducts : Prop :=
  encode .firrun = [0x80000000] ∧
  (∀ s : State, s.eng = .ready → s.hpEn = true → 1 ≤ s.LH → s.LH - 1 ≤ s.size .b1 →
    s.buf1.ds ≤ s.buf1.de → s.buf2.ds ≤ s.buf2.de → s.size .b2 + (s.size .b1 + 1 - s.LH) ≤ s.buf2.cap →
    ∃ t, exec .firrun s = .next t ∧ t.resp = s.resp ++ [okWord (s.size .b1 + 1 - s.LH)] ∧
      Discarded (s.size .b1 + 1 - s.LH) s.buf1 t.buf1 ∧ Extended (s.size .b1 + 1 - s.LH) s.buf2 t.buf2 ∧
      t.size .b1 = s.LH - 1 ∧ (∀ k, t.buf1.data? k = s.buf1.data? (s.size .b1 + 1 - s.LH + k)) ∧
      t.size .b2 = s.size .b2 + (s.size .b1 + 1 - s.LH) ∧
      (∀ k, k < s.size .b2 → t.buf2.data? k = s.buf2.data? k) ∧
      (∀ (x h : Nat → Word) (i : Nat), i < s.size .b1 + 1 - s.LH →
        (∀ k, k < s.LH → s.buf1.data? (i + k) = some (x (i + k)) ∧ s.hr.read k = some (h k)) →
        ∃ d, t.buf2.data? (s.size .b2 + i) =
          some (dot s.num d s.LH (fun k _ => x (i + k)) (fun k _ => h k))) ∧
      t.buf0 = s.buf0 ∧ t.buf3 = s.buf3 ∧ OnlyBuffersDiffer s t) ∧
  (∀ s : State, s.eng = .ready → s.hpEn = true → 1 ≤ s.LH →
    (s.size .b1 < s.LH - 1 → exec .firrun s = .next (faultedBy s 0x20 .b1 .history (s.size .b1))) ∧
    (s.LH - 1 ≤ s.size .b1 → s.buf2.cap < s.size .b2 + (s.size .b1 + 1 - s.LH) →
      exec .firrun s = .next (faultedBy s 0x20 .b2 .overflow (s.size .b1 + 1 - s.LH)))) ∧
  (∀ s : State, s.eng = .unconfigured ∨ (s.eng = .ready ∧ s.hpEn = false) →
    exec .firrun s = .next (faultedBy s 0x20 .b0 .state 0)) ∧
  (∀ s : State, s.eng = .faulted → exec .firrun s = .next (refusedIn s))

/-- R142 (b), in an arithmetic where 0 and 1 are exact: a unit impulse behind `LH − 1` zeros and before `LH − 1` zeros
gives back the coefficients `c`, sample for sample. -/
def Obligations.FirImpulseResponseIsTheCoefficients : Prop :=
  ∀ (num : Numerics) (one : Word) (s : State) (c : Nat → Word),
    (∀ d v, num.fmul d one v = v) → (∀ d v, num.fmul d num.fzero v = num.fzero) →
    (∀ d v, num.fadd d num.fzero v = v) → (∀ d v, num.fadd d v num.fzero = v) →
    1 ≤ s.LH → (∀ k, k < s.LH → s.hr.read k = some (c (s.LH - 1 - k))) →
    (∀ j, j < 2 * s.LH - 1 → s.buf1.data? j = some (if j = s.LH - 1 then one else num.fzero)) →
    ∀ i, i < s.LH → firOut num s i = c i

/-- R151: INTRUN writes `m × L` samples behind those of buffer 3, with `m = size − R + 1` records, and discards `m`
input samples, the logical indices moving by these counts. For each record and each phase `j < L`, the sample whose
inputs `x` and reversed taps `g` are written is the inner product of every `L`-th tap from `j` on with the record
walked backward from its last sample. With less input than its history it takes `History`, without room for its output
`Overflow`, and before BUILD `State`; each changes nothing else. -/
def Obligations.IntrunWritesThePhases : Prop :=
  encode .intrun = [0x84000000] ∧
  (∀ s : State, s.eng = .ready → 1 ≤ s.D → 1 ≤ s.N → s.R - 1 ≤ s.size s.intIn →
    (s.buf s.intIn).ds ≤ (s.buf s.intIn).de → s.buf3.ds ≤ s.buf3.de →
    s.size .b3 + (s.size s.intIn + 1 - s.R) * s.D ≤ s.buf3.cap →
    ∃ t, exec .intrun s = .next t ∧ t.resp = s.resp ++ [okWord ((s.size s.intIn + 1 - s.R) * s.D)] ∧
      Discarded (s.size s.intIn + 1 - s.R) (s.buf s.intIn) (t.buf s.intIn) ∧
      Extended ((s.size s.intIn + 1 - s.R) * s.D) s.buf3 t.buf3 ∧
      t.size s.intIn = s.R - 1 ∧
      (∀ k, (t.buf s.intIn).data? k = (s.buf s.intIn).data? (s.size s.intIn + 1 - s.R + k)) ∧
      t.size .b3 = s.size .b3 + (s.size s.intIn + 1 - s.R) * s.D ∧
      (∀ k, k < s.size .b3 → t.buf3.data? k = s.buf3.data? k) ∧
      (∀ (x g : Nat → Word) (r j : Nat), r < s.size s.intIn + 1 - s.R → j < s.D →
        (∀ k, k < s.R → (s.buf s.intIn).data? (r + k) = some (x (r + k))) →
        (∀ k, k < s.N → s.ir.read k = some (g k)) →
        ∃ d, t.buf3.data? (s.size .b3 + (r * s.D + j)) =
          some (dot s.num d (if s.N ≤ j then 0 else (s.N - 1 - j) / s.D + 1)
            (fun q _ => x (r + s.R - 1 - q)) (fun q _ => g (j + q * s.D)))) ∧
      (∀ b, b ≠ s.intIn → b ≠ .b3 → t.buf b = s.buf b) ∧ OnlyBuffersDiffer s t) ∧
  (∀ s : State, s.eng = .ready →
    (s.size s.intIn < s.R - 1 → exec .intrun s = .next (faultedBy s 0x21 s.intIn .history (s.size s.intIn))) ∧
    (s.R - 1 ≤ s.size s.intIn → s.buf3.cap < s.size .b3 + (s.size s.intIn + 1 - s.R) * s.D →
      exec .intrun s = .next (faultedBy s 0x21 .b3 .overflow ((s.size s.intIn + 1 - s.R) * s.D)))) ∧
  (∀ s : State, s.eng = .unconfigured → exec .intrun s = .next (faultedBy s 0x21 .b0 .state 0)) ∧
  (∀ s : State, s.eng = .faulted → exec .intrun s = .next (refusedIn s))

/-- R161: OLARUN runs `wc = floor(size(0) / WS)` windows in order, writes `wc × S` samples behind those of buffer 1,
discards `wc × WS` samples of buffer 0, the logical indices moving by these counts, and moves the cursor on by `S`
modulo `A` for each window. With written samples `x`, a window `w` and a live accumulator, where `H n` is the
accumulator before window `n`: each window emits its first segment's products added to the accumulator, adds the
internal segments' products into it, and overwrites it with the final segment's. `d` and `d'` stand for the draws of
NaN results. Without room for its output it takes `Overflow`, and before BUILD `State`; each changes nothing else. -/
def Obligations.OlarunRunsTheWindows : Prop :=
  encode .olarun = [0x88000000] ∧
  (∀ s : State, s.eng = .ready → 2 ≤ s.D → 1 ≤ s.S → s.accPos < s.A →
    s.buf0.ds ≤ s.buf0.de → s.buf1.ds ≤ s.buf1.de →
    s.size .b1 + s.size .b0 / s.WS * s.S ≤ s.buf1.cap →
    ∃ t : State, exec .olarun s = .next t ∧
      t.resp = s.resp ++ [okWord (s.size .b0 / s.WS * s.S)] ∧
      (∀ a, s.A ≤ a → t.acc.read a = s.acc.read a) ∧
      t.accPos = (s.accPos + s.size .b0 / s.WS * s.S) % s.A ∧
      Discarded (s.size .b0 / s.WS * s.WS) s.buf0 t.buf0 ∧ Extended (s.size .b0 / s.WS * s.S) s.buf1 t.buf1 ∧
      t.size .b1 = s.size .b1 + s.size .b0 / s.WS * s.S ∧
      (∀ k, k < s.size .b1 → t.buf1.data? k = s.buf1.data? k) ∧
      t.size .b0 = s.size .b0 % s.WS ∧
      (∀ k, t.buf0.data? k = s.buf0.data? (s.size .b0 / s.WS * s.WS + k)) ∧
      t.buf2 = s.buf2 ∧ t.buf3 = s.buf3 ∧ OnlyBuffersAndAccDiffer s t ∧
      ∀ x w : Nat → Word, (∀ j, j < s.size .b0 → s.buf0.data? j = some (x j)) →
        (∀ k, k < s.WS → s.win.read k = some (w k)) → (∀ k, k < s.A → (s.acc.read k).isSome) →
        ∃ H : Nat → Nat → Word,
          (∀ a, a < s.A → s.acc.read a = some (H 0 a) ∧ t.acc.read a = some (H (s.size .b0 / s.WS) a)) ∧
          (∀ n, n < s.size .b0 / s.WS →
            (∀ i, i < s.S → ∃ d d', t.buf1.data? (s.size .b1 + (n * s.S + i)) =
              some (s.num.fadd d (s.num.fmul d' (x (n * s.WS + i)) (w i))
                (H n ((s.accPos + n * s.S + i) % s.A)))) ∧
            (∀ k, s.S ≤ k → k < (s.D - 1) * s.S → ∃ d d', H (n + 1) ((s.accPos + n * s.S + k) % s.A) =
              s.num.fadd d (H n ((s.accPos + n * s.S + k) % s.A)) (s.num.fmul d' (x (n * s.WS + k)) (w k))) ∧
            (∀ k, (s.D - 1) * s.S ≤ k → k < s.D * s.S → ∃ d, H (n + 1) ((s.accPos + n * s.S + k) % s.A) =
              s.num.fmul d (x (n * s.WS + k)) (w k)))) ∧
  (∀ s : State, s.eng = .ready → s.buf1.cap < s.size .b1 + s.size .b0 / s.WS * s.S →
    exec .olarun s = .next (faultedBy s 0x22 .b1 .overflow (s.size .b0 / s.WS * s.S))) ∧
  (∀ s : State, s.eng = .unconfigured → exec .olarun s = .next (faultedBy s 0x22 .b0 .state 0)) ∧
  (∀ s : State, s.eng = .faulted → exec .olarun s = .next (refusedIn s))

/-- R163, in an exact arithmetic (addition associative and commutative with `fzero` neutral, no draws): from the zero
accumulator of BUILD, sample `i` of window `n` is the sum over the last `min(n, D − 1) + 1` windows of the products of
their segments with the window. -/
def Obligations.OverlapAddClosedForm : Prop :=
  ∀ (num : Numerics) (s : State) (x w : Nat → Word) (wc : Nat),
    (∀ d d' a b, num.fadd d a b = num.fadd d' a b) → (∀ d d' a b, num.fmul d a b = num.fmul d' a b) →
    (∀ d a b, num.fadd d a b = num.fadd d b a) →
    (∀ d a b c, num.fadd d (num.fadd d a b) c = num.fadd d a (num.fadd d b c)) →
    (∀ d a, num.fadd d num.fzero a = a) →
    2 ≤ s.D → 1 ≤ s.S → s.accPos = 0 → (∀ k, k < s.A → s.acc.read k = some num.fzero) →
    (∀ j, j < wc * s.WS → s.buf0.data? j = some (x j)) → (∀ k, k < s.WS → s.win.read k = some (w k)) →
    ∀ n i, n < wc → i < s.S →
      (olaWindows num s { acc := s.acc, pos := s.accPos } wc).1[n * s.S + i]? =
        some ((List.range (min n (s.D - 1) + 1)).foldl
          (fun a q => num.fadd 0 a (num.fmul 0 (x ((n - q) * s.WS + (q * s.S + i))) (w (q * s.S + i)))) num.fzero)

/-! ## The chain -/

/-- R171: PRIME within the capacity appends `n` words `fzero` to buffer 0 and sets `PRIMED`. Beyond the capacity it
takes the fault `Overflow` and leaves `PRIMED`; in UNCONFIGURED it takes the fault `State`. -/
def Obligations.PrimeAppendsZeros : Prop :=
  ∀ (n : BitVec 24) (s : State), encode (.prime n) = [0x30#6 ++ 0#2 ++ n] ∧
    (s.eng = .ready → s.buf0.ds ≤ s.buf0.de → s.size .b0 + n.toNat ≤ s.buf0.cap →
      ∃ t, exec (.prime n) s = .next t ∧ t.resp = s.resp ++ [0x00000000] ∧ t.primed = true ∧
        t.size .b0 = s.size .b0 + n.toNat ∧ Extended n.toNat s.buf0 t.buf0 ∧
        (∀ k, k < s.size .b0 → t.buf0.data? k = s.buf0.data? k) ∧
        (∀ k, k < n.toNat → t.buf0.data? (s.size .b0 + k) = some s.num.fzero) ∧
        t.buf1 = s.buf1 ∧ t.buf2 = s.buf2 ∧ t.buf3 = s.buf3 ∧
        { t with buf0 := s.buf0, primed := s.primed, resp := s.resp } = s) ∧
    (s.eng = .ready → s.buf0.cap < s.size .b0 + n.toNat →
      exec (.prime n) s = .next (faultedBy s 0x30 .b0 .overflow n.toNat)) ∧
    (s.eng = .unconfigured → exec (.prime n) s = .next (faultedBy s 0x30 .b0 .state 0)) ∧
    (s.eng = .faulted → exec (.prime n) s = .next (refusedIn s))

/-- R172 step 1, R218: PROCESS of more than `MAX_IN` samples answers `RESULT` 0 with that many words `fzero`, sets
`OVERSIZE` and changes nothing else: no buffer, no accumulator, no cursor. -/
def Obligations.OversizeProcessIsSilence : Prop :=
  ∀ (n : BitVec 24) (x : List Word) (s : State), s.eng = .ready → s.maxInCount < n.toNat →
    exec (.process n x) s =
      .next { s with resp := s.resp ++ 0x00000000 :: List.replicate n.toNat s.num.fzero, oversize := true }

/-- R172, R170: PROCESS of at most `MAX_IN` samples does what APPEND to buffer 0, OLARUN, FIRRUN when `HP_EN = 1`, and
INTRUN do in this order, and then answers with the first `k = min(n, size)` samples of buffer 3 and `fzero` up to `n`,
discards the `k`, and sets `SHORT` and `SHORTFALL` when `k < n`. Of a delivered slot that nothing has written, no word
is said. -/
def Obligations.ProcessRunsItsStages : Prop :=
  ∀ (n : BitVec 24) (x : List Word) (s s1 s2 s3 s4 : State), s.eng = .ready → n.toNat ≤ s.maxInCount →
    exec (.append .b0 n x) s = .next s1 → s1.eng = .ready → exec .olarun s1 = .next s2 → s2.eng = .ready →
    (if s2.hpEn then exec .firrun s2 = .next s3 else s3 = s2) → s3.eng = .ready →
    exec .intrun s3 = .next s4 → s4.eng = .ready →
    ∃ (t : State) (y : List Word), exec (.process n x) s = .next t ∧ y.length = min n.toNat (s4.size .b3) ∧
      (∀ i w, i < y.length → s4.buf3.data? i = some w → y[i]? = some w) ∧
      t.resp = s.resp ++ okWord y.length :: (y ++ List.replicate (n.toNat - y.length) s.num.fzero) ∧
      t.buf3 = { s4.buf3 with ds := s4.buf3.ds + y.length } ∧
      (y.length < n.toNat → t.short = true ∧ t.shortfall.toNat = n.toNat - y.length) ∧
      (y.length = n.toNat → t.short = s4.short ∧ t.shortfall = s4.shortfall) ∧
      { t with resp := s4.resp, buf3 := s4.buf3, short := s4.short, shortfall := s4.shortfall, draws := s4.draws } = s4

/-- R172, R210: a fault of the append or of a stage ends PROCESS there: everything done before it stays done, and the
fault is that of the stage, reported with the opcode of PROCESS. -/
def Obligations.ProcessEndsAtTheFaultingStage : Prop :=
  ∀ (n : BitVec 24) (x : List Word) (s s1 s2 s3 s4 t : State), s.eng = .ready → n.toNat ≤ s.maxInCount →
    exec (.process n x) s = .next t → exec (.append .b0 n x) s = .next s1 →
    (s1.eng = .faulted → FaultedAs s s s1 t) ∧
    (s1.eng = .ready → exec .olarun s1 = .next s2 →
      (s2.eng = .faulted → FaultedAs s s1 s2 t) ∧
      (s2.eng = .ready → (if s2.hpEn then exec .firrun s2 = .next s3 else s3 = s2) →
        (s3.eng = .faulted → FaultedAs s s2 s3 t) ∧
        (s3.eng = .ready → exec .intrun s3 = .next s4 → s4.eng = .faulted → FaultedAs s s3 s4 t)))

/-- R233, R172: while streaming, with the capacities of R233, no PROCESS within `MAX_IN` faults: it answers OK with
`n` data words of which those from `RESULT = k` on are `fzero`, and the premises on the state hold again after it. -/
def Obligations.ProcessWithRoomCompletes : Prop :=
  ∀ (n : BitVec 24) (x : List Word) (s : State) (z : Nat), s.eng = .ready → SoundBuffers s → ReadySound s →
    x.length = n.toNat → n.toNat ≤ s.maxInCount → HistoriesFull s → s.size .b0 + s.size .b3 ≤ z → s.WS - 1 ≤ z →
    CapacitiesSuffice s z →
    ∃ (t : State) (k : Nat) (out : List Word), exec (.process n x) s = .next t ∧ t.eng = .ready ∧ k ≤ n.toNat ∧
      t.resp = s.resp ++ okWord k :: out ∧ out.length = n.toNat ∧
      (∀ j, k ≤ j → j < n.toNat → out[j]? = some s.num.fzero) ∧
      SoundBuffers t ∧ ReadySound t ∧ HistoriesFull t ∧ t.size .b0 + t.size .b3 ≤ z ∧ CapacitiesSuffice t z ∧
      SameConfiguration s t ∧ (k < n.toNat → t.short = true ∧ t.shortfall.toNat = n.toNat - k) ∧
      (k = n.toNat → t.short = s.short ∧ t.shortfall = s.shortfall) ∧
      t.primed = s.primed ∧ t.oversize = s.oversize

/-- R173: with at least `WS − 1` samples in the chain, a PROCESS within `MAX_IN` that takes no fault is never short:
it answers `RESULT = n`, leaves `SHORT` and `SHORTFALL`, and leaves the same number of samples in the chain. -/
def Obligations.PrimedChainIsNeverShort : Prop :=
  ∀ (n : BitVec 24) (x : List Word) (s t : State) (z : Nat), s.eng = .ready → SoundBuffers s → ReadySound s →
    n.toNat ≤ s.maxInCount → HistoriesFull s → InChain s z → s.WS - 1 ≤ z →
    exec (.process n x) s = .next t → t.eng = .ready →
    (∃ out, out.length = n.toNat ∧ t.resp = s.resp ++ okWord n.toNat :: out) ∧
      t.short = s.short ∧ t.shortfall = s.shortfall ∧ HistoriesFull t ∧ InChain t z

/-! ## Invariants that every step keeps -/

/-- Every step keeps every memory in canonical form. -/
def Obligations.StepKeepsMemoriesCanonical : Prop :=
  ∀ s t : State, CanonicalMemories s → step s = .next t → CanonicalMemories t

/-- R23, R115: every step keeps `0 ≤ DS ≤ DE ≤ CAP ≤ BUF_WORDS` in every buffer, with every written slot below `CAP`. -/
def Obligations.StepKeepsBuffersSound : Prop :=
  ∀ s t : State, SoundBuffers s → step s = .next t → SoundBuffers t

/-- R29 to R36, R40: every step keeps the reserved bits of the registers 0. -/
def Obligations.StepKeepsReservedBitsZero : Prop :=
  ∀ s t : State, ReservedBitsZero s → step s = .next t → ReservedBitsZero t

/-- R38, R39, R211: every step keeps the fault latch sound: 0 until a fault, then one of the seven causes. -/
def Obligations.StepKeepsTheFaultLatch : Prop :=
  ∀ s t : State, FaultLatch s → step s = .next t → FaultLatch t

/-- R22, R45, R162, R184: every step keeps what READY means: a legal configuration, the capacities it gives, and a
cursor that is a multiple of `S` below `A` over a defined accumulator. -/
def Obligations.StepKeepsReadySound : Prop :=
  ∀ s t : State, ReadySound s → step s = .next t → ReadySound t

/-- R42, R43, R47: every step keeps the tables defined below their lengths and the caches the reversed vectors. -/
def Obligations.StepKeepsTablesSound : Prop :=
  ∀ s t : State, CanonicalMemories s → LengthsFit s → TablesSound s → step s = .next t →
    TablesSound t ∧ LengthsFit t

/-- R42 to R45: every step keeps the words of each RAM within its physical size. -/
def Obligations.StepKeepsRamBounds : Prop :=
  ∀ s t : State, WithinRams s → LengthsFit s → ReadySound s → step s = .next t → WithinRams t

/-- R10, R12, R22, R23, R45: no step changes the parameters, and with sizes within the constraints of R10 every step
keeps the capacities, the offsets and the cursor within 24 bits. -/
def Obligations.StepKeepsCountsIn24Bits : Prop :=
  ∀ s t : State, step s = .next t → t.params = s.params ∧
    (CountsFit s → SoundBuffers s → ReadySound s → CountsFit t)

/-- R37, R40, R45, R49: every step keeps the flags, `SHORTFALL` and the cursor 0 until BUILD. -/
def Obligations.StepKeepsIdleBeforeBuild : Prop :=
  ∀ s t : State, IdleBeforeBuild s → step s = .next t → IdleBeforeBuild t

/-- R49: the reset state meets every invariant. -/
def Obligations.ResetMeetsTheInvariants : Prop :=
  CanonicalMemories State.reset ∧ SoundBuffers State.reset ∧ ReservedBitsZero State.reset ∧ FaultLatch State.reset ∧
  ReadySound State.reset ∧ TablesSound State.reset ∧ LengthsFit State.reset ∧ WithinRams State.reset ∧
  IdleBeforeBuild State.reset ∧ CountsFit State.reset

/-! ## The arithmetic -/

/-- R17: in every arithmetic `dot` of no terms is `fzero`, and of `n + 1` terms the sum of `dot` of the first `n` and of
the product at `n`, in this operand order. `d1` to `d4` stand for the draws (of a NaN sum, of a NaN product, and of an
operand that is unspecified), of which nothing is said. -/
def Obligations.DotAddsInAscendingOrder : Prop :=
  ∀ (num : Numerics) (d : Nat) (a c : Nat → Nat → Word), dot num d 0 a c = num.fzero ∧
    ∀ n, ∃ d1 d2 d3 d4, dot num d (n + 1) a c = num.fadd d1 (dot num d n a c) (num.fmul d2 (a n d3) (c n d4))

/-- R16, R161: in the default `Numerics` addition does not depend on operand order (given the same
draw for a NaN result), and a NaN operand gives a quiet NaN from addition and multiplication alike. -/
def Obligations.DefaultArithmeticOnNaNAndOrder : Prop :=
  (∀ d (x y : Word), numerics.fadd d x y = numerics.fadd d y x) ∧
  (∀ d (x y : Word), x.extractLsb' 23 8 = 0xFF#8 → x.extractLsb' 0 23 ≠ 0 →
    (numerics.fadd d x y).extractLsb' 22 9 = 0x1FF#9 ∧ (numerics.fmul d x y).extractLsb' 22 9 = 0x1FF#9 ∧
    (numerics.fmul d y x).extractLsb' 22 9 = 0x1FF#9)

/-- R142 (b): in the default `Numerics` adding a finite `v` to `+0.0` gives `v`, but `+0.0` for `−0.0`; and 1.0 times a
finite `v` is `v`. -/
def Obligations.DefaultArithmeticIdentities : Prop :=
  ∀ d (v : Word), v.extractLsb' 23 8 ≠ 0xFF#8 →
    numerics.fadd d 0x00000000 v = (if v = 0x80000000 then 0x00000000 else v) ∧ numerics.fmul d 0x3F800000 v = v
end

