-- ==== Sys2Proof/Laws/Memory.lean ====
section
/-! SUPPORT. What a memory operation does to a read, that every operation keeps the canonical form, and where the cells
of its result lie. -/

namespace Sys2Proof.Machine

/-! ## Reads -/

@[simp] theorem Memory.read_nil (i : Nat) : Memory.read [] i = none := rfl

theorem Memory.read_cons (a : Nat) (w : Word) (m : Memory) (i : Nat) :
    Memory.read ((a, w) :: m) i = if a = i then some w else Memory.read m i := rfl

theorem Memory.read_append (m m' : Memory) (i : Nat) :
    Memory.read (m ++ m') i = (Memory.read m i).or (Memory.read m' i) := by
  induction m with
  | nil => simp
  | cons c m ih =>
    obtain ⟨a, w⟩ := c
    rw [List.cons_append, Memory.read_cons, Memory.read_cons, ih]
    split <;> simp

theorem Memory.read_filter (m : Memory) (p : Nat → Bool) (i : Nat) :
    Memory.read (List.filter (fun c => p c.1) m) i = if p i then Memory.read m i else none := by
  induction m with
  | nil => simp
  | cons c m ih =>
    obtain ⟨a, w⟩ := c
    rw [List.filter_cons, Memory.read_cons]
    by_cases h : a = i
    · subst h
      by_cases hp : p a
      · simp [hp, Memory.read_cons]
      · simp [hp] at ih ⊢
        exact ih
    · by_cases hp : p a <;> simp [hp, Memory.read_cons, h, ih]

@[simp] theorem Memory.read_below (m : Memory) (k i : Nat) :
    (m.below k).read i = if i < k then m.read i else none := by
  simpa [Memory.below] using Memory.read_filter m (fun a => decide (a < k)) i

@[simp] theorem Memory.read_above (m : Memory) (k i : Nat) :
    (m.above k).read i = if k ≤ i then m.read i else none := by
  simpa [Memory.above] using Memory.read_filter m (fun a => decide (k ≤ a)) i

theorem Memory.read_cells (base : Nat) (ws : List Word) (i : Nat) :
    (Memory.cells base ws).read i = if base ≤ i then ws[i - base]? else none := by
  induction ws generalizing base with
  | nil => simp [Memory.cells]
  | cons w ws ih =>
    rw [Memory.cells, Memory.read_cons, ih]
    rcases Nat.lt_trichotomy base i with h | h | h
    · obtain ⟨j, rfl⟩ : ∃ j, i = base + (j + 1) := ⟨i - base - 1, by omega⟩
      have h1 : base + (j + 1) - (base + 1) = j := by omega
      have h2 : base + (j + 1) - base = j + 1 := by omega
      rw [if_neg (by omega), if_pos (by omega), if_pos (by omega), h1, h2, List.getElem?_cons_succ]
    · subst h
      simp
    · rw [if_neg (by omega), if_neg (by omega), if_neg (by omega)]

/-- Reading after a fill: the words written, and everything else as before. -/
theorem Memory.read_fill (m : Memory) (base : Nat) (ws : List Word) (i : Nat) :
    (m.fill base ws).read i = if base ≤ i ∧ i < base + ws.length then ws[i - base]? else m.read i := by
  rw [Memory.fill, Memory.read_append, Memory.read_append, Memory.read_below, Memory.read_above, Memory.read_cells]
  by_cases h1 : i < base
  · rw [if_pos h1, if_neg (by omega), if_neg (by omega), if_neg (by omega)]
    simp
  · by_cases h2 : i < base + ws.length
    · rw [if_neg h1, if_pos (by omega), if_neg (by omega), if_pos ⟨by omega, h2⟩]
      simp
    · rw [if_neg h1, if_pos (by omega), if_pos (by omega), if_neg (by omega),
        List.getElem?_eq_none (by omega)]
      simp

@[simp] theorem Memory.read_write (m : Memory) (a : Nat) (w : Word) (i : Nat) :
    (m.write a w).read i = if i = a then some w else m.read i := by
  rw [Memory.write, Memory.read_fill]
  by_cases h : i = a
  · subst h; simp
  · rw [if_neg h, if_neg (by simp; omega)]

/-- Reading after words became unspecified. -/
theorem Memory.read_forget (m : Memory) (base n i : Nat) :
    (m.forget base n).read i = if base ≤ i ∧ i < base + n then none else m.read i := by
  rw [Memory.forget, Memory.read_append, Memory.read_below, Memory.read_above]
  by_cases h1 : i < base
  · rw [if_pos h1, if_neg (by omega), if_neg (by omega)]; simp
  · by_cases h2 : i < base + n
    · rw [if_neg h1, if_neg (by omega), if_pos ⟨by omega, h2⟩]; simp
    · rw [if_neg h1, if_pos (by omega), if_neg (by omega)]; simp

theorem Memory.read_map_sub (m : Memory) (lo i : Nat) (h : ∀ c ∈ m, lo ≤ c.1) :
    Memory.read (m.map fun c => (c.1 - lo, c.2)) i = m.read (lo + i) := by
  induction m with
  | nil => rfl
  | cons c m ih =>
    obtain ⟨a, w⟩ := c
    have ha : lo ≤ a := h _ (List.mem_cons_self ..)
    rw [List.map_cons, Memory.read_cons, Memory.read_cons, ih fun c hc => h c (List.mem_cons_of_mem _ hc)]
    by_cases e : a = lo + i
    · rw [if_pos e, if_pos (by simp; omega)]
    · rw [if_neg e, if_neg (by simp; omega)]

/-- Reading after a compaction of the words `lo .. hi-1`. -/
theorem Memory.read_shiftDown (m : Memory) (lo hi i : Nat) :
    (m.shiftDown lo hi).read i = if i < hi - lo then m.read (lo + i) else none := by
  rw [Memory.shiftDown, Memory.read_map_sub, Memory.read_below, Memory.read_above]
  · by_cases h : i < hi - lo
    · rw [if_pos h, if_pos (by omega), if_pos (by omega)]
    · rw [if_neg h, if_neg (by omega)]
  · intro c hc
    simp only [Memory.below, Memory.above, List.mem_filter, decide_eq_true_eq] at hc
    exact hc.1.2

/-! ## Where the cells lie -/

/-- Every listed index is below `n`. -/
abbrev Memory.within (m : Memory) (n : Nat) : Prop := ∀ c ∈ m, c.1 < n

theorem Memory.within_below (m : Memory) (k : Nat) : (m.below k).within k := by
  intro c hc
  simpa [Memory.below] using (List.mem_filter.mp hc).2

theorem Memory.mem_of_mem_below {m : Memory} {k : Nat} {c : Nat × Word} (h : c ∈ m.below k) : c ∈ m :=
  (List.mem_filter.mp h).1

theorem Memory.mem_of_mem_above {m : Memory} {k : Nat} {c : Nat × Word} (h : c ∈ m.above k) : c ∈ m :=
  (List.mem_filter.mp h).1

theorem Memory.le_of_mem_above {m : Memory} {k : Nat} {c : Nat × Word} (h : c ∈ m.above k) : k ≤ c.1 := by
  simpa using (List.mem_filter.mp h).2

theorem Memory.mem_cells {base : Nat} {ws : List Word} {c : Nat × Word} (h : c ∈ Memory.cells base ws) :
    base ≤ c.1 ∧ c.1 < base + ws.length := by
  induction ws generalizing base with
  | nil => simp [Memory.cells] at h
  | cons w ws ih =>
    rw [Memory.cells, List.mem_cons] at h
    rcases h with rfl | h
    · simp
    · have := ih h
      simp; omega

theorem Memory.within_fill {m : Memory} {base n : Nat} {ws : List Word} (h : m.within n)
    (hw : base + ws.length ≤ n ∨ ws = []) : (m.fill base ws).within n := by
  intro c hc
  rw [Memory.fill, List.mem_append, List.mem_append] at hc
  rcases hc with (hc | hc) | hc
  · exact h c (Memory.mem_of_mem_below hc)
  · have := Memory.mem_cells hc
    rcases hw with hw | rfl
    · omega
    · simp [Memory.cells] at hc
  · exact h c (Memory.mem_of_mem_above hc)

theorem Memory.within_write {m : Memory} {a n : Nat} {w : Word} (h : m.within n) (ha : a < n) :
    (m.write a w).within n :=
  Memory.within_fill h (.inl (by simpa using ha))

theorem Memory.within_forget {m : Memory} {base k n : Nat} (h : m.within n) : (m.forget base k).within n := by
  intro c hc
  rw [Memory.forget, List.mem_append] at hc
  rcases hc with hc | hc
  · exact h c (Memory.mem_of_mem_below hc)
  · exact h c (Memory.mem_of_mem_above hc)

theorem Memory.within_shiftDown {m : Memory} {lo hi n : Nat} (h : m.within n) : (m.shiftDown lo hi).within n := by
  intro c hc
  obtain ⟨c', hc', rfl⟩ := List.mem_map.mp hc
  have := h c' (Memory.mem_of_mem_above (Memory.mem_of_mem_below hc'))
  simp; omega

theorem Memory.within_reverseInto {m src : Memory} {k n : Nat} (h : m.within n) (hk : k ≤ n) :
    (m.reverseInto src k).within n := by
  intro c hc
  rw [Memory.reverseInto, List.mem_append] at hc
  rcases hc with hc | hc
  · obtain ⟨c', hc', rfl⟩ := List.mem_map.mp hc
    have : c'.1 < k := Memory.within_below src k c' (List.mem_reverse.mp hc')
    simp; omega
  · exact h c (Memory.mem_of_mem_above hc)

/-! ## The canonical form is kept -/

theorem Memory.wf_nil : Memory.wf [] := List.Pairwise.nil

/-- Every memory of the reset state is in canonical form. -/
theorem reset_memories_wf : (∀ b, (State.reset.buf b).store.wf) ∧ State.reset.hc.wf ∧ State.reset.hr.wf ∧
    State.reset.ic.wf ∧ State.reset.ir.wf ∧ State.reset.win.wf ∧ State.reset.acc.wf :=
  ⟨fun b => by cases b <;> exact Memory.wf_nil, Memory.wf_nil, Memory.wf_nil, Memory.wf_nil, Memory.wf_nil,
    Memory.wf_nil, Memory.wf_nil⟩

theorem Memory.wf_below {m : Memory} (h : m.wf) (k : Nat) : (m.below k).wf := List.Pairwise.filter _ h

theorem Memory.wf_above {m : Memory} (h : m.wf) (k : Nat) : (m.above k).wf := List.Pairwise.filter _ h

theorem Memory.wf_cells (base : Nat) (ws : List Word) : (Memory.cells base ws).wf := by
  induction ws generalizing base with
  | nil => exact .nil
  | cons w ws ih =>
    refine List.Pairwise.cons (fun c hc => ?_) (ih (base + 1))
    have := Memory.mem_cells hc
    simp; omega

theorem Memory.wf_append {m m' : Memory} (h : m.wf) (h' : m'.wf) (k : Nat) (hm : m.within k)
    (hm' : ∀ c ∈ m', k ≤ c.1) : Memory.wf (m ++ m') :=
  List.pairwise_append.mpr ⟨h, h', fun a ha b hb => by have := hm a ha; have := hm' b hb; omega⟩

theorem Memory.wf_fill {m : Memory} (h : m.wf) (base : Nat) (ws : List Word) : (m.fill base ws).wf := by
  refine Memory.wf_append (k := base + ws.length)
    (Memory.wf_append (k := base) (Memory.wf_below h base) (Memory.wf_cells base ws) (Memory.within_below m base)
      fun c hc => (Memory.mem_cells hc).1)
    (Memory.wf_above h _) (fun c hc => ?_) fun c hc => Memory.le_of_mem_above hc
  rcases List.mem_append.mp hc with hc | hc
  · have := Memory.within_below m base c hc
    omega
  · exact (Memory.mem_cells hc).2

theorem Memory.wf_write {m : Memory} (h : m.wf) (a : Nat) (w : Word) : (m.write a w).wf := Memory.wf_fill h a [w]

theorem Memory.wf_forget {m : Memory} (h : m.wf) (base n : Nat) : (m.forget base n).wf :=
  Memory.wf_append (k := base) (Memory.wf_below h base) (Memory.wf_above h _) (Memory.within_below m base)
    fun c hc => by have := Memory.le_of_mem_above hc; omega

theorem Memory.wf_shiftDown {m : Memory} (h : m.wf) (lo hi : Nat) : (m.shiftDown lo hi).wf := by
  rw [Memory.wf, Memory.shiftDown, List.pairwise_map]
  refine List.Pairwise.imp_of_mem (fun {a b} ha hb hab => ?_) (Memory.wf_below (Memory.wf_above h lo) hi)
  have h1 : lo ≤ a.1 := Memory.le_of_mem_above (Memory.mem_of_mem_below ha)
  have h2 : lo ≤ b.1 := Memory.le_of_mem_above (Memory.mem_of_mem_below hb)
  simp; omega

theorem Memory.wf_reverseInto {m src : Memory} (h : m.wf) (h' : src.wf) (n : Nat) : (m.reverseInto src n).wf := by
  refine Memory.wf_append (k := n) ?_ (Memory.wf_above h n) (fun c hc => ?_) fun c hc => Memory.le_of_mem_above hc
  · rw [Memory.wf, List.pairwise_map, List.pairwise_reverse]
    refine List.Pairwise.imp_of_mem (fun {a b} ha hb hab => ?_) (Memory.wf_below h' n)
    have h1 : a.1 < n := Memory.within_below src n a ha
    have h2 : b.1 < n := Memory.within_below src n b hb
    simp; omega
  · obtain ⟨c', hc', rfl⟩ := List.mem_map.mp hc
    have : c'.1 < n := Memory.within_below src n c' (List.mem_reverse.mp hc')
    simp; omega

/-! ## Reads of a canonical memory -/

theorem Memory.read_eq_some_iff {m : Memory} (h : m.wf) (i : Nat) (w : Word) : m.read i = some w ↔ (i, w) ∈ m := by
  induction m with
  | nil => simp
  | cons c m ih =>
    obtain ⟨a, v⟩ := c
    have hm := (List.pairwise_cons.mp h)
    rw [Memory.read_cons, List.mem_cons]
    by_cases e : a = i
    · subst e
      have : (a, w) ∉ m := fun hc => by have := hm.1 _ hc; simp at this
      simp [this, eq_comm]
    · rw [if_neg e, ih hm.2]
      simp [Ne.symm e]

/-- Reading the reversed copy. -/
theorem Memory.read_reverseInto {m src : Memory} (h : m.wf) (h' : src.wf) (n i : Nat) :
    (m.reverseInto src n).read i = if i < n then src.read (n - 1 - i) else m.read i := by
  refine Option.ext fun w => ?_
  rw [Memory.read_eq_some_iff (Memory.wf_reverseInto h h' n), Memory.reverseInto, List.mem_append]
  by_cases hi : i < n
  · rw [if_pos hi, Memory.read_eq_some_iff h']
    constructor
    · rintro (hc | hc)
      · obtain ⟨⟨a, v⟩, hc', e⟩ := List.mem_map.mp hc
        have h1 := List.mem_reverse.mp hc'
        have h2 : a < n := Memory.within_below src n _ h1
        simp only [Prod.mk.injEq] at e
        obtain ⟨e1, rfl⟩ := e
        have : n - 1 - i = a := by omega
        rw [this]
        exact Memory.mem_of_mem_below h1
      · have := Memory.le_of_mem_above hc
        simp at this; omega
    · intro hc
      refine .inl (List.mem_map.mpr ⟨(n - 1 - i, w), List.mem_reverse.mpr ?_, ?_⟩)
      · exact List.mem_filter.mpr ⟨hc, by simp; omega⟩
      · simp; omega
  · rw [if_neg hi, Memory.read_eq_some_iff h]
    constructor
    · rintro (hc | hc)
      · obtain ⟨⟨a, v⟩, hc', e⟩ := List.mem_map.mp hc
        have h2 : a < n := Memory.within_below src n _ (List.mem_reverse.mp hc')
        simp only [Prod.mk.injEq] at e
        omega
      · exact Memory.mem_of_mem_above hc
    · intro hc
      exact .inr (List.mem_filter.mpr ⟨hc, by simpa using hi⟩)

end Sys2Proof.Machine
end

