-- ==== Sys2Proof/Laws/State.lean ====
section
/-! SUPPORT. One lemma per field per named update of the state: what the update writes and what it leaves. -/

namespace Sys2Proof.Machine

/-! ## `State.emit` -/

@[simp] theorem State.emit_params (s : State) (ws : List Word) : (s.emit ws).params = s.params := rfl
@[simp] theorem State.emit_port (s : State) (ws : List Word) : (s.emit ws).port = s.port := rfl
@[simp] theorem State.emit_resp (s : State) (ws : List Word) : (s.emit ws).resp = s.resp ++ ws := rfl
@[simp] theorem State.emit_resetIn (s : State) (ws : List Word) : (s.emit ws).resetIn = s.resetIn := rfl
@[simp] theorem State.emit_draws (s : State) (ws : List Word) : (s.emit ws).draws = s.draws := rfl
@[simp] theorem State.emit_eng (s : State) (ws : List Word) : (s.emit ws).eng = s.eng := rfl
@[simp] theorem State.emit_primed (s : State) (ws : List Word) : (s.emit ws).primed = s.primed := rfl
@[simp] theorem State.emit_oversize (s : State) (ws : List Word) : (s.emit ws).oversize = s.oversize := rfl
@[simp] theorem State.emit_short (s : State) (ws : List Word) : (s.emit ws).short = s.short := rfl
@[simp] theorem State.emit_maxIn (s : State) (ws : List Word) : (s.emit ws).maxIn = s.maxIn := rfl
@[simp] theorem State.emit_factor (s : State) (ws : List Word) : (s.emit ws).factor = s.factor := rfl
@[simp] theorem State.emit_segSize (s : State) (ws : List Word) : (s.emit ws).segSize = s.segSize := rfl
@[simp] theorem State.emit_ctrl (s : State) (ws : List Word) : (s.emit ws).ctrl = s.ctrl := rfl
@[simp] theorem State.emit_capMul0 (s : State) (ws : List Word) : (s.emit ws).capMul0 = s.capMul0 := rfl
@[simp] theorem State.emit_capMul1 (s : State) (ws : List Word) : (s.emit ws).capMul1 = s.capMul1 := rfl
@[simp] theorem State.emit_capMul2 (s : State) (ws : List Word) : (s.emit ws).capMul2 = s.capMul2 := rfl
@[simp] theorem State.emit_capMul3 (s : State) (ws : List Word) : (s.emit ws).capMul3 = s.capMul3 := rfl
@[simp] theorem State.emit_hpLen (s : State) (ws : List Word) : (s.emit ws).hpLen = s.hpLen := rfl
@[simp] theorem State.emit_ipLen (s : State) (ws : List Word) : (s.emit ws).ipLen = s.ipLen := rfl
@[simp] theorem State.emit_winLen (s : State) (ws : List Word) : (s.emit ws).winLen = s.winLen := rfl
@[simp] theorem State.emit_fault (s : State) (ws : List Word) : (s.emit ws).fault = s.fault := rfl
@[simp] theorem State.emit_faultInfo (s : State) (ws : List Word) : (s.emit ws).faultInfo = s.faultInfo := rfl
@[simp] theorem State.emit_shortfall (s : State) (ws : List Word) : (s.emit ws).shortfall = s.shortfall := rfl
@[simp] theorem State.emit_accPos (s : State) (ws : List Word) : (s.emit ws).accPos = s.accPos := rfl
@[simp] theorem State.emit_buf0 (s : State) (ws : List Word) : (s.emit ws).buf0 = s.buf0 := rfl
@[simp] theorem State.emit_buf1 (s : State) (ws : List Word) : (s.emit ws).buf1 = s.buf1 := rfl
@[simp] theorem State.emit_buf2 (s : State) (ws : List Word) : (s.emit ws).buf2 = s.buf2 := rfl
@[simp] theorem State.emit_buf3 (s : State) (ws : List Word) : (s.emit ws).buf3 = s.buf3 := rfl
@[simp] theorem State.emit_hc (s : State) (ws : List Word) : (s.emit ws).hc = s.hc := rfl
@[simp] theorem State.emit_hr (s : State) (ws : List Word) : (s.emit ws).hr = s.hr := rfl
@[simp] theorem State.emit_ic (s : State) (ws : List Word) : (s.emit ws).ic = s.ic := rfl
@[simp] theorem State.emit_ir (s : State) (ws : List Word) : (s.emit ws).ir = s.ir := rfl
@[simp] theorem State.emit_win (s : State) (ws : List Word) : (s.emit ws).win = s.win := rfl
@[simp] theorem State.emit_acc (s : State) (ws : List Word) : (s.emit ws).acc = s.acc := rfl

/-! ## `State.advance` -/

@[simp] theorem State.advance_params (s : State) (n : Nat) : (s.advance n).params = s.params := rfl
@[simp] theorem State.advance_port (s : State) (n : Nat) : (s.advance n).port = s.port := rfl
@[simp] theorem State.advance_resp (s : State) (n : Nat) : (s.advance n).resp = s.resp := rfl
@[simp] theorem State.advance_resetIn (s : State) (n : Nat) : (s.advance n).resetIn = s.resetIn := rfl
@[simp] theorem State.advance_draws (s : State) (n : Nat) : (s.advance n).draws = s.draws + n := rfl
@[simp] theorem State.advance_eng (s : State) (n : Nat) : (s.advance n).eng = s.eng := rfl
@[simp] theorem State.advance_primed (s : State) (n : Nat) : (s.advance n).primed = s.primed := rfl
@[simp] theorem State.advance_oversize (s : State) (n : Nat) : (s.advance n).oversize = s.oversize := rfl
@[simp] theorem State.advance_short (s : State) (n : Nat) : (s.advance n).short = s.short := rfl
@[simp] theorem State.advance_maxIn (s : State) (n : Nat) : (s.advance n).maxIn = s.maxIn := rfl
@[simp] theorem State.advance_factor (s : State) (n : Nat) : (s.advance n).factor = s.factor := rfl
@[simp] theorem State.advance_segSize (s : State) (n : Nat) : (s.advance n).segSize = s.segSize := rfl
@[simp] theorem State.advance_ctrl (s : State) (n : Nat) : (s.advance n).ctrl = s.ctrl := rfl
@[simp] theorem State.advance_capMul0 (s : State) (n : Nat) : (s.advance n).capMul0 = s.capMul0 := rfl
@[simp] theorem State.advance_capMul1 (s : State) (n : Nat) : (s.advance n).capMul1 = s.capMul1 := rfl
@[simp] theorem State.advance_capMul2 (s : State) (n : Nat) : (s.advance n).capMul2 = s.capMul2 := rfl
@[simp] theorem State.advance_capMul3 (s : State) (n : Nat) : (s.advance n).capMul3 = s.capMul3 := rfl
@[simp] theorem State.advance_hpLen (s : State) (n : Nat) : (s.advance n).hpLen = s.hpLen := rfl
@[simp] theorem State.advance_ipLen (s : State) (n : Nat) : (s.advance n).ipLen = s.ipLen := rfl
@[simp] theorem State.advance_winLen (s : State) (n : Nat) : (s.advance n).winLen = s.winLen := rfl
@[simp] theorem State.advance_fault (s : State) (n : Nat) : (s.advance n).fault = s.fault := rfl
@[simp] theorem State.advance_faultInfo (s : State) (n : Nat) : (s.advance n).faultInfo = s.faultInfo := rfl
@[simp] theorem State.advance_shortfall (s : State) (n : Nat) : (s.advance n).shortfall = s.shortfall := rfl
@[simp] theorem State.advance_accPos (s : State) (n : Nat) : (s.advance n).accPos = s.accPos := rfl
@[simp] theorem State.advance_buf0 (s : State) (n : Nat) : (s.advance n).buf0 = s.buf0 := rfl
@[simp] theorem State.advance_buf1 (s : State) (n : Nat) : (s.advance n).buf1 = s.buf1 := rfl
@[simp] theorem State.advance_buf2 (s : State) (n : Nat) : (s.advance n).buf2 = s.buf2 := rfl
@[simp] theorem State.advance_buf3 (s : State) (n : Nat) : (s.advance n).buf3 = s.buf3 := rfl
@[simp] theorem State.advance_hc (s : State) (n : Nat) : (s.advance n).hc = s.hc := rfl
@[simp] theorem State.advance_hr (s : State) (n : Nat) : (s.advance n).hr = s.hr := rfl
@[simp] theorem State.advance_ic (s : State) (n : Nat) : (s.advance n).ic = s.ic := rfl
@[simp] theorem State.advance_ir (s : State) (n : Nat) : (s.advance n).ir = s.ir := rfl
@[simp] theorem State.advance_win (s : State) (n : Nat) : (s.advance n).win = s.win := rfl
@[simp] theorem State.advance_acc (s : State) (n : Nat) : (s.advance n).acc = s.acc := rfl

/-! ## `State.setPrimed` -/

@[simp] theorem State.setPrimed_params (s : State) : (s.setPrimed).params = s.params := rfl
@[simp] theorem State.setPrimed_port (s : State) : (s.setPrimed).port = s.port := rfl
@[simp] theorem State.setPrimed_resp (s : State) : (s.setPrimed).resp = s.resp := rfl
@[simp] theorem State.setPrimed_resetIn (s : State) : (s.setPrimed).resetIn = s.resetIn := rfl
@[simp] theorem State.setPrimed_draws (s : State) : (s.setPrimed).draws = s.draws := rfl
@[simp] theorem State.setPrimed_eng (s : State) : (s.setPrimed).eng = s.eng := rfl
@[simp] theorem State.setPrimed_primed (s : State) : (s.setPrimed).primed = true := rfl
@[simp] theorem State.setPrimed_oversize (s : State) : (s.setPrimed).oversize = s.oversize := rfl
@[simp] theorem State.setPrimed_short (s : State) : (s.setPrimed).short = s.short := rfl
@[simp] theorem State.setPrimed_maxIn (s : State) : (s.setPrimed).maxIn = s.maxIn := rfl
@[simp] theorem State.setPrimed_factor (s : State) : (s.setPrimed).factor = s.factor := rfl
@[simp] theorem State.setPrimed_segSize (s : State) : (s.setPrimed).segSize = s.segSize := rfl
@[simp] theorem State.setPrimed_ctrl (s : State) : (s.setPrimed).ctrl = s.ctrl := rfl
@[simp] theorem State.setPrimed_capMul0 (s : State) : (s.setPrimed).capMul0 = s.capMul0 := rfl
@[simp] theorem State.setPrimed_capMul1 (s : State) : (s.setPrimed).capMul1 = s.capMul1 := rfl
@[simp] theorem State.setPrimed_capMul2 (s : State) : (s.setPrimed).capMul2 = s.capMul2 := rfl
@[simp] theorem State.setPrimed_capMul3 (s : State) : (s.setPrimed).capMul3 = s.capMul3 := rfl
@[simp] theorem State.setPrimed_hpLen (s : State) : (s.setPrimed).hpLen = s.hpLen := rfl
@[simp] theorem State.setPrimed_ipLen (s : State) : (s.setPrimed).ipLen = s.ipLen := rfl
@[simp] theorem State.setPrimed_winLen (s : State) : (s.setPrimed).winLen = s.winLen := rfl
@[simp] theorem State.setPrimed_fault (s : State) : (s.setPrimed).fault = s.fault := rfl
@[simp] theorem State.setPrimed_faultInfo (s : State) : (s.setPrimed).faultInfo = s.faultInfo := rfl
@[simp] theorem State.setPrimed_shortfall (s : State) : (s.setPrimed).shortfall = s.shortfall := rfl
@[simp] theorem State.setPrimed_accPos (s : State) : (s.setPrimed).accPos = s.accPos := rfl
@[simp] theorem State.setPrimed_buf0 (s : State) : (s.setPrimed).buf0 = s.buf0 := rfl
@[simp] theorem State.setPrimed_buf1 (s : State) : (s.setPrimed).buf1 = s.buf1 := rfl
@[simp] theorem State.setPrimed_buf2 (s : State) : (s.setPrimed).buf2 = s.buf2 := rfl
@[simp] theorem State.setPrimed_buf3 (s : State) : (s.setPrimed).buf3 = s.buf3 := rfl
@[simp] theorem State.setPrimed_hc (s : State) : (s.setPrimed).hc = s.hc := rfl
@[simp] theorem State.setPrimed_hr (s : State) : (s.setPrimed).hr = s.hr := rfl
@[simp] theorem State.setPrimed_ic (s : State) : (s.setPrimed).ic = s.ic := rfl
@[simp] theorem State.setPrimed_ir (s : State) : (s.setPrimed).ir = s.ir := rfl
@[simp] theorem State.setPrimed_win (s : State) : (s.setPrimed).win = s.win := rfl
@[simp] theorem State.setPrimed_acc (s : State) : (s.setPrimed).acc = s.acc := rfl

/-! ## `State.setOversize` -/

@[simp] theorem State.setOversize_params (s : State) : (s.setOversize).params = s.params := rfl
@[simp] theorem State.setOversize_port (s : State) : (s.setOversize).port = s.port := rfl
@[simp] theorem State.setOversize_resp (s : State) : (s.setOversize).resp = s.resp := rfl
@[simp] theorem State.setOversize_resetIn (s : State) : (s.setOversize).resetIn = s.resetIn := rfl
@[simp] theorem State.setOversize_draws (s : State) : (s.setOversize).draws = s.draws := rfl
@[simp] theorem State.setOversize_eng (s : State) : (s.setOversize).eng = s.eng := rfl
@[simp] theorem State.setOversize_primed (s : State) : (s.setOversize).primed = s.primed := rfl
@[simp] theorem State.setOversize_oversize (s : State) : (s.setOversize).oversize = true := rfl
@[simp] theorem State.setOversize_short (s : State) : (s.setOversize).short = s.short := rfl
@[simp] theorem State.setOversize_maxIn (s : State) : (s.setOversize).maxIn = s.maxIn := rfl
@[simp] theorem State.setOversize_factor (s : State) : (s.setOversize).factor = s.factor := rfl
@[simp] theorem State.setOversize_segSize (s : State) : (s.setOversize).segSize = s.segSize := rfl
@[simp] theorem State.setOversize_ctrl (s : State) : (s.setOversize).ctrl = s.ctrl := rfl
@[simp] theorem State.setOversize_capMul0 (s : State) : (s.setOversize).capMul0 = s.capMul0 := rfl
@[simp] theorem State.setOversize_capMul1 (s : State) : (s.setOversize).capMul1 = s.capMul1 := rfl
@[simp] theorem State.setOversize_capMul2 (s : State) : (s.setOversize).capMul2 = s.capMul2 := rfl
@[simp] theorem State.setOversize_capMul3 (s : State) : (s.setOversize).capMul3 = s.capMul3 := rfl
@[simp] theorem State.setOversize_hpLen (s : State) : (s.setOversize).hpLen = s.hpLen := rfl
@[simp] theorem State.setOversize_ipLen (s : State) : (s.setOversize).ipLen = s.ipLen := rfl
@[simp] theorem State.setOversize_winLen (s : State) : (s.setOversize).winLen = s.winLen := rfl
@[simp] theorem State.setOversize_fault (s : State) : (s.setOversize).fault = s.fault := rfl
@[simp] theorem State.setOversize_faultInfo (s : State) : (s.setOversize).faultInfo = s.faultInfo := rfl
@[simp] theorem State.setOversize_shortfall (s : State) : (s.setOversize).shortfall = s.shortfall := rfl
@[simp] theorem State.setOversize_accPos (s : State) : (s.setOversize).accPos = s.accPos := rfl
@[simp] theorem State.setOversize_buf0 (s : State) : (s.setOversize).buf0 = s.buf0 := rfl
@[simp] theorem State.setOversize_buf1 (s : State) : (s.setOversize).buf1 = s.buf1 := rfl
@[simp] theorem State.setOversize_buf2 (s : State) : (s.setOversize).buf2 = s.buf2 := rfl
@[simp] theorem State.setOversize_buf3 (s : State) : (s.setOversize).buf3 = s.buf3 := rfl
@[simp] theorem State.setOversize_hc (s : State) : (s.setOversize).hc = s.hc := rfl
@[simp] theorem State.setOversize_hr (s : State) : (s.setOversize).hr = s.hr := rfl
@[simp] theorem State.setOversize_ic (s : State) : (s.setOversize).ic = s.ic := rfl
@[simp] theorem State.setOversize_ir (s : State) : (s.setOversize).ir = s.ir := rfl
@[simp] theorem State.setOversize_win (s : State) : (s.setOversize).win = s.win := rfl
@[simp] theorem State.setOversize_acc (s : State) : (s.setOversize).acc = s.acc := rfl

/-! ## `State.setShort` -/

@[simp] theorem State.setShort_params (s : State) (n : Nat) : (s.setShort n).params = s.params := rfl
@[simp] theorem State.setShort_port (s : State) (n : Nat) : (s.setShort n).port = s.port := rfl
@[simp] theorem State.setShort_resp (s : State) (n : Nat) : (s.setShort n).resp = s.resp := rfl
@[simp] theorem State.setShort_resetIn (s : State) (n : Nat) : (s.setShort n).resetIn = s.resetIn := rfl
@[simp] theorem State.setShort_draws (s : State) (n : Nat) : (s.setShort n).draws = s.draws := rfl
@[simp] theorem State.setShort_eng (s : State) (n : Nat) : (s.setShort n).eng = s.eng := rfl
@[simp] theorem State.setShort_primed (s : State) (n : Nat) : (s.setShort n).primed = s.primed := rfl
@[simp] theorem State.setShort_oversize (s : State) (n : Nat) : (s.setShort n).oversize = s.oversize := rfl
@[simp] theorem State.setShort_short (s : State) (n : Nat) : (s.setShort n).short = true := rfl
@[simp] theorem State.setShort_maxIn (s : State) (n : Nat) : (s.setShort n).maxIn = s.maxIn := rfl
@[simp] theorem State.setShort_factor (s : State) (n : Nat) : (s.setShort n).factor = s.factor := rfl
@[simp] theorem State.setShort_segSize (s : State) (n : Nat) : (s.setShort n).segSize = s.segSize := rfl
@[simp] theorem State.setShort_ctrl (s : State) (n : Nat) : (s.setShort n).ctrl = s.ctrl := rfl
@[simp] theorem State.setShort_capMul0 (s : State) (n : Nat) : (s.setShort n).capMul0 = s.capMul0 := rfl
@[simp] theorem State.setShort_capMul1 (s : State) (n : Nat) : (s.setShort n).capMul1 = s.capMul1 := rfl
@[simp] theorem State.setShort_capMul2 (s : State) (n : Nat) : (s.setShort n).capMul2 = s.capMul2 := rfl
@[simp] theorem State.setShort_capMul3 (s : State) (n : Nat) : (s.setShort n).capMul3 = s.capMul3 := rfl
@[simp] theorem State.setShort_hpLen (s : State) (n : Nat) : (s.setShort n).hpLen = s.hpLen := rfl
@[simp] theorem State.setShort_ipLen (s : State) (n : Nat) : (s.setShort n).ipLen = s.ipLen := rfl
@[simp] theorem State.setShort_winLen (s : State) (n : Nat) : (s.setShort n).winLen = s.winLen := rfl
@[simp] theorem State.setShort_fault (s : State) (n : Nat) : (s.setShort n).fault = s.fault := rfl
@[simp] theorem State.setShort_faultInfo (s : State) (n : Nat) : (s.setShort n).faultInfo = s.faultInfo := rfl
@[simp] theorem State.setShort_shortfall (s : State) (n : Nat) : (s.setShort n).shortfall = BitVec.ofNat 32 n := rfl
@[simp] theorem State.setShort_accPos (s : State) (n : Nat) : (s.setShort n).accPos = s.accPos := rfl
@[simp] theorem State.setShort_buf0 (s : State) (n : Nat) : (s.setShort n).buf0 = s.buf0 := rfl
@[simp] theorem State.setShort_buf1 (s : State) (n : Nat) : (s.setShort n).buf1 = s.buf1 := rfl
@[simp] theorem State.setShort_buf2 (s : State) (n : Nat) : (s.setShort n).buf2 = s.buf2 := rfl
@[simp] theorem State.setShort_buf3 (s : State) (n : Nat) : (s.setShort n).buf3 = s.buf3 := rfl
@[simp] theorem State.setShort_hc (s : State) (n : Nat) : (s.setShort n).hc = s.hc := rfl
@[simp] theorem State.setShort_hr (s : State) (n : Nat) : (s.setShort n).hr = s.hr := rfl
@[simp] theorem State.setShort_ic (s : State) (n : Nat) : (s.setShort n).ic = s.ic := rfl
@[simp] theorem State.setShort_ir (s : State) (n : Nat) : (s.setShort n).ir = s.ir := rfl
@[simp] theorem State.setShort_win (s : State) (n : Nat) : (s.setShort n).win = s.win := rfl
@[simp] theorem State.setShort_acc (s : State) (n : Nat) : (s.setShort n).acc = s.acc := rfl

/-! ## `State.clearFlags` -/

@[simp] theorem State.clearFlags_params (s : State) : (s.clearFlags).params = s.params := rfl
@[simp] theorem State.clearFlags_port (s : State) : (s.clearFlags).port = s.port := rfl
@[simp] theorem State.clearFlags_resp (s : State) : (s.clearFlags).resp = s.resp := rfl
@[simp] theorem State.clearFlags_resetIn (s : State) : (s.clearFlags).resetIn = s.resetIn := rfl
@[simp] theorem State.clearFlags_draws (s : State) : (s.clearFlags).draws = s.draws := rfl
@[simp] theorem State.clearFlags_eng (s : State) : (s.clearFlags).eng = s.eng := rfl
@[simp] theorem State.clearFlags_primed (s : State) : (s.clearFlags).primed = false := rfl
@[simp] theorem State.clearFlags_oversize (s : State) : (s.clearFlags).oversize = false := rfl
@[simp] theorem State.clearFlags_short (s : State) : (s.clearFlags).short = false := rfl
@[simp] theorem State.clearFlags_maxIn (s : State) : (s.clearFlags).maxIn = s.maxIn := rfl
@[simp] theorem State.clearFlags_factor (s : State) : (s.clearFlags).factor = s.factor := rfl
@[simp] theorem State.clearFlags_segSize (s : State) : (s.clearFlags).segSize = s.segSize := rfl
@[simp] theorem State.clearFlags_ctrl (s : State) : (s.clearFlags).ctrl = s.ctrl := rfl
@[simp] theorem State.clearFlags_capMul0 (s : State) : (s.clearFlags).capMul0 = s.capMul0 := rfl
@[simp] theorem State.clearFlags_capMul1 (s : State) : (s.clearFlags).capMul1 = s.capMul1 := rfl
@[simp] theorem State.clearFlags_capMul2 (s : State) : (s.clearFlags).capMul2 = s.capMul2 := rfl
@[simp] theorem State.clearFlags_capMul3 (s : State) : (s.clearFlags).capMul3 = s.capMul3 := rfl
@[simp] theorem State.clearFlags_hpLen (s : State) : (s.clearFlags).hpLen = s.hpLen := rfl
@[simp] theorem State.clearFlags_ipLen (s : State) : (s.clearFlags).ipLen = s.ipLen := rfl
@[simp] theorem State.clearFlags_winLen (s : State) : (s.clearFlags).winLen = s.winLen := rfl
@[simp] theorem State.clearFlags_fault (s : State) : (s.clearFlags).fault = s.fault := rfl
@[simp] theorem State.clearFlags_faultInfo (s : State) : (s.clearFlags).faultInfo = s.faultInfo := rfl
@[simp] theorem State.clearFlags_shortfall (s : State) : (s.clearFlags).shortfall = 0 := rfl
@[simp] theorem State.clearFlags_accPos (s : State) : (s.clearFlags).accPos = s.accPos := rfl
@[simp] theorem State.clearFlags_buf0 (s : State) : (s.clearFlags).buf0 = s.buf0 := rfl
@[simp] theorem State.clearFlags_buf1 (s : State) : (s.clearFlags).buf1 = s.buf1 := rfl
@[simp] theorem State.clearFlags_buf2 (s : State) : (s.clearFlags).buf2 = s.buf2 := rfl
@[simp] theorem State.clearFlags_buf3 (s : State) : (s.clearFlags).buf3 = s.buf3 := rfl
@[simp] theorem State.clearFlags_hc (s : State) : (s.clearFlags).hc = s.hc := rfl
@[simp] theorem State.clearFlags_hr (s : State) : (s.clearFlags).hr = s.hr := rfl
@[simp] theorem State.clearFlags_ic (s : State) : (s.clearFlags).ic = s.ic := rfl
@[simp] theorem State.clearFlags_ir (s : State) : (s.clearFlags).ir = s.ir := rfl
@[simp] theorem State.clearFlags_win (s : State) : (s.clearFlags).win = s.win := rfl
@[simp] theorem State.clearFlags_acc (s : State) : (s.clearFlags).acc = s.acc := rfl

/-! ## `State.loadHc` -/

@[simp] theorem State.loadHc_params (s : State) (n : BitVec 24) (ws : List Word) : (s.loadHc n ws).params = s.params := rfl
@[simp] theorem State.loadHc_port (s : State) (n : BitVec 24) (ws : List Word) : (s.loadHc n ws).port = s.port := rfl
@[simp] theorem State.loadHc_resp (s : State) (n : BitVec 24) (ws : List Word) : (s.loadHc n ws).resp = s.resp := rfl
@[simp] theorem State.loadHc_resetIn (s : State) (n : BitVec 24) (ws : List Word) : (s.loadHc n ws).resetIn = s.resetIn := rfl
@[simp] theorem State.loadHc_draws (s : State) (n : BitVec 24) (ws : List Word) : (s.loadHc n ws).draws = s.draws := rfl
@[simp] theorem State.loadHc_eng (s : State) (n : BitVec 24) (ws : List Word) : (s.loadHc n ws).eng = s.eng := rfl
@[simp] theorem State.loadHc_primed (s : State) (n : BitVec 24) (ws : List Word) : (s.loadHc n ws).primed = s.primed := rfl
@[simp] theorem State.loadHc_oversize (s : State) (n : BitVec 24) (ws : List Word) : (s.loadHc n ws).oversize = s.oversize := rfl
@[simp] theorem State.loadHc_short (s : State) (n : BitVec 24) (ws : List Word) : (s.loadHc n ws).short = s.short := rfl
@[simp] theorem State.loadHc_maxIn (s : State) (n : BitVec 24) (ws : List Word) : (s.loadHc n ws).maxIn = s.maxIn := rfl
@[simp] theorem State.loadHc_factor (s : State) (n : BitVec 24) (ws : List Word) : (s.loadHc n ws).factor = s.factor := rfl
@[simp] theorem State.loadHc_segSize (s : State) (n : BitVec 24) (ws : List Word) : (s.loadHc n ws).segSize = s.segSize := rfl
@[simp] theorem State.loadHc_ctrl (s : State) (n : BitVec 24) (ws : List Word) : (s.loadHc n ws).ctrl = s.ctrl := rfl
@[simp] theorem State.loadHc_capMul0 (s : State) (n : BitVec 24) (ws : List Word) : (s.loadHc n ws).capMul0 = s.capMul0 := rfl
@[simp] theorem State.loadHc_capMul1 (s : State) (n : BitVec 24) (ws : List Word) : (s.loadHc n ws).capMul1 = s.capMul1 := rfl
@[simp] theorem State.loadHc_capMul2 (s : State) (n : BitVec 24) (ws : List Word) : (s.loadHc n ws).capMul2 = s.capMul2 := rfl
@[simp] theorem State.loadHc_capMul3 (s : State) (n : BitVec 24) (ws : List Word) : (s.loadHc n ws).capMul3 = s.capMul3 := rfl
@[simp] theorem State.loadHc_hpLen (s : State) (n : BitVec 24) (ws : List Word) : (s.loadHc n ws).hpLen = n.setWidth 32 := rfl
@[simp] theorem State.loadHc_ipLen (s : State) (n : BitVec 24) (ws : List Word) : (s.loadHc n ws).ipLen = s.ipLen := rfl
@[simp] theorem State.loadHc_winLen (s : State) (n : BitVec 24) (ws : List Word) : (s.loadHc n ws).winLen = s.winLen := rfl
@[simp] theorem State.loadHc_fault (s : State) (n : BitVec 24) (ws : List Word) : (s.loadHc n ws).fault = s.fault := rfl
@[simp] theorem State.loadHc_faultInfo (s : State) (n : BitVec 24) (ws : List Word) : (s.loadHc n ws).faultInfo = s.faultInfo := rfl
@[simp] theorem State.loadHc_shortfall (s : State) (n : BitVec 24) (ws : List Word) : (s.loadHc n ws).shortfall = s.shortfall := rfl
@[simp] theorem State.loadHc_accPos (s : State) (n : BitVec 24) (ws : List Word) : (s.loadHc n ws).accPos = s.accPos := rfl
@[simp] theorem State.loadHc_buf0 (s : State) (n : BitVec 24) (ws : List Word) : (s.loadHc n ws).buf0 = s.buf0 := rfl
@[simp] theorem State.loadHc_buf1 (s : State) (n : BitVec 24) (ws : List Word) : (s.loadHc n ws).buf1 = s.buf1 := rfl
@[simp] theorem State.loadHc_buf2 (s : State) (n : BitVec 24) (ws : List Word) : (s.loadHc n ws).buf2 = s.buf2 := rfl
@[simp] theorem State.loadHc_buf3 (s : State) (n : BitVec 24) (ws : List Word) : (s.loadHc n ws).buf3 = s.buf3 := rfl
@[simp] theorem State.loadHc_hc (s : State) (n : BitVec 24) (ws : List Word) : (s.loadHc n ws).hc = s.hc.fill 0 ws := rfl
@[simp] theorem State.loadHc_hr (s : State) (n : BitVec 24) (ws : List Word) : (s.loadHc n ws).hr = s.hr := rfl
@[simp] theorem State.loadHc_ic (s : State) (n : BitVec 24) (ws : List Word) : (s.loadHc n ws).ic = s.ic := rfl
@[simp] theorem State.loadHc_ir (s : State) (n : BitVec 24) (ws : List Word) : (s.loadHc n ws).ir = s.ir := rfl
@[simp] theorem State.loadHc_win (s : State) (n : BitVec 24) (ws : List Word) : (s.loadHc n ws).win = s.win := rfl
@[simp] theorem State.loadHc_acc (s : State) (n : BitVec 24) (ws : List Word) : (s.loadHc n ws).acc = s.acc := rfl

/-! ## `State.loadIc` -/

@[simp] theorem State.loadIc_params (s : State) (n : BitVec 24) (ws : List Word) : (s.loadIc n ws).params = s.params := rfl
@[simp] theorem State.loadIc_port (s : State) (n : BitVec 24) (ws : List Word) : (s.loadIc n ws).port = s.port := rfl
@[simp] theorem State.loadIc_resp (s : State) (n : BitVec 24) (ws : List Word) : (s.loadIc n ws).resp = s.resp := rfl
@[simp] theorem State.loadIc_resetIn (s : State) (n : BitVec 24) (ws : List Word) : (s.loadIc n ws).resetIn = s.resetIn := rfl
@[simp] theorem State.loadIc_draws (s : State) (n : BitVec 24) (ws : List Word) : (s.loadIc n ws).draws = s.draws := rfl
@[simp] theorem State.loadIc_eng (s : State) (n : BitVec 24) (ws : List Word) : (s.loadIc n ws).eng = s.eng := rfl
@[simp] theorem State.loadIc_primed (s : State) (n : BitVec 24) (ws : List Word) : (s.loadIc n ws).primed = s.primed := rfl
@[simp] theorem State.loadIc_oversize (s : State) (n : BitVec 24) (ws : List Word) : (s.loadIc n ws).oversize = s.oversize := rfl
@[simp] theorem State.loadIc_short (s : State) (n : BitVec 24) (ws : List Word) : (s.loadIc n ws).short = s.short := rfl
@[simp] theorem State.loadIc_maxIn (s : State) (n : BitVec 24) (ws : List Word) : (s.loadIc n ws).maxIn = s.maxIn := rfl
@[simp] theorem State.loadIc_factor (s : State) (n : BitVec 24) (ws : List Word) : (s.loadIc n ws).factor = s.factor := rfl
@[simp] theorem State.loadIc_segSize (s : State) (n : BitVec 24) (ws : List Word) : (s.loadIc n ws).segSize = s.segSize := rfl
@[simp] theorem State.loadIc_ctrl (s : State) (n : BitVec 24) (ws : List Word) : (s.loadIc n ws).ctrl = s.ctrl := rfl
@[simp] theorem State.loadIc_capMul0 (s : State) (n : BitVec 24) (ws : List Word) : (s.loadIc n ws).capMul0 = s.capMul0 := rfl
@[simp] theorem State.loadIc_capMul1 (s : State) (n : BitVec 24) (ws : List Word) : (s.loadIc n ws).capMul1 = s.capMul1 := rfl
@[simp] theorem State.loadIc_capMul2 (s : State) (n : BitVec 24) (ws : List Word) : (s.loadIc n ws).capMul2 = s.capMul2 := rfl
@[simp] theorem State.loadIc_capMul3 (s : State) (n : BitVec 24) (ws : List Word) : (s.loadIc n ws).capMul3 = s.capMul3 := rfl
@[simp] theorem State.loadIc_hpLen (s : State) (n : BitVec 24) (ws : List Word) : (s.loadIc n ws).hpLen = s.hpLen := rfl
@[simp] theorem State.loadIc_ipLen (s : State) (n : BitVec 24) (ws : List Word) : (s.loadIc n ws).ipLen = n.setWidth 32 := rfl
@[simp] theorem State.loadIc_winLen (s : State) (n : BitVec 24) (ws : List Word) : (s.loadIc n ws).winLen = s.winLen := rfl
@[simp] theorem State.loadIc_fault (s : State) (n : BitVec 24) (ws : List Word) : (s.loadIc n ws).fault = s.fault := rfl
@[simp] theorem State.loadIc_faultInfo (s : State) (n : BitVec 24) (ws : List Word) : (s.loadIc n ws).faultInfo = s.faultInfo := rfl
@[simp] theorem State.loadIc_shortfall (s : State) (n : BitVec 24) (ws : List Word) : (s.loadIc n ws).shortfall = s.shortfall := rfl
@[simp] theorem State.loadIc_accPos (s : State) (n : BitVec 24) (ws : List Word) : (s.loadIc n ws).accPos = s.accPos := rfl
@[simp] theorem State.loadIc_buf0 (s : State) (n : BitVec 24) (ws : List Word) : (s.loadIc n ws).buf0 = s.buf0 := rfl
@[simp] theorem State.loadIc_buf1 (s : State) (n : BitVec 24) (ws : List Word) : (s.loadIc n ws).buf1 = s.buf1 := rfl
@[simp] theorem State.loadIc_buf2 (s : State) (n : BitVec 24) (ws : List Word) : (s.loadIc n ws).buf2 = s.buf2 := rfl
@[simp] theorem State.loadIc_buf3 (s : State) (n : BitVec 24) (ws : List Word) : (s.loadIc n ws).buf3 = s.buf3 := rfl
@[simp] theorem State.loadIc_hc (s : State) (n : BitVec 24) (ws : List Word) : (s.loadIc n ws).hc = s.hc := rfl
@[simp] theorem State.loadIc_hr (s : State) (n : BitVec 24) (ws : List Word) : (s.loadIc n ws).hr = s.hr := rfl
@[simp] theorem State.loadIc_ic (s : State) (n : BitVec 24) (ws : List Word) : (s.loadIc n ws).ic = s.ic.fill 0 ws := rfl
@[simp] theorem State.loadIc_ir (s : State) (n : BitVec 24) (ws : List Word) : (s.loadIc n ws).ir = s.ir := rfl
@[simp] theorem State.loadIc_win (s : State) (n : BitVec 24) (ws : List Word) : (s.loadIc n ws).win = s.win := rfl
@[simp] theorem State.loadIc_acc (s : State) (n : BitVec 24) (ws : List Word) : (s.loadIc n ws).acc = s.acc := rfl

/-! ## `State.loadWin` -/

@[simp] theorem State.loadWin_params (s : State) (n : BitVec 24) (ws : List Word) : (s.loadWin n ws).params = s.params := rfl
@[simp] theorem State.loadWin_port (s : State) (n : BitVec 24) (ws : List Word) : (s.loadWin n ws).port = s.port := rfl
@[simp] theorem State.loadWin_resp (s : State) (n : BitVec 24) (ws : List Word) : (s.loadWin n ws).resp = s.resp := rfl
@[simp] theorem State.loadWin_resetIn (s : State) (n : BitVec 24) (ws : List Word) : (s.loadWin n ws).resetIn = s.resetIn := rfl
@[simp] theorem State.loadWin_draws (s : State) (n : BitVec 24) (ws : List Word) : (s.loadWin n ws).draws = s.draws := rfl
@[simp] theorem State.loadWin_eng (s : State) (n : BitVec 24) (ws : List Word) : (s.loadWin n ws).eng = s.eng := rfl
@[simp] theorem State.loadWin_primed (s : State) (n : BitVec 24) (ws : List Word) : (s.loadWin n ws).primed = s.primed := rfl
@[simp] theorem State.loadWin_oversize (s : State) (n : BitVec 24) (ws : List Word) : (s.loadWin n ws).oversize = s.oversize := rfl
@[simp] theorem State.loadWin_short (s : State) (n : BitVec 24) (ws : List Word) : (s.loadWin n ws).short = s.short := rfl
@[simp] theorem State.loadWin_maxIn (s : State) (n : BitVec 24) (ws : List Word) : (s.loadWin n ws).maxIn = s.maxIn := rfl
@[simp] theorem State.loadWin_factor (s : State) (n : BitVec 24) (ws : List Word) : (s.loadWin n ws).factor = s.factor := rfl
@[simp] theorem State.loadWin_segSize (s : State) (n : BitVec 24) (ws : List Word) : (s.loadWin n ws).segSize = s.segSize := rfl
@[simp] theorem State.loadWin_ctrl (s : State) (n : BitVec 24) (ws : List Word) : (s.loadWin n ws).ctrl = s.ctrl := rfl
@[simp] theorem State.loadWin_capMul0 (s : State) (n : BitVec 24) (ws : List Word) : (s.loadWin n ws).capMul0 = s.capMul0 := rfl
@[simp] theorem State.loadWin_capMul1 (s : State) (n : BitVec 24) (ws : List Word) : (s.loadWin n ws).capMul1 = s.capMul1 := rfl
@[simp] theorem State.loadWin_capMul2 (s : State) (n : BitVec 24) (ws : List Word) : (s.loadWin n ws).capMul2 = s.capMul2 := rfl
@[simp] theorem State.loadWin_capMul3 (s : State) (n : BitVec 24) (ws : List Word) : (s.loadWin n ws).capMul3 = s.capMul3 := rfl
@[simp] theorem State.loadWin_hpLen (s : State) (n : BitVec 24) (ws : List Word) : (s.loadWin n ws).hpLen = s.hpLen := rfl
@[simp] theorem State.loadWin_ipLen (s : State) (n : BitVec 24) (ws : List Word) : (s.loadWin n ws).ipLen = s.ipLen := rfl
@[simp] theorem State.loadWin_winLen (s : State) (n : BitVec 24) (ws : List Word) : (s.loadWin n ws).winLen = n.setWidth 32 := rfl
@[simp] theorem State.loadWin_fault (s : State) (n : BitVec 24) (ws : List Word) : (s.loadWin n ws).fault = s.fault := rfl
@[simp] theorem State.loadWin_faultInfo (s : State) (n : BitVec 24) (ws : List Word) : (s.loadWin n ws).faultInfo = s.faultInfo := rfl
@[simp] theorem State.loadWin_shortfall (s : State) (n : BitVec 24) (ws : List Word) : (s.loadWin n ws).shortfall = s.shortfall := rfl
@[simp] theorem State.loadWin_accPos (s : State) (n : BitVec 24) (ws : List Word) : (s.loadWin n ws).accPos = s.accPos := rfl
@[simp] theorem State.loadWin_buf0 (s : State) (n : BitVec 24) (ws : List Word) : (s.loadWin n ws).buf0 = s.buf0 := rfl
@[simp] theorem State.loadWin_buf1 (s : State) (n : BitVec 24) (ws : List Word) : (s.loadWin n ws).buf1 = s.buf1 := rfl
@[simp] theorem State.loadWin_buf2 (s : State) (n : BitVec 24) (ws : List Word) : (s.loadWin n ws).buf2 = s.buf2 := rfl
@[simp] theorem State.loadWin_buf3 (s : State) (n : BitVec 24) (ws : List Word) : (s.loadWin n ws).buf3 = s.buf3 := rfl
@[simp] theorem State.loadWin_hc (s : State) (n : BitVec 24) (ws : List Word) : (s.loadWin n ws).hc = s.hc := rfl
@[simp] theorem State.loadWin_hr (s : State) (n : BitVec 24) (ws : List Word) : (s.loadWin n ws).hr = s.hr := rfl
@[simp] theorem State.loadWin_ic (s : State) (n : BitVec 24) (ws : List Word) : (s.loadWin n ws).ic = s.ic := rfl
@[simp] theorem State.loadWin_ir (s : State) (n : BitVec 24) (ws : List Word) : (s.loadWin n ws).ir = s.ir := rfl
@[simp] theorem State.loadWin_win (s : State) (n : BitVec 24) (ws : List Word) : (s.loadWin n ws).win = s.win.fill 0 ws := rfl
@[simp] theorem State.loadWin_acc (s : State) (n : BitVec 24) (ws : List Word) : (s.loadWin n ws).acc = s.acc := rfl

/-! ## `State.setHr` -/

@[simp] theorem State.setHr_params (s : State) (m : Memory) : (s.setHr m).params = s.params := rfl
@[simp] theorem State.setHr_port (s : State) (m : Memory) : (s.setHr m).port = s.port := rfl
@[simp] theorem State.setHr_resp (s : State) (m : Memory) : (s.setHr m).resp = s.resp := rfl
@[simp] theorem State.setHr_resetIn (s : State) (m : Memory) : (s.setHr m).resetIn = s.resetIn := rfl
@[simp] theorem State.setHr_draws (s : State) (m : Memory) : (s.setHr m).draws = s.draws := rfl
@[simp] theorem State.setHr_eng (s : State) (m : Memory) : (s.setHr m).eng = s.eng := rfl
@[simp] theorem State.setHr_primed (s : State) (m : Memory) : (s.setHr m).primed = s.primed := rfl
@[simp] theorem State.setHr_oversize (s : State) (m : Memory) : (s.setHr m).oversize = s.oversize := rfl
@[simp] theorem State.setHr_short (s : State) (m : Memory) : (s.setHr m).short = s.short := rfl
@[simp] theorem State.setHr_maxIn (s : State) (m : Memory) : (s.setHr m).maxIn = s.maxIn := rfl
@[simp] theorem State.setHr_factor (s : State) (m : Memory) : (s.setHr m).factor = s.factor := rfl
@[simp] theorem State.setHr_segSize (s : State) (m : Memory) : (s.setHr m).segSize = s.segSize := rfl
@[simp] theorem State.setHr_ctrl (s : State) (m : Memory) : (s.setHr m).ctrl = s.ctrl := rfl
@[simp] theorem State.setHr_capMul0 (s : State) (m : Memory) : (s.setHr m).capMul0 = s.capMul0 := rfl
@[simp] theorem State.setHr_capMul1 (s : State) (m : Memory) : (s.setHr m).capMul1 = s.capMul1 := rfl
@[simp] theorem State.setHr_capMul2 (s : State) (m : Memory) : (s.setHr m).capMul2 = s.capMul2 := rfl
@[simp] theorem State.setHr_capMul3 (s : State) (m : Memory) : (s.setHr m).capMul3 = s.capMul3 := rfl
@[simp] theorem State.setHr_hpLen (s : State) (m : Memory) : (s.setHr m).hpLen = s.hpLen := rfl
@[simp] theorem State.setHr_ipLen (s : State) (m : Memory) : (s.setHr m).ipLen = s.ipLen := rfl
@[simp] theorem State.setHr_winLen (s : State) (m : Memory) : (s.setHr m).winLen = s.winLen := rfl
@[simp] theorem State.setHr_fault (s : State) (m : Memory) : (s.setHr m).fault = s.fault := rfl
@[simp] theorem State.setHr_faultInfo (s : State) (m : Memory) : (s.setHr m).faultInfo = s.faultInfo := rfl
@[simp] theorem State.setHr_shortfall (s : State) (m : Memory) : (s.setHr m).shortfall = s.shortfall := rfl
@[simp] theorem State.setHr_accPos (s : State) (m : Memory) : (s.setHr m).accPos = s.accPos := rfl
@[simp] theorem State.setHr_buf0 (s : State) (m : Memory) : (s.setHr m).buf0 = s.buf0 := rfl
@[simp] theorem State.setHr_buf1 (s : State) (m : Memory) : (s.setHr m).buf1 = s.buf1 := rfl
@[simp] theorem State.setHr_buf2 (s : State) (m : Memory) : (s.setHr m).buf2 = s.buf2 := rfl
@[simp] theorem State.setHr_buf3 (s : State) (m : Memory) : (s.setHr m).buf3 = s.buf3 := rfl
@[simp] theorem State.setHr_hc (s : State) (m : Memory) : (s.setHr m).hc = s.hc := rfl
@[simp] theorem State.setHr_hr (s : State) (m : Memory) : (s.setHr m).hr = m := rfl
@[simp] theorem State.setHr_ic (s : State) (m : Memory) : (s.setHr m).ic = s.ic := rfl
@[simp] theorem State.setHr_ir (s : State) (m : Memory) : (s.setHr m).ir = s.ir := rfl
@[simp] theorem State.setHr_win (s : State) (m : Memory) : (s.setHr m).win = s.win := rfl
@[simp] theorem State.setHr_acc (s : State) (m : Memory) : (s.setHr m).acc = s.acc := rfl

/-! ## `State.setIr` -/

@[simp] theorem State.setIr_params (s : State) (m : Memory) : (s.setIr m).params = s.params := rfl
@[simp] theorem State.setIr_port (s : State) (m : Memory) : (s.setIr m).port = s.port := rfl
@[simp] theorem State.setIr_resp (s : State) (m : Memory) : (s.setIr m).resp = s.resp := rfl
@[simp] theorem State.setIr_resetIn (s : State) (m : Memory) : (s.setIr m).resetIn = s.resetIn := rfl
@[simp] theorem State.setIr_draws (s : State) (m : Memory) : (s.setIr m).draws = s.draws := rfl
@[simp] theorem State.setIr_eng (s : State) (m : Memory) : (s.setIr m).eng = s.eng := rfl
@[simp] theorem State.setIr_primed (s : State) (m : Memory) : (s.setIr m).primed = s.primed := rfl
@[simp] theorem State.setIr_oversize (s : State) (m : Memory) : (s.setIr m).oversize = s.oversize := rfl
@[simp] theorem State.setIr_short (s : State) (m : Memory) : (s.setIr m).short = s.short := rfl
@[simp] theorem State.setIr_maxIn (s : State) (m : Memory) : (s.setIr m).maxIn = s.maxIn := rfl
@[simp] theorem State.setIr_factor (s : State) (m : Memory) : (s.setIr m).factor = s.factor := rfl
@[simp] theorem State.setIr_segSize (s : State) (m : Memory) : (s.setIr m).segSize = s.segSize := rfl
@[simp] theorem State.setIr_ctrl (s : State) (m : Memory) : (s.setIr m).ctrl = s.ctrl := rfl
@[simp] theorem State.setIr_capMul0 (s : State) (m : Memory) : (s.setIr m).capMul0 = s.capMul0 := rfl
@[simp] theorem State.setIr_capMul1 (s : State) (m : Memory) : (s.setIr m).capMul1 = s.capMul1 := rfl
@[simp] theorem State.setIr_capMul2 (s : State) (m : Memory) : (s.setIr m).capMul2 = s.capMul2 := rfl
@[simp] theorem State.setIr_capMul3 (s : State) (m : Memory) : (s.setIr m).capMul3 = s.capMul3 := rfl
@[simp] theorem State.setIr_hpLen (s : State) (m : Memory) : (s.setIr m).hpLen = s.hpLen := rfl
@[simp] theorem State.setIr_ipLen (s : State) (m : Memory) : (s.setIr m).ipLen = s.ipLen := rfl
@[simp] theorem State.setIr_winLen (s : State) (m : Memory) : (s.setIr m).winLen = s.winLen := rfl
@[simp] theorem State.setIr_fault (s : State) (m : Memory) : (s.setIr m).fault = s.fault := rfl
@[simp] theorem State.setIr_faultInfo (s : State) (m : Memory) : (s.setIr m).faultInfo = s.faultInfo := rfl
@[simp] theorem State.setIr_shortfall (s : State) (m : Memory) : (s.setIr m).shortfall = s.shortfall := rfl
@[simp] theorem State.setIr_accPos (s : State) (m : Memory) : (s.setIr m).accPos = s.accPos := rfl
@[simp] theorem State.setIr_buf0 (s : State) (m : Memory) : (s.setIr m).buf0 = s.buf0 := rfl
@[simp] theorem State.setIr_buf1 (s : State) (m : Memory) : (s.setIr m).buf1 = s.buf1 := rfl
@[simp] theorem State.setIr_buf2 (s : State) (m : Memory) : (s.setIr m).buf2 = s.buf2 := rfl
@[simp] theorem State.setIr_buf3 (s : State) (m : Memory) : (s.setIr m).buf3 = s.buf3 := rfl
@[simp] theorem State.setIr_hc (s : State) (m : Memory) : (s.setIr m).hc = s.hc := rfl
@[simp] theorem State.setIr_hr (s : State) (m : Memory) : (s.setIr m).hr = s.hr := rfl
@[simp] theorem State.setIr_ic (s : State) (m : Memory) : (s.setIr m).ic = s.ic := rfl
@[simp] theorem State.setIr_ir (s : State) (m : Memory) : (s.setIr m).ir = m := rfl
@[simp] theorem State.setIr_win (s : State) (m : Memory) : (s.setIr m).win = s.win := rfl
@[simp] theorem State.setIr_acc (s : State) (m : Memory) : (s.setIr m).acc = s.acc := rfl

/-! ## `State.setAcc` -/

@[simp] theorem State.setAcc_params (s : State) (m : Memory) (pos : Nat) : (s.setAcc m pos).params = s.params := rfl
@[simp] theorem State.setAcc_port (s : State) (m : Memory) (pos : Nat) : (s.setAcc m pos).port = s.port := rfl
@[simp] theorem State.setAcc_resp (s : State) (m : Memory) (pos : Nat) : (s.setAcc m pos).resp = s.resp := rfl
@[simp] theorem State.setAcc_resetIn (s : State) (m : Memory) (pos : Nat) : (s.setAcc m pos).resetIn = s.resetIn := rfl
@[simp] theorem State.setAcc_draws (s : State) (m : Memory) (pos : Nat) : (s.setAcc m pos).draws = s.draws := rfl
@[simp] theorem State.setAcc_eng (s : State) (m : Memory) (pos : Nat) : (s.setAcc m pos).eng = s.eng := rfl
@[simp] theorem State.setAcc_primed (s : State) (m : Memory) (pos : Nat) : (s.setAcc m pos).primed = s.primed := rfl
@[simp] theorem State.setAcc_oversize (s : State) (m : Memory) (pos : Nat) : (s.setAcc m pos).oversize = s.oversize := rfl
@[simp] theorem State.setAcc_short (s : State) (m : Memory) (pos : Nat) : (s.setAcc m pos).short = s.short := rfl
@[simp] theorem State.setAcc_maxIn (s : State) (m : Memory) (pos : Nat) : (s.setAcc m pos).maxIn = s.maxIn := rfl
@[simp] theorem State.setAcc_factor (s : State) (m : Memory) (pos : Nat) : (s.setAcc m pos).factor = s.factor := rfl
@[simp] theorem State.setAcc_segSize (s : State) (m : Memory) (pos : Nat) : (s.setAcc m pos).segSize = s.segSize := rfl
@[simp] theorem State.setAcc_ctrl (s : State) (m : Memory) (pos : Nat) : (s.setAcc m pos).ctrl = s.ctrl := rfl
@[simp] theorem State.setAcc_capMul0 (s : State) (m : Memory) (pos : Nat) : (s.setAcc m pos).capMul0 = s.capMul0 := rfl
@[simp] theorem State.setAcc_capMul1 (s : State) (m : Memory) (pos : Nat) : (s.setAcc m pos).capMul1 = s.capMul1 := rfl
@[simp] theorem State.setAcc_capMul2 (s : State) (m : Memory) (pos : Nat) : (s.setAcc m pos).capMul2 = s.capMul2 := rfl
@[simp] theorem State.setAcc_capMul3 (s : State) (m : Memory) (pos : Nat) : (s.setAcc m pos).capMul3 = s.capMul3 := rfl
@[simp] theorem State.setAcc_hpLen (s : State) (m : Memory) (pos : Nat) : (s.setAcc m pos).hpLen = s.hpLen := rfl
@[simp] theorem State.setAcc_ipLen (s : State) (m : Memory) (pos : Nat) : (s.setAcc m pos).ipLen = s.ipLen := rfl
@[simp] theorem State.setAcc_winLen (s : State) (m : Memory) (pos : Nat) : (s.setAcc m pos).winLen = s.winLen := rfl
@[simp] theorem State.setAcc_fault (s : State) (m : Memory) (pos : Nat) : (s.setAcc m pos).fault = s.fault := rfl
@[simp] theorem State.setAcc_faultInfo (s : State) (m : Memory) (pos : Nat) : (s.setAcc m pos).faultInfo = s.faultInfo := rfl
@[simp] theorem State.setAcc_shortfall (s : State) (m : Memory) (pos : Nat) : (s.setAcc m pos).shortfall = s.shortfall := rfl
@[simp] theorem State.setAcc_accPos (s : State) (m : Memory) (pos : Nat) : (s.setAcc m pos).accPos = pos := rfl
@[simp] theorem State.setAcc_buf0 (s : State) (m : Memory) (pos : Nat) : (s.setAcc m pos).buf0 = s.buf0 := rfl
@[simp] theorem State.setAcc_buf1 (s : State) (m : Memory) (pos : Nat) : (s.setAcc m pos).buf1 = s.buf1 := rfl
@[simp] theorem State.setAcc_buf2 (s : State) (m : Memory) (pos : Nat) : (s.setAcc m pos).buf2 = s.buf2 := rfl
@[simp] theorem State.setAcc_buf3 (s : State) (m : Memory) (pos : Nat) : (s.setAcc m pos).buf3 = s.buf3 := rfl
@[simp] theorem State.setAcc_hc (s : State) (m : Memory) (pos : Nat) : (s.setAcc m pos).hc = s.hc := rfl
@[simp] theorem State.setAcc_hr (s : State) (m : Memory) (pos : Nat) : (s.setAcc m pos).hr = s.hr := rfl
@[simp] theorem State.setAcc_ic (s : State) (m : Memory) (pos : Nat) : (s.setAcc m pos).ic = s.ic := rfl
@[simp] theorem State.setAcc_ir (s : State) (m : Memory) (pos : Nat) : (s.setAcc m pos).ir = s.ir := rfl
@[simp] theorem State.setAcc_win (s : State) (m : Memory) (pos : Nat) : (s.setAcc m pos).win = s.win := rfl
@[simp] theorem State.setAcc_acc (s : State) (m : Memory) (pos : Nat) : (s.setAcc m pos).acc = m := rfl

/-! ## `State.enterReady` -/

@[simp] theorem State.enterReady_params (s : State) : (s.enterReady).params = s.params := rfl
@[simp] theorem State.enterReady_port (s : State) : (s.enterReady).port = s.port := rfl
@[simp] theorem State.enterReady_resp (s : State) : (s.enterReady).resp = s.resp := rfl
@[simp] theorem State.enterReady_resetIn (s : State) : (s.enterReady).resetIn = s.resetIn := rfl
@[simp] theorem State.enterReady_draws (s : State) : (s.enterReady).draws = s.draws := rfl
@[simp] theorem State.enterReady_eng (s : State) : (s.enterReady).eng = .ready := rfl
@[simp] theorem State.enterReady_primed (s : State) : (s.enterReady).primed = s.primed := rfl
@[simp] theorem State.enterReady_oversize (s : State) : (s.enterReady).oversize = s.oversize := rfl
@[simp] theorem State.enterReady_short (s : State) : (s.enterReady).short = s.short := rfl
@[simp] theorem State.enterReady_maxIn (s : State) : (s.enterReady).maxIn = s.maxIn := rfl
@[simp] theorem State.enterReady_factor (s : State) : (s.enterReady).factor = s.factor := rfl
@[simp] theorem State.enterReady_segSize (s : State) : (s.enterReady).segSize = s.segSize := rfl
@[simp] theorem State.enterReady_ctrl (s : State) : (s.enterReady).ctrl = s.ctrl := rfl
@[simp] theorem State.enterReady_capMul0 (s : State) : (s.enterReady).capMul0 = s.capMul0 := rfl
@[simp] theorem State.enterReady_capMul1 (s : State) : (s.enterReady).capMul1 = s.capMul1 := rfl
@[simp] theorem State.enterReady_capMul2 (s : State) : (s.enterReady).capMul2 = s.capMul2 := rfl
@[simp] theorem State.enterReady_capMul3 (s : State) : (s.enterReady).capMul3 = s.capMul3 := rfl
@[simp] theorem State.enterReady_hpLen (s : State) : (s.enterReady).hpLen = s.hpLen := rfl
@[simp] theorem State.enterReady_ipLen (s : State) : (s.enterReady).ipLen = s.ipLen := rfl
@[simp] theorem State.enterReady_winLen (s : State) : (s.enterReady).winLen = s.winLen := rfl
@[simp] theorem State.enterReady_fault (s : State) : (s.enterReady).fault = s.fault := rfl
@[simp] theorem State.enterReady_faultInfo (s : State) : (s.enterReady).faultInfo = s.faultInfo := rfl
@[simp] theorem State.enterReady_shortfall (s : State) : (s.enterReady).shortfall = s.shortfall := rfl
@[simp] theorem State.enterReady_accPos (s : State) : (s.enterReady).accPos = s.accPos := rfl
@[simp] theorem State.enterReady_buf0 (s : State) : (s.enterReady).buf0 = s.buf0 := rfl
@[simp] theorem State.enterReady_buf1 (s : State) : (s.enterReady).buf1 = s.buf1 := rfl
@[simp] theorem State.enterReady_buf2 (s : State) : (s.enterReady).buf2 = s.buf2 := rfl
@[simp] theorem State.enterReady_buf3 (s : State) : (s.enterReady).buf3 = s.buf3 := rfl
@[simp] theorem State.enterReady_hc (s : State) : (s.enterReady).hc = s.hc := rfl
@[simp] theorem State.enterReady_hr (s : State) : (s.enterReady).hr = s.hr := rfl
@[simp] theorem State.enterReady_ic (s : State) : (s.enterReady).ic = s.ic := rfl
@[simp] theorem State.enterReady_ir (s : State) : (s.enterReady).ir = s.ir := rfl
@[simp] theorem State.enterReady_win (s : State) : (s.enterReady).win = s.win := rfl
@[simp] theorem State.enterReady_acc (s : State) : (s.enterReady).acc = s.acc := rfl

/-! ## `State.latchFault` -/

@[simp] theorem State.latchFault_params (s : State) (fault info : Word) : (s.latchFault fault info).params = s.params := rfl
@[simp] theorem State.latchFault_port (s : State) (fault info : Word) : (s.latchFault fault info).port = s.port := rfl
@[simp] theorem State.latchFault_resp (s : State) (fault info : Word) : (s.latchFault fault info).resp = s.resp := rfl
@[simp] theorem State.latchFault_resetIn (s : State) (fault info : Word) : (s.latchFault fault info).resetIn = s.resetIn := rfl
@[simp] theorem State.latchFault_draws (s : State) (fault info : Word) : (s.latchFault fault info).draws = s.draws := rfl
@[simp] theorem State.latchFault_eng (s : State) (fault info : Word) : (s.latchFault fault info).eng = .faulted := rfl
@[simp] theorem State.latchFault_primed (s : State) (fault info : Word) : (s.latchFault fault info).primed = s.primed := rfl
@[simp] theorem State.latchFault_oversize (s : State) (fault info : Word) : (s.latchFault fault info).oversize = s.oversize := rfl
@[simp] theorem State.latchFault_short (s : State) (fault info : Word) : (s.latchFault fault info).short = s.short := rfl
@[simp] theorem State.latchFault_maxIn (s : State) (fault info : Word) : (s.latchFault fault info).maxIn = s.maxIn := rfl
@[simp] theorem State.latchFault_factor (s : State) (fault info : Word) : (s.latchFault fault info).factor = s.factor := rfl
@[simp] theorem State.latchFault_segSize (s : State) (fault info : Word) : (s.latchFault fault info).segSize = s.segSize := rfl
@[simp] theorem State.latchFault_ctrl (s : State) (fault info : Word) : (s.latchFault fault info).ctrl = s.ctrl := rfl
@[simp] theorem State.latchFault_capMul0 (s : State) (fault info : Word) : (s.latchFault fault info).capMul0 = s.capMul0 := rfl
@[simp] theorem State.latchFault_capMul1 (s : State) (fault info : Word) : (s.latchFault fault info).capMul1 = s.capMul1 := rfl
@[simp] theorem State.latchFault_capMul2 (s : State) (fault info : Word) : (s.latchFault fault info).capMul2 = s.capMul2 := rfl
@[simp] theorem State.latchFault_capMul3 (s : State) (fault info : Word) : (s.latchFault fault info).capMul3 = s.capMul3 := rfl
@[simp] theorem State.latchFault_hpLen (s : State) (fault info : Word) : (s.latchFault fault info).hpLen = s.hpLen := rfl
@[simp] theorem State.latchFault_ipLen (s : State) (fault info : Word) : (s.latchFault fault info).ipLen = s.ipLen := rfl
@[simp] theorem State.latchFault_winLen (s : State) (fault info : Word) : (s.latchFault fault info).winLen = s.winLen := rfl
@[simp] theorem State.latchFault_fault (s : State) (fault info : Word) : (s.latchFault fault info).fault = fault := rfl
@[simp] theorem State.latchFault_faultInfo (s : State) (fault info : Word) : (s.latchFault fault info).faultInfo = info := rfl
@[simp] theorem State.latchFault_shortfall (s : State) (fault info : Word) : (s.latchFault fault info).shortfall = s.shortfall := rfl
@[simp] theorem State.latchFault_accPos (s : State) (fault info : Word) : (s.latchFault fault info).accPos = s.accPos := rfl
@[simp] theorem State.latchFault_buf0 (s : State) (fault info : Word) : (s.latchFault fault info).buf0 = s.buf0 := rfl
@[simp] theorem State.latchFault_buf1 (s : State) (fault info : Word) : (s.latchFault fault info).buf1 = s.buf1 := rfl
@[simp] theorem State.latchFault_buf2 (s : State) (fault info : Word) : (s.latchFault fault info).buf2 = s.buf2 := rfl
@[simp] theorem State.latchFault_buf3 (s : State) (fault info : Word) : (s.latchFault fault info).buf3 = s.buf3 := rfl
@[simp] theorem State.latchFault_hc (s : State) (fault info : Word) : (s.latchFault fault info).hc = s.hc := rfl
@[simp] theorem State.latchFault_hr (s : State) (fault info : Word) : (s.latchFault fault info).hr = s.hr := rfl
@[simp] theorem State.latchFault_ic (s : State) (fault info : Word) : (s.latchFault fault info).ic = s.ic := rfl
@[simp] theorem State.latchFault_ir (s : State) (fault info : Word) : (s.latchFault fault info).ir = s.ir := rfl
@[simp] theorem State.latchFault_win (s : State) (fault info : Word) : (s.latchFault fault info).win = s.win := rfl
@[simp] theorem State.latchFault_acc (s : State) (fault info : Word) : (s.latchFault fault info).acc = s.acc := rfl

/-! ## `State.toReset` -/

@[simp] theorem State.toReset_params (s : State) : (s.toReset).params = s.params := rfl
@[simp] theorem State.toReset_port (s : State) : (s.toReset).port = s.port := rfl
@[simp] theorem State.toReset_resp (s : State) : (s.toReset).resp = s.resp := rfl
@[simp] theorem State.toReset_resetIn (s : State) : (s.toReset).resetIn = s.resetIn := rfl
@[simp] theorem State.toReset_draws (s : State) : (s.toReset).draws = s.draws := rfl
@[simp] theorem State.toReset_eng (s : State) : (s.toReset).eng = State.reset.eng := rfl
@[simp] theorem State.toReset_primed (s : State) : (s.toReset).primed = State.reset.primed := rfl
@[simp] theorem State.toReset_oversize (s : State) : (s.toReset).oversize = State.reset.oversize := rfl
@[simp] theorem State.toReset_short (s : State) : (s.toReset).short = State.reset.short := rfl
@[simp] theorem State.toReset_maxIn (s : State) : (s.toReset).maxIn = State.reset.maxIn := rfl
@[simp] theorem State.toReset_factor (s : State) : (s.toReset).factor = State.reset.factor := rfl
@[simp] theorem State.toReset_segSize (s : State) : (s.toReset).segSize = State.reset.segSize := rfl
@[simp] theorem State.toReset_ctrl (s : State) : (s.toReset).ctrl = State.reset.ctrl := rfl
@[simp] theorem State.toReset_capMul0 (s : State) : (s.toReset).capMul0 = State.reset.capMul0 := rfl
@[simp] theorem State.toReset_capMul1 (s : State) : (s.toReset).capMul1 = State.reset.capMul1 := rfl
@[simp] theorem State.toReset_capMul2 (s : State) : (s.toReset).capMul2 = State.reset.capMul2 := rfl
@[simp] theorem State.toReset_capMul3 (s : State) : (s.toReset).capMul3 = State.reset.capMul3 := rfl
@[simp] theorem State.toReset_hpLen (s : State) : (s.toReset).hpLen = State.reset.hpLen := rfl
@[simp] theorem State.toReset_ipLen (s : State) : (s.toReset).ipLen = State.reset.ipLen := rfl
@[simp] theorem State.toReset_winLen (s : State) : (s.toReset).winLen = State.reset.winLen := rfl
@[simp] theorem State.toReset_fault (s : State) : (s.toReset).fault = State.reset.fault := rfl
@[simp] theorem State.toReset_faultInfo (s : State) : (s.toReset).faultInfo = State.reset.faultInfo := rfl
@[simp] theorem State.toReset_shortfall (s : State) : (s.toReset).shortfall = State.reset.shortfall := rfl
@[simp] theorem State.toReset_accPos (s : State) : (s.toReset).accPos = State.reset.accPos := rfl
@[simp] theorem State.toReset_buf0 (s : State) : (s.toReset).buf0 = State.reset.buf0 := rfl
@[simp] theorem State.toReset_buf1 (s : State) : (s.toReset).buf1 = State.reset.buf1 := rfl
@[simp] theorem State.toReset_buf2 (s : State) : (s.toReset).buf2 = State.reset.buf2 := rfl
@[simp] theorem State.toReset_buf3 (s : State) : (s.toReset).buf3 = State.reset.buf3 := rfl
@[simp] theorem State.toReset_hc (s : State) : (s.toReset).hc = State.reset.hc := rfl
@[simp] theorem State.toReset_hr (s : State) : (s.toReset).hr = State.reset.hr := rfl
@[simp] theorem State.toReset_ic (s : State) : (s.toReset).ic = State.reset.ic := rfl
@[simp] theorem State.toReset_ir (s : State) : (s.toReset).ir = State.reset.ir := rfl
@[simp] theorem State.toReset_win (s : State) : (s.toReset).win = State.reset.win := rfl
@[simp] theorem State.toReset_acc (s : State) : (s.toReset).acc = State.reset.acc := rfl

/-! ## `State.hardReset` -/

@[simp] theorem State.hardReset_params (s : State) : (s.hardReset).params = s.params := rfl
@[simp] theorem State.hardReset_port (s : State) : (s.hardReset).port = s.port := rfl
@[simp] theorem State.hardReset_resp (s : State) : (s.hardReset).resp = s.resp := rfl
@[simp] theorem State.hardReset_resetIn (s : State) : (s.hardReset).resetIn = .idle := rfl
@[simp] theorem State.hardReset_draws (s : State) : (s.hardReset).draws = s.draws := rfl
@[simp] theorem State.hardReset_eng (s : State) : (s.hardReset).eng = State.reset.eng := rfl
@[simp] theorem State.hardReset_primed (s : State) : (s.hardReset).primed = State.reset.primed := rfl
@[simp] theorem State.hardReset_oversize (s : State) : (s.hardReset).oversize = State.reset.oversize := rfl
@[simp] theorem State.hardReset_short (s : State) : (s.hardReset).short = State.reset.short := rfl
@[simp] theorem State.hardReset_maxIn (s : State) : (s.hardReset).maxIn = State.reset.maxIn := rfl
@[simp] theorem State.hardReset_factor (s : State) : (s.hardReset).factor = State.reset.factor := rfl
@[simp] theorem State.hardReset_segSize (s : State) : (s.hardReset).segSize = State.reset.segSize := rfl
@[simp] theorem State.hardReset_ctrl (s : State) : (s.hardReset).ctrl = State.reset.ctrl := rfl
@[simp] theorem State.hardReset_capMul0 (s : State) : (s.hardReset).capMul0 = State.reset.capMul0 := rfl
@[simp] theorem State.hardReset_capMul1 (s : State) : (s.hardReset).capMul1 = State.reset.capMul1 := rfl
@[simp] theorem State.hardReset_capMul2 (s : State) : (s.hardReset).capMul2 = State.reset.capMul2 := rfl
@[simp] theorem State.hardReset_capMul3 (s : State) : (s.hardReset).capMul3 = State.reset.capMul3 := rfl
@[simp] theorem State.hardReset_hpLen (s : State) : (s.hardReset).hpLen = State.reset.hpLen := rfl
@[simp] theorem State.hardReset_ipLen (s : State) : (s.hardReset).ipLen = State.reset.ipLen := rfl
@[simp] theorem State.hardReset_winLen (s : State) : (s.hardReset).winLen = State.reset.winLen := rfl
@[simp] theorem State.hardReset_fault (s : State) : (s.hardReset).fault = State.reset.fault := rfl
@[simp] theorem State.hardReset_faultInfo (s : State) : (s.hardReset).faultInfo = State.reset.faultInfo := rfl
@[simp] theorem State.hardReset_shortfall (s : State) : (s.hardReset).shortfall = State.reset.shortfall := rfl
@[simp] theorem State.hardReset_accPos (s : State) : (s.hardReset).accPos = State.reset.accPos := rfl
@[simp] theorem State.hardReset_buf0 (s : State) : (s.hardReset).buf0 = State.reset.buf0 := rfl
@[simp] theorem State.hardReset_buf1 (s : State) : (s.hardReset).buf1 = State.reset.buf1 := rfl
@[simp] theorem State.hardReset_buf2 (s : State) : (s.hardReset).buf2 = State.reset.buf2 := rfl
@[simp] theorem State.hardReset_buf3 (s : State) : (s.hardReset).buf3 = State.reset.buf3 := rfl
@[simp] theorem State.hardReset_hc (s : State) : (s.hardReset).hc = State.reset.hc := rfl
@[simp] theorem State.hardReset_hr (s : State) : (s.hardReset).hr = State.reset.hr := rfl
@[simp] theorem State.hardReset_ic (s : State) : (s.hardReset).ic = State.reset.ic := rfl
@[simp] theorem State.hardReset_ir (s : State) : (s.hardReset).ir = State.reset.ir := rfl
@[simp] theorem State.hardReset_win (s : State) : (s.hardReset).win = State.reset.win := rfl
@[simp] theorem State.hardReset_acc (s : State) : (s.hardReset).acc = State.reset.acc := rfl

/-! ## `State.setBuf` -/

@[simp] theorem State.setBuf_params (s : State) (b : BufId) (q : Buf) : (s.setBuf b q).params = s.params := by cases b <;> rfl
@[simp] theorem State.setBuf_port (s : State) (b : BufId) (q : Buf) : (s.setBuf b q).port = s.port := by cases b <;> rfl
@[simp] theorem State.setBuf_resp (s : State) (b : BufId) (q : Buf) : (s.setBuf b q).resp = s.resp := by cases b <;> rfl
@[simp] theorem State.setBuf_resetIn (s : State) (b : BufId) (q : Buf) : (s.setBuf b q).resetIn = s.resetIn := by cases b <;> rfl
@[simp] theorem State.setBuf_draws (s : State) (b : BufId) (q : Buf) : (s.setBuf b q).draws = s.draws := by cases b <;> rfl
@[simp] theorem State.setBuf_eng (s : State) (b : BufId) (q : Buf) : (s.setBuf b q).eng = s.eng := by cases b <;> rfl
@[simp] theorem State.setBuf_primed (s : State) (b : BufId) (q : Buf) : (s.setBuf b q).primed = s.primed := by cases b <;> rfl
@[simp] theorem State.setBuf_oversize (s : State) (b : BufId) (q : Buf) : (s.setBuf b q).oversize = s.oversize := by cases b <;> rfl
@[simp] theorem State.setBuf_short (s : State) (b : BufId) (q : Buf) : (s.setBuf b q).short = s.short := by cases b <;> rfl
@[simp] theorem State.setBuf_maxIn (s : State) (b : BufId) (q : Buf) : (s.setBuf b q).maxIn = s.maxIn := by cases b <;> rfl
@[simp] theorem State.setBuf_factor (s : State) (b : BufId) (q : Buf) : (s.setBuf b q).factor = s.factor := by cases b <;> rfl
@[simp] theorem State.setBuf_segSize (s : State) (b : BufId) (q : Buf) : (s.setBuf b q).segSize = s.segSize := by cases b <;> rfl
@[simp] theorem State.setBuf_ctrl (s : State) (b : BufId) (q : Buf) : (s.setBuf b q).ctrl = s.ctrl := by cases b <;> rfl
@[simp] theorem State.setBuf_capMul0 (s : State) (b : BufId) (q : Buf) : (s.setBuf b q).capMul0 = s.capMul0 := by cases b <;> rfl
@[simp] theorem State.setBuf_capMul1 (s : State) (b : BufId) (q : Buf) : (s.setBuf b q).capMul1 = s.capMul1 := by cases b <;> rfl
@[simp] theorem State.setBuf_capMul2 (s : State) (b : BufId) (q : Buf) : (s.setBuf b q).capMul2 = s.capMul2 := by cases b <;> rfl
@[simp] theorem State.setBuf_capMul3 (s : State) (b : BufId) (q : Buf) : (s.setBuf b q).capMul3 = s.capMul3 := by cases b <;> rfl
@[simp] theorem State.setBuf_hpLen (s : State) (b : BufId) (q : Buf) : (s.setBuf b q).hpLen = s.hpLen := by cases b <;> rfl
@[simp] theorem State.setBuf_ipLen (s : State) (b : BufId) (q : Buf) : (s.setBuf b q).ipLen = s.ipLen := by cases b <;> rfl
@[simp] theorem State.setBuf_winLen (s : State) (b : BufId) (q : Buf) : (s.setBuf b q).winLen = s.winLen := by cases b <;> rfl
@[simp] theorem State.setBuf_fault (s : State) (b : BufId) (q : Buf) : (s.setBuf b q).fault = s.fault := by cases b <;> rfl
@[simp] theorem State.setBuf_faultInfo (s : State) (b : BufId) (q : Buf) : (s.setBuf b q).faultInfo = s.faultInfo := by cases b <;> rfl
@[simp] theorem State.setBuf_shortfall (s : State) (b : BufId) (q : Buf) : (s.setBuf b q).shortfall = s.shortfall := by cases b <;> rfl
@[simp] theorem State.setBuf_accPos (s : State) (b : BufId) (q : Buf) : (s.setBuf b q).accPos = s.accPos := by cases b <;> rfl
@[simp] theorem State.setBuf_hc (s : State) (b : BufId) (q : Buf) : (s.setBuf b q).hc = s.hc := by cases b <;> rfl
@[simp] theorem State.setBuf_hr (s : State) (b : BufId) (q : Buf) : (s.setBuf b q).hr = s.hr := by cases b <;> rfl
@[simp] theorem State.setBuf_ic (s : State) (b : BufId) (q : Buf) : (s.setBuf b q).ic = s.ic := by cases b <;> rfl
@[simp] theorem State.setBuf_ir (s : State) (b : BufId) (q : Buf) : (s.setBuf b q).ir = s.ir := by cases b <;> rfl
@[simp] theorem State.setBuf_win (s : State) (b : BufId) (q : Buf) : (s.setBuf b q).win = s.win := by cases b <;> rfl
@[simp] theorem State.setBuf_acc (s : State) (b : BufId) (q : Buf) : (s.setBuf b q).acc = s.acc := by cases b <;> rfl
@[simp] theorem State.setBuf_b0_buf0 (s : State) (q : Buf) : (s.setBuf .b0 q).buf0 = q := rfl
@[simp] theorem State.setBuf_b0_buf1 (s : State) (q : Buf) : (s.setBuf .b0 q).buf1 = s.buf1 := rfl
@[simp] theorem State.setBuf_b0_buf2 (s : State) (q : Buf) : (s.setBuf .b0 q).buf2 = s.buf2 := rfl
@[simp] theorem State.setBuf_b0_buf3 (s : State) (q : Buf) : (s.setBuf .b0 q).buf3 = s.buf3 := rfl
@[simp] theorem State.setBuf_b1_buf0 (s : State) (q : Buf) : (s.setBuf .b1 q).buf0 = s.buf0 := rfl
@[simp] theorem State.setBuf_b1_buf1 (s : State) (q : Buf) : (s.setBuf .b1 q).buf1 = q := rfl
@[simp] theorem State.setBuf_b1_buf2 (s : State) (q : Buf) : (s.setBuf .b1 q).buf2 = s.buf2 := rfl
@[simp] theorem State.setBuf_b1_buf3 (s : State) (q : Buf) : (s.setBuf .b1 q).buf3 = s.buf3 := rfl
@[simp] theorem State.setBuf_b2_buf0 (s : State) (q : Buf) : (s.setBuf .b2 q).buf0 = s.buf0 := rfl
@[simp] theorem State.setBuf_b2_buf1 (s : State) (q : Buf) : (s.setBuf .b2 q).buf1 = s.buf1 := rfl
@[simp] theorem State.setBuf_b2_buf2 (s : State) (q : Buf) : (s.setBuf .b2 q).buf2 = q := rfl
@[simp] theorem State.setBuf_b2_buf3 (s : State) (q : Buf) : (s.setBuf .b2 q).buf3 = s.buf3 := rfl
@[simp] theorem State.setBuf_b3_buf0 (s : State) (q : Buf) : (s.setBuf .b3 q).buf0 = s.buf0 := rfl
@[simp] theorem State.setBuf_b3_buf1 (s : State) (q : Buf) : (s.setBuf .b3 q).buf1 = s.buf1 := rfl
@[simp] theorem State.setBuf_b3_buf2 (s : State) (q : Buf) : (s.setBuf .b3 q).buf2 = s.buf2 := rfl
@[simp] theorem State.setBuf_b3_buf3 (s : State) (q : Buf) : (s.setBuf .b3 q).buf3 = q := rfl

@[simp] theorem State.buf_setBuf_self (s : State) (b : BufId) (q : Buf) : (s.setBuf b q).buf b = q := by cases b <;> rfl

@[simp] theorem State.buf_setBuf_of_ne (s : State) {b b' : BufId} (q : Buf) (h : b' ≠ b) :
    (s.setBuf b q).buf b' = s.buf b' := by cases b <;> cases b' <;> first | rfl | exact absurd rfl h

theorem State.buf_setBuf (s : State) (b b' : BufId) (q : Buf) :
    (s.setBuf b q).buf b' = if b' = b then q else s.buf b' := by
  by_cases h : b' = b
  · subst h; simp
  · simp [h]

@[simp] theorem State.setBuf_setBuf (s : State) (b : BufId) (q q' : Buf) :
    (s.setBuf b q).setBuf b q' = s.setBuf b q' := by cases b <;> rfl

@[simp] theorem State.setBuf_buf (s : State) (b : BufId) : s.setBuf b (s.buf b) = s := by cases b <;> rfl

/-! ## Buffers through the other updates -/

@[simp] theorem State.buf_emit (s : State) (ws : List Word) (b : BufId) : (s.emit ws).buf b = s.buf b := by cases b <;> rfl
@[simp] theorem State.buf_advance (s : State) (n : Nat) (b : BufId) : (s.advance n).buf b = s.buf b := by cases b <;> rfl
@[simp] theorem State.buf_setPrimed (s : State) (b : BufId) : (s.setPrimed).buf b = s.buf b := by cases b <;> rfl
@[simp] theorem State.buf_setOversize (s : State) (b : BufId) : (s.setOversize).buf b = s.buf b := by cases b <;> rfl
@[simp] theorem State.buf_setShort (s : State) (n : Nat) (b : BufId) : (s.setShort n).buf b = s.buf b := by cases b <;> rfl
@[simp] theorem State.buf_clearFlags (s : State) (b : BufId) : (s.clearFlags).buf b = s.buf b := by cases b <;> rfl
@[simp] theorem State.buf_loadHc (s : State) (n : BitVec 24) (ws : List Word) (b : BufId) : (s.loadHc n ws).buf b = s.buf b := by cases b <;> rfl
@[simp] theorem State.buf_loadIc (s : State) (n : BitVec 24) (ws : List Word) (b : BufId) : (s.loadIc n ws).buf b = s.buf b := by cases b <;> rfl
@[simp] theorem State.buf_loadWin (s : State) (n : BitVec 24) (ws : List Word) (b : BufId) : (s.loadWin n ws).buf b = s.buf b := by cases b <;> rfl
@[simp] theorem State.buf_setHr (s : State) (m : Memory) (b : BufId) : (s.setHr m).buf b = s.buf b := by cases b <;> rfl
@[simp] theorem State.buf_setIr (s : State) (m : Memory) (b : BufId) : (s.setIr m).buf b = s.buf b := by cases b <;> rfl
@[simp] theorem State.buf_setAcc (s : State) (m : Memory) (pos : Nat) (b : BufId) : (s.setAcc m pos).buf b = s.buf b := by cases b <;> rfl
@[simp] theorem State.buf_enterReady (s : State) (b : BufId) : (s.enterReady).buf b = s.buf b := by cases b <;> rfl
@[simp] theorem State.buf_latchFault (s : State) (fault info : Word) (b : BufId) : (s.latchFault fault info).buf b = s.buf b := by cases b <;> rfl

@[simp] theorem State.buf_reset (b : BufId) : State.reset.buf b = Buf.reset := by cases b <;> rfl

@[simp] theorem State.buf_toReset (s : State) (b : BufId) : s.toReset.buf b = Buf.reset := by cases b <;> rfl

@[simp] theorem State.buf_hardReset (s : State) (b : BufId) : s.hardReset.buf b = Buf.reset := by cases b <;> rfl

/-! ## Derived constants through the updates that leave the configuration -/

@[simp] theorem State.num_setBuf (s : State) (b : BufId) (q : Buf) : (s.setBuf b q).num = s.num := by cases b <;> rfl
@[simp] theorem State.num_emit (s : State) (ws : List Word) : (s.emit ws).num = s.num := rfl
@[simp] theorem State.num_setPrimed (s : State) : (s.setPrimed).num = s.num := rfl
@[simp] theorem State.num_setOversize (s : State) : (s.setOversize).num = s.num := rfl
@[simp] theorem State.num_setShort (s : State) (n : Nat) : (s.setShort n).num = s.num := rfl
@[simp] theorem State.num_setHr (s : State) (m : Memory) : (s.setHr m).num = s.num := rfl
@[simp] theorem State.num_setIr (s : State) (m : Memory) : (s.setIr m).num = s.num := rfl
@[simp] theorem State.num_setAcc (s : State) (m : Memory) (pos : Nat) : (s.setAcc m pos).num = s.num := rfl
@[simp] theorem State.num_clearFlags (s : State) : (s.clearFlags).num = s.num := rfl
@[simp] theorem State.num_enterReady (s : State) : (s.enterReady).num = s.num := rfl
@[simp] theorem State.num_latchFault (s : State) (fault info : Word) : (s.latchFault fault info).num = s.num := rfl
@[simp] theorem State.num_advance (s : State) (n : Nat) : (s.advance n).num = s.num := rfl
@[simp] theorem State.maxInCount_setBuf (s : State) (b : BufId) (q : Buf) : (s.setBuf b q).maxInCount = s.maxInCount := by cases b <;> rfl
@[simp] theorem State.maxInCount_emit (s : State) (ws : List Word) : (s.emit ws).maxInCount = s.maxInCount := rfl
@[simp] theorem State.maxInCount_setPrimed (s : State) : (s.setPrimed).maxInCount = s.maxInCount := rfl
@[simp] theorem State.maxInCount_setOversize (s : State) : (s.setOversize).maxInCount = s.maxInCount := rfl
@[simp] theorem State.maxInCount_setShort (s : State) (n : Nat) : (s.setShort n).maxInCount = s.maxInCount := rfl
@[simp] theorem State.maxInCount_setHr (s : State) (m : Memory) : (s.setHr m).maxInCount = s.maxInCount := rfl
@[simp] theorem State.maxInCount_setIr (s : State) (m : Memory) : (s.setIr m).maxInCount = s.maxInCount := rfl
@[simp] theorem State.maxInCount_setAcc (s : State) (m : Memory) (pos : Nat) : (s.setAcc m pos).maxInCount = s.maxInCount := rfl
@[simp] theorem State.maxInCount_clearFlags (s : State) : (s.clearFlags).maxInCount = s.maxInCount := rfl
@[simp] theorem State.maxInCount_enterReady (s : State) : (s.enterReady).maxInCount = s.maxInCount := rfl
@[simp] theorem State.maxInCount_latchFault (s : State) (fault info : Word) : (s.latchFault fault info).maxInCount = s.maxInCount := rfl
@[simp] theorem State.maxInCount_advance (s : State) (n : Nat) : (s.advance n).maxInCount = s.maxInCount := rfl
@[simp] theorem State.D_setBuf (s : State) (b : BufId) (q : Buf) : (s.setBuf b q).D = s.D := by cases b <;> rfl
@[simp] theorem State.D_emit (s : State) (ws : List Word) : (s.emit ws).D = s.D := rfl
@[simp] theorem State.D_setPrimed (s : State) : (s.setPrimed).D = s.D := rfl
@[simp] theorem State.D_setOversize (s : State) : (s.setOversize).D = s.D := rfl
@[simp] theorem State.D_setShort (s : State) (n : Nat) : (s.setShort n).D = s.D := rfl
@[simp] theorem State.D_setHr (s : State) (m : Memory) : (s.setHr m).D = s.D := rfl
@[simp] theorem State.D_setIr (s : State) (m : Memory) : (s.setIr m).D = s.D := rfl
@[simp] theorem State.D_setAcc (s : State) (m : Memory) (pos : Nat) : (s.setAcc m pos).D = s.D := rfl
@[simp] theorem State.D_clearFlags (s : State) : (s.clearFlags).D = s.D := rfl
@[simp] theorem State.D_enterReady (s : State) : (s.enterReady).D = s.D := rfl
@[simp] theorem State.D_latchFault (s : State) (fault info : Word) : (s.latchFault fault info).D = s.D := rfl
@[simp] theorem State.D_advance (s : State) (n : Nat) : (s.advance n).D = s.D := rfl
@[simp] theorem State.S_setBuf (s : State) (b : BufId) (q : Buf) : (s.setBuf b q).S = s.S := by cases b <;> rfl
@[simp] theorem State.S_emit (s : State) (ws : List Word) : (s.emit ws).S = s.S := rfl
@[simp] theorem State.S_setPrimed (s : State) : (s.setPrimed).S = s.S := rfl
@[simp] theorem State.S_setOversize (s : State) : (s.setOversize).S = s.S := rfl
@[simp] theorem State.S_setShort (s : State) (n : Nat) : (s.setShort n).S = s.S := rfl
@[simp] theorem State.S_setHr (s : State) (m : Memory) : (s.setHr m).S = s.S := rfl
@[simp] theorem State.S_setIr (s : State) (m : Memory) : (s.setIr m).S = s.S := rfl
@[simp] theorem State.S_setAcc (s : State) (m : Memory) (pos : Nat) : (s.setAcc m pos).S = s.S := rfl
@[simp] theorem State.S_clearFlags (s : State) : (s.clearFlags).S = s.S := rfl
@[simp] theorem State.S_enterReady (s : State) : (s.enterReady).S = s.S := rfl
@[simp] theorem State.S_latchFault (s : State) (fault info : Word) : (s.latchFault fault info).S = s.S := rfl
@[simp] theorem State.S_advance (s : State) (n : Nat) : (s.advance n).S = s.S := rfl
@[simp] theorem State.WS_setBuf (s : State) (b : BufId) (q : Buf) : (s.setBuf b q).WS = s.WS := by cases b <;> rfl
@[simp] theorem State.WS_emit (s : State) (ws : List Word) : (s.emit ws).WS = s.WS := rfl
@[simp] theorem State.WS_setPrimed (s : State) : (s.setPrimed).WS = s.WS := rfl
@[simp] theorem State.WS_setOversize (s : State) : (s.setOversize).WS = s.WS := rfl
@[simp] theorem State.WS_setShort (s : State) (n : Nat) : (s.setShort n).WS = s.WS := rfl
@[simp] theorem State.WS_setHr (s : State) (m : Memory) : (s.setHr m).WS = s.WS := rfl
@[simp] theorem State.WS_setIr (s : State) (m : Memory) : (s.setIr m).WS = s.WS := rfl
@[simp] theorem State.WS_setAcc (s : State) (m : Memory) (pos : Nat) : (s.setAcc m pos).WS = s.WS := rfl
@[simp] theorem State.WS_clearFlags (s : State) : (s.clearFlags).WS = s.WS := rfl
@[simp] theorem State.WS_enterReady (s : State) : (s.enterReady).WS = s.WS := rfl
@[simp] theorem State.WS_latchFault (s : State) (fault info : Word) : (s.latchFault fault info).WS = s.WS := rfl
@[simp] theorem State.WS_advance (s : State) (n : Nat) : (s.advance n).WS = s.WS := rfl
@[simp] theorem State.A_setBuf (s : State) (b : BufId) (q : Buf) : (s.setBuf b q).A = s.A := by cases b <;> rfl
@[simp] theorem State.A_emit (s : State) (ws : List Word) : (s.emit ws).A = s.A := rfl
@[simp] theorem State.A_setPrimed (s : State) : (s.setPrimed).A = s.A := rfl
@[simp] theorem State.A_setOversize (s : State) : (s.setOversize).A = s.A := rfl
@[simp] theorem State.A_setShort (s : State) (n : Nat) : (s.setShort n).A = s.A := rfl
@[simp] theorem State.A_setHr (s : State) (m : Memory) : (s.setHr m).A = s.A := rfl
@[simp] theorem State.A_setIr (s : State) (m : Memory) : (s.setIr m).A = s.A := rfl
@[simp] theorem State.A_setAcc (s : State) (m : Memory) (pos : Nat) : (s.setAcc m pos).A = s.A := rfl
@[simp] theorem State.A_clearFlags (s : State) : (s.clearFlags).A = s.A := rfl
@[simp] theorem State.A_enterReady (s : State) : (s.enterReady).A = s.A := rfl
@[simp] theorem State.A_latchFault (s : State) (fault info : Word) : (s.latchFault fault info).A = s.A := rfl
@[simp] theorem State.A_advance (s : State) (n : Nat) : (s.advance n).A = s.A := rfl
@[simp] theorem State.hpEn_setBuf (s : State) (b : BufId) (q : Buf) : (s.setBuf b q).hpEn = s.hpEn := by cases b <;> rfl
@[simp] theorem State.hpEn_emit (s : State) (ws : List Word) : (s.emit ws).hpEn = s.hpEn := rfl
@[simp] theorem State.hpEn_setPrimed (s : State) : (s.setPrimed).hpEn = s.hpEn := rfl
@[simp] theorem State.hpEn_setOversize (s : State) : (s.setOversize).hpEn = s.hpEn := rfl
@[simp] theorem State.hpEn_setShort (s : State) (n : Nat) : (s.setShort n).hpEn = s.hpEn := rfl
@[simp] theorem State.hpEn_setHr (s : State) (m : Memory) : (s.setHr m).hpEn = s.hpEn := rfl
@[simp] theorem State.hpEn_setIr (s : State) (m : Memory) : (s.setIr m).hpEn = s.hpEn := rfl
@[simp] theorem State.hpEn_setAcc (s : State) (m : Memory) (pos : Nat) : (s.setAcc m pos).hpEn = s.hpEn := rfl
@[simp] theorem State.hpEn_clearFlags (s : State) : (s.clearFlags).hpEn = s.hpEn := rfl
@[simp] theorem State.hpEn_enterReady (s : State) : (s.enterReady).hpEn = s.hpEn := rfl
@[simp] theorem State.hpEn_latchFault (s : State) (fault info : Word) : (s.latchFault fault info).hpEn = s.hpEn := rfl
@[simp] theorem State.hpEn_advance (s : State) (n : Nat) : (s.advance n).hpEn = s.hpEn := rfl
@[simp] theorem State.LH_setBuf (s : State) (b : BufId) (q : Buf) : (s.setBuf b q).LH = s.LH := by cases b <;> rfl
@[simp] theorem State.LH_emit (s : State) (ws : List Word) : (s.emit ws).LH = s.LH := rfl
@[simp] theorem State.LH_setPrimed (s : State) : (s.setPrimed).LH = s.LH := rfl
@[simp] theorem State.LH_setOversize (s : State) : (s.setOversize).LH = s.LH := rfl
@[simp] theorem State.LH_setShort (s : State) (n : Nat) : (s.setShort n).LH = s.LH := rfl
@[simp] theorem State.LH_setHr (s : State) (m : Memory) : (s.setHr m).LH = s.LH := rfl
@[simp] theorem State.LH_setIr (s : State) (m : Memory) : (s.setIr m).LH = s.LH := rfl
@[simp] theorem State.LH_setAcc (s : State) (m : Memory) (pos : Nat) : (s.setAcc m pos).LH = s.LH := rfl
@[simp] theorem State.LH_clearFlags (s : State) : (s.clearFlags).LH = s.LH := rfl
@[simp] theorem State.LH_enterReady (s : State) : (s.enterReady).LH = s.LH := rfl
@[simp] theorem State.LH_latchFault (s : State) (fault info : Word) : (s.latchFault fault info).LH = s.LH := rfl
@[simp] theorem State.LH_advance (s : State) (n : Nat) : (s.advance n).LH = s.LH := rfl
@[simp] theorem State.N_setBuf (s : State) (b : BufId) (q : Buf) : (s.setBuf b q).N = s.N := by cases b <;> rfl
@[simp] theorem State.N_emit (s : State) (ws : List Word) : (s.emit ws).N = s.N := rfl
@[simp] theorem State.N_setPrimed (s : State) : (s.setPrimed).N = s.N := rfl
@[simp] theorem State.N_setOversize (s : State) : (s.setOversize).N = s.N := rfl
@[simp] theorem State.N_setShort (s : State) (n : Nat) : (s.setShort n).N = s.N := rfl
@[simp] theorem State.N_setHr (s : State) (m : Memory) : (s.setHr m).N = s.N := rfl
@[simp] theorem State.N_setIr (s : State) (m : Memory) : (s.setIr m).N = s.N := rfl
@[simp] theorem State.N_setAcc (s : State) (m : Memory) (pos : Nat) : (s.setAcc m pos).N = s.N := rfl
@[simp] theorem State.N_clearFlags (s : State) : (s.clearFlags).N = s.N := rfl
@[simp] theorem State.N_enterReady (s : State) : (s.enterReady).N = s.N := rfl
@[simp] theorem State.N_latchFault (s : State) (fault info : Word) : (s.latchFault fault info).N = s.N := rfl
@[simp] theorem State.N_advance (s : State) (n : Nat) : (s.advance n).N = s.N := rfl
@[simp] theorem State.winCount_setBuf (s : State) (b : BufId) (q : Buf) : (s.setBuf b q).winCount = s.winCount := by cases b <;> rfl
@[simp] theorem State.winCount_emit (s : State) (ws : List Word) : (s.emit ws).winCount = s.winCount := rfl
@[simp] theorem State.winCount_setPrimed (s : State) : (s.setPrimed).winCount = s.winCount := rfl
@[simp] theorem State.winCount_setOversize (s : State) : (s.setOversize).winCount = s.winCount := rfl
@[simp] theorem State.winCount_setShort (s : State) (n : Nat) : (s.setShort n).winCount = s.winCount := rfl
@[simp] theorem State.winCount_setHr (s : State) (m : Memory) : (s.setHr m).winCount = s.winCount := rfl
@[simp] theorem State.winCount_setIr (s : State) (m : Memory) : (s.setIr m).winCount = s.winCount := rfl
@[simp] theorem State.winCount_setAcc (s : State) (m : Memory) (pos : Nat) : (s.setAcc m pos).winCount = s.winCount := rfl
@[simp] theorem State.winCount_clearFlags (s : State) : (s.clearFlags).winCount = s.winCount := rfl
@[simp] theorem State.winCount_enterReady (s : State) : (s.enterReady).winCount = s.winCount := rfl
@[simp] theorem State.winCount_latchFault (s : State) (fault info : Word) : (s.latchFault fault info).winCount = s.winCount := rfl
@[simp] theorem State.winCount_advance (s : State) (n : Nat) : (s.advance n).winCount = s.winCount := rfl
@[simp] theorem State.R_setBuf (s : State) (b : BufId) (q : Buf) : (s.setBuf b q).R = s.R := by cases b <;> rfl
@[simp] theorem State.R_emit (s : State) (ws : List Word) : (s.emit ws).R = s.R := rfl
@[simp] theorem State.R_setPrimed (s : State) : (s.setPrimed).R = s.R := rfl
@[simp] theorem State.R_setOversize (s : State) : (s.setOversize).R = s.R := rfl
@[simp] theorem State.R_setShort (s : State) (n : Nat) : (s.setShort n).R = s.R := rfl
@[simp] theorem State.R_setHr (s : State) (m : Memory) : (s.setHr m).R = s.R := rfl
@[simp] theorem State.R_setIr (s : State) (m : Memory) : (s.setIr m).R = s.R := rfl
@[simp] theorem State.R_setAcc (s : State) (m : Memory) (pos : Nat) : (s.setAcc m pos).R = s.R := rfl
@[simp] theorem State.R_clearFlags (s : State) : (s.clearFlags).R = s.R := rfl
@[simp] theorem State.R_enterReady (s : State) : (s.enterReady).R = s.R := rfl
@[simp] theorem State.R_latchFault (s : State) (fault info : Word) : (s.latchFault fault info).R = s.R := rfl
@[simp] theorem State.R_advance (s : State) (n : Nat) : (s.advance n).R = s.R := rfl
@[simp] theorem State.intIn_setBuf (s : State) (b : BufId) (q : Buf) : (s.setBuf b q).intIn = s.intIn := by cases b <;> rfl
@[simp] theorem State.intIn_emit (s : State) (ws : List Word) : (s.emit ws).intIn = s.intIn := rfl
@[simp] theorem State.intIn_setPrimed (s : State) : (s.setPrimed).intIn = s.intIn := rfl
@[simp] theorem State.intIn_setOversize (s : State) : (s.setOversize).intIn = s.intIn := rfl
@[simp] theorem State.intIn_setShort (s : State) (n : Nat) : (s.setShort n).intIn = s.intIn := rfl
@[simp] theorem State.intIn_setHr (s : State) (m : Memory) : (s.setHr m).intIn = s.intIn := rfl
@[simp] theorem State.intIn_setIr (s : State) (m : Memory) : (s.setIr m).intIn = s.intIn := rfl
@[simp] theorem State.intIn_setAcc (s : State) (m : Memory) (pos : Nat) : (s.setAcc m pos).intIn = s.intIn := rfl
@[simp] theorem State.intIn_clearFlags (s : State) : (s.clearFlags).intIn = s.intIn := rfl
@[simp] theorem State.intIn_enterReady (s : State) : (s.enterReady).intIn = s.intIn := rfl
@[simp] theorem State.intIn_latchFault (s : State) (fault info : Word) : (s.latchFault fault info).intIn = s.intIn := rfl
@[simp] theorem State.intIn_advance (s : State) (n : Nat) : (s.advance n).intIn = s.intIn := rfl

/-! ## Taking a fault -/

theorem State.takeFault_of_faulted (s : State) (op : BitVec 6) (t : Trap) (h : s.eng = .faulted) :
    s.takeFault op t = s.emit [errWord t.cause] := by rw [State.takeFault, h]

theorem State.takeFault_of_not_faulted (s : State) (op : BitVec 6) (t : Trap) (h : s.eng ≠ .faulted) :
    s.takeFault op t =
      (s.latchFault (faultWord op t.buf.bits t.cause) (BitVec.ofNat 32 t.info)).emit [errWord t.cause] := by
  cases e : s.eng
  · rw [State.takeFault, e]
  · rw [State.takeFault, e]
  · exact absurd e h

theorem State.takeFault_eng (s : State) (op : BitVec 6) (t : Trap) : (s.takeFault op t).eng = .faulted := by
  by_cases h : s.eng = .faulted
  · rw [State.takeFault_of_faulted s op t h]; exact h
  · rw [State.takeFault_of_not_faulted s op t h]; rfl

@[simp] theorem State.takeFault_resp (s : State) (op : BitVec 6) (t : Trap) :
    (s.takeFault op t).resp = s.resp ++ [errWord t.cause] := by
  unfold State.takeFault; split <;> rfl

@[simp] theorem State.num_takeFault (s : State) (op : BitVec 6) (t : Trap) : (s.takeFault op t).num = s.num := by unfold State.takeFault; split <;> rfl
@[simp] theorem State.maxInCount_takeFault (s : State) (op : BitVec 6) (t : Trap) : (s.takeFault op t).maxInCount = s.maxInCount := by unfold State.takeFault; split <;> rfl
@[simp] theorem State.D_takeFault (s : State) (op : BitVec 6) (t : Trap) : (s.takeFault op t).D = s.D := by unfold State.takeFault; split <;> rfl
@[simp] theorem State.S_takeFault (s : State) (op : BitVec 6) (t : Trap) : (s.takeFault op t).S = s.S := by unfold State.takeFault; split <;> rfl
@[simp] theorem State.WS_takeFault (s : State) (op : BitVec 6) (t : Trap) : (s.takeFault op t).WS = s.WS := by unfold State.takeFault; split <;> rfl
@[simp] theorem State.A_takeFault (s : State) (op : BitVec 6) (t : Trap) : (s.takeFault op t).A = s.A := by unfold State.takeFault; split <;> rfl
@[simp] theorem State.hpEn_takeFault (s : State) (op : BitVec 6) (t : Trap) : (s.takeFault op t).hpEn = s.hpEn := by unfold State.takeFault; split <;> rfl
@[simp] theorem State.LH_takeFault (s : State) (op : BitVec 6) (t : Trap) : (s.takeFault op t).LH = s.LH := by unfold State.takeFault; split <;> rfl
@[simp] theorem State.N_takeFault (s : State) (op : BitVec 6) (t : Trap) : (s.takeFault op t).N = s.N := by unfold State.takeFault; split <;> rfl
@[simp] theorem State.winCount_takeFault (s : State) (op : BitVec 6) (t : Trap) : (s.takeFault op t).winCount = s.winCount := by unfold State.takeFault; split <;> rfl
@[simp] theorem State.R_takeFault (s : State) (op : BitVec 6) (t : Trap) : (s.takeFault op t).R = s.R := by unfold State.takeFault; split <;> rfl
@[simp] theorem State.intIn_takeFault (s : State) (op : BitVec 6) (t : Trap) : (s.takeFault op t).intIn = s.intIn := by unfold State.takeFault; split <;> rfl
@[simp] theorem State.takeFault_params (s : State) (op : BitVec 6) (t : Trap) : (s.takeFault op t).params = s.params := by unfold State.takeFault; split <;> rfl
@[simp] theorem State.takeFault_port (s : State) (op : BitVec 6) (t : Trap) : (s.takeFault op t).port = s.port := by unfold State.takeFault; split <;> rfl
@[simp] theorem State.takeFault_resetIn (s : State) (op : BitVec 6) (t : Trap) : (s.takeFault op t).resetIn = s.resetIn := by unfold State.takeFault; split <;> rfl
@[simp] theorem State.takeFault_draws (s : State) (op : BitVec 6) (t : Trap) : (s.takeFault op t).draws = s.draws := by unfold State.takeFault; split <;> rfl
@[simp] theorem State.takeFault_primed (s : State) (op : BitVec 6) (t : Trap) : (s.takeFault op t).primed = s.primed := by unfold State.takeFault; split <;> rfl
@[simp] theorem State.takeFault_oversize (s : State) (op : BitVec 6) (t : Trap) : (s.takeFault op t).oversize = s.oversize := by unfold State.takeFault; split <;> rfl
@[simp] theorem State.takeFault_short (s : State) (op : BitVec 6) (t : Trap) : (s.takeFault op t).short = s.short := by unfold State.takeFault; split <;> rfl
@[simp] theorem State.takeFault_maxIn (s : State) (op : BitVec 6) (t : Trap) : (s.takeFault op t).maxIn = s.maxIn := by unfold State.takeFault; split <;> rfl
@[simp] theorem State.takeFault_factor (s : State) (op : BitVec 6) (t : Trap) : (s.takeFault op t).factor = s.factor := by unfold State.takeFault; split <;> rfl
@[simp] theorem State.takeFault_segSize (s : State) (op : BitVec 6) (t : Trap) : (s.takeFault op t).segSize = s.segSize := by unfold State.takeFault; split <;> rfl
@[simp] theorem State.takeFault_ctrl (s : State) (op : BitVec 6) (t : Trap) : (s.takeFault op t).ctrl = s.ctrl := by unfold State.takeFault; split <;> rfl
@[simp] theorem State.takeFault_capMul0 (s : State) (op : BitVec 6) (t : Trap) : (s.takeFault op t).capMul0 = s.capMul0 := by unfold State.takeFault; split <;> rfl
@[simp] theorem State.takeFault_capMul1 (s : State) (op : BitVec 6) (t : Trap) : (s.takeFault op t).capMul1 = s.capMul1 := by unfold State.takeFault; split <;> rfl
@[simp] theorem State.takeFault_capMul2 (s : State) (op : BitVec 6) (t : Trap) : (s.takeFault op t).capMul2 = s.capMul2 := by unfold State.takeFault; split <;> rfl
@[simp] theorem State.takeFault_capMul3 (s : State) (op : BitVec 6) (t : Trap) : (s.takeFault op t).capMul3 = s.capMul3 := by unfold State.takeFault; split <;> rfl
@[simp] theorem State.takeFault_hpLen (s : State) (op : BitVec 6) (t : Trap) : (s.takeFault op t).hpLen = s.hpLen := by unfold State.takeFault; split <;> rfl
@[simp] theorem State.takeFault_ipLen (s : State) (op : BitVec 6) (t : Trap) : (s.takeFault op t).ipLen = s.ipLen := by unfold State.takeFault; split <;> rfl
@[simp] theorem State.takeFault_winLen (s : State) (op : BitVec 6) (t : Trap) : (s.takeFault op t).winLen = s.winLen := by unfold State.takeFault; split <;> rfl
@[simp] theorem State.takeFault_shortfall (s : State) (op : BitVec 6) (t : Trap) : (s.takeFault op t).shortfall = s.shortfall := by unfold State.takeFault; split <;> rfl
@[simp] theorem State.takeFault_accPos (s : State) (op : BitVec 6) (t : Trap) : (s.takeFault op t).accPos = s.accPos := by unfold State.takeFault; split <;> rfl
@[simp] theorem State.takeFault_buf0 (s : State) (op : BitVec 6) (t : Trap) : (s.takeFault op t).buf0 = s.buf0 := by unfold State.takeFault; split <;> rfl
@[simp] theorem State.takeFault_buf1 (s : State) (op : BitVec 6) (t : Trap) : (s.takeFault op t).buf1 = s.buf1 := by unfold State.takeFault; split <;> rfl
@[simp] theorem State.takeFault_buf2 (s : State) (op : BitVec 6) (t : Trap) : (s.takeFault op t).buf2 = s.buf2 := by unfold State.takeFault; split <;> rfl
@[simp] theorem State.takeFault_buf3 (s : State) (op : BitVec 6) (t : Trap) : (s.takeFault op t).buf3 = s.buf3 := by unfold State.takeFault; split <;> rfl
@[simp] theorem State.takeFault_hc (s : State) (op : BitVec 6) (t : Trap) : (s.takeFault op t).hc = s.hc := by unfold State.takeFault; split <;> rfl
@[simp] theorem State.takeFault_hr (s : State) (op : BitVec 6) (t : Trap) : (s.takeFault op t).hr = s.hr := by unfold State.takeFault; split <;> rfl
@[simp] theorem State.takeFault_ic (s : State) (op : BitVec 6) (t : Trap) : (s.takeFault op t).ic = s.ic := by unfold State.takeFault; split <;> rfl
@[simp] theorem State.takeFault_ir (s : State) (op : BitVec 6) (t : Trap) : (s.takeFault op t).ir = s.ir := by unfold State.takeFault; split <;> rfl
@[simp] theorem State.takeFault_win (s : State) (op : BitVec 6) (t : Trap) : (s.takeFault op t).win = s.win := by unfold State.takeFault; split <;> rfl
@[simp] theorem State.takeFault_acc (s : State) (op : BitVec 6) (t : Trap) : (s.takeFault op t).acc = s.acc := by unfold State.takeFault; split <;> rfl

@[simp] theorem State.buf_takeFault (s : State) (op : BitVec 6) (t : Trap) (b : BufId) :
    (s.takeFault op t).buf b = s.buf b := by unfold State.takeFault; split <;> cases b <;> rfl

end Sys2Proof.Machine
end

