-- ==== Sys2Proof/Laws/Ops.lean ====
section
/-! SUPPORT. What each shared operation can do, said once: the micro-operations on a buffer, `extend`, `append` and
`discard` on the state, gating, and the end of a command. -/

namespace Sys2Proof.Machine

/-! ## A buffer's descriptor and live samples -/

@[simp] theorem Buf.cap_makeRoom (q : Buf) (n : Nat) : (q.makeRoom n).cap = q.cap := by
  unfold Buf.makeRoom; split <;> rfl

@[simp] theorem Buf.size_makeRoom (q : Buf) (n : Nat) : (q.makeRoom n).size = q.size := by
  unfold Buf.makeRoom; split
  · simp [Buf.compact, Buf.size]
  · rfl

@[simp] theorem Buf.startIndex_makeRoom (q : Buf) (n : Nat) : (q.makeRoom n).startIndex = q.startIndex := by
  unfold Buf.makeRoom; split
  · simp [Buf.compact, Buf.startIndex]
  · rfl

theorem Buf.endIndex_eq {q : Buf} (h : q.ds ≤ q.de) : q.endIndex = q.startIndex + BitVec.ofNat 64 q.size := by
  rw [Buf.endIndex, Buf.startIndex, Buf.size, BitVec.add_assoc, ← BitVec.ofNat_add]
  congr 2; omega

theorem Buf.ds_le_makeRoom {q : Buf} (h : q.ds ≤ q.de) (n : Nat) : (q.makeRoom n).ds ≤ (q.makeRoom n).de := by
  unfold Buf.makeRoom; split
  · exact Nat.zero_le _
  · exact h

/-- After compaction the new slots fit under the capacity. -/
theorem Buf.makeRoom_fits {q : Buf} {n : Nat} (h : q.size + n ≤ q.cap) : (q.makeRoom n).de + n ≤ q.cap := by
  unfold Buf.makeRoom; split
  · exact h
  · omega

theorem Buf.data?_eq_none {q : Buf} {k : Nat} (h : q.size ≤ k) : q.data? k = none := by
  rw [Buf.data?, Buf.slot?, if_neg]
  rw [Buf.size] at h; omega

theorem Buf.data?_of_lt {q : Buf} {k : Nat} (h : k < q.size) : q.data? k = q.store.read (q.ds + k) := by
  rw [Buf.data?, Buf.slot?, if_pos]
  rw [Buf.size] at h; omega

/-- Compaction keeps every live sample, in order (R110). -/
@[simp] theorem Buf.data?_makeRoom (q : Buf) (n k : Nat) : (q.makeRoom n).data? k = q.data? k := by
  by_cases h : k < q.size
  · rw [Buf.data?_of_lt h, Buf.data?_of_lt (by simpa using h)]
    unfold Buf.makeRoom; split
    · rw [Buf.size] at h
      simp only [Buf.compact, Memory.read_shiftDown, Nat.zero_add]
      rw [if_pos h]
    · rfl
  · rw [Buf.data?_eq_none (q := q.makeRoom n) (by rw [Buf.size_makeRoom]; omega), Buf.data?_eq_none (by omega)]

@[simp] theorem Buf.cap_reserve (q : Buf) (n : Nat) : (q.reserve n).cap = q.cap := rfl
@[simp] theorem Buf.ds_reserve (q : Buf) (n : Nat) : (q.reserve n).ds = q.ds := rfl
@[simp] theorem Buf.de_reserve (q : Buf) (n : Nat) : (q.reserve n).de = q.de + n := rfl
@[simp] theorem Buf.bsi_reserve (q : Buf) (n : Nat) : (q.reserve n).bsi = q.bsi := rfl
@[simp] theorem Buf.startIndex_reserve (q : Buf) (n : Nat) : (q.reserve n).startIndex = q.startIndex := rfl

theorem Buf.size_reserve {q : Buf} (h : q.ds ≤ q.de) (n : Nat) : (q.reserve n).size = q.size + n := by
  simp only [Buf.size, Buf.de_reserve, Buf.ds_reserve]; omega

/-- Reserved slots are unspecified; the others are as before (R25). -/
theorem Buf.data?_reserve {q : Buf} (h : q.ds ≤ q.de) (n k : Nat) : (q.reserve n).data? k = q.data? k := by
  have hs := Buf.size_reserve h n
  by_cases hk : k < q.size + n
  · rw [Buf.data?_of_lt (by omega)]
    simp only [Buf.reserve, Memory.read_forget]
    by_cases hk' : k < q.size
    · rw [Buf.data?_of_lt hk', if_neg]
      rw [Buf.size] at hk'; omega
    · rw [Buf.data?_eq_none (by omega), if_pos]
      rw [Buf.size] at hk hk'; omega
  · rw [Buf.data?_eq_none (by omega), Buf.data?_eq_none (by omega)]

@[simp] theorem Buf.cap_fill (q : Buf) (p : Nat) (ws : List Word) : (q.fill p ws).cap = q.cap := rfl
@[simp] theorem Buf.ds_fill (q : Buf) (p : Nat) (ws : List Word) : (q.fill p ws).ds = q.ds := rfl
@[simp] theorem Buf.de_fill (q : Buf) (p : Nat) (ws : List Word) : (q.fill p ws).de = q.de := rfl
@[simp] theorem Buf.bsi_fill (q : Buf) (p : Nat) (ws : List Word) : (q.fill p ws).bsi = q.bsi := rfl
@[simp] theorem Buf.size_fill (q : Buf) (p : Nat) (ws : List Word) : (q.fill p ws).size = q.size := rfl
@[simp] theorem Buf.startIndex_fill (q : Buf) (p : Nat) (ws : List Word) :
    (q.fill p ws).startIndex = q.startIndex := rfl

/-- The samples after words were written to live slots. -/
theorem Buf.data?_fill {q : Buf} {j : Nat} {ws : List Word} (h : j + ws.length ≤ q.size) (k : Nat) :
    (q.fill (q.ds + j) ws).data? k = if j ≤ k ∧ k < j + ws.length then ws[k - j]? else q.data? k := by
  by_cases hk : k < q.size
  · rw [Buf.data?_of_lt (by simpa using hk), Buf.data?_of_lt hk]
    simp only [Buf.fill, Memory.read_fill]
    by_cases hj : j ≤ k ∧ k < j + ws.length
    · rw [if_pos hj, if_pos (by omega)]
      congr 1; omega
    · rw [if_neg hj, if_neg (by omega)]
  · rw [Buf.data?_eq_none (q := q.fill _ _) (by simp; omega), Buf.data?_eq_none (by omega), if_neg (by omega)]

@[simp] theorem Buf.cap_consume (q : Buf) (n : Nat) : (q.consume n).cap = q.cap := rfl
@[simp] theorem Buf.ds_consume (q : Buf) (n : Nat) : (q.consume n).ds = q.ds + n := rfl
@[simp] theorem Buf.de_consume (q : Buf) (n : Nat) : (q.consume n).de = q.de := rfl
@[simp] theorem Buf.bsi_consume (q : Buf) (n : Nat) : (q.consume n).bsi = q.bsi := rfl
@[simp] theorem Buf.store_consume (q : Buf) (n : Nat) : (q.consume n).store = q.store := rfl

@[simp] theorem Buf.size_consume (q : Buf) (n : Nat) : (q.consume n).size = q.size - n := by
  simp only [Buf.size, Buf.consume]; omega

@[simp] theorem Buf.endIndex_consume (q : Buf) (n : Nat) : (q.consume n).endIndex = q.endIndex := rfl

theorem Buf.startIndex_consume (q : Buf) (n : Nat) :
    (q.consume n).startIndex = q.startIndex + BitVec.ofNat 64 n := by
  simp [Buf.startIndex, Buf.consume, BitVec.ofNat_add, BitVec.add_assoc]

/-- After a discard the oldest samples are gone and the others follow in order (R113). -/
theorem Buf.data?_consume (q : Buf) (n k : Nat) : (q.consume n).data? k = q.data? (n + k) := by
  by_cases h : n + k < q.size
  · rw [Buf.data?_of_lt h, Buf.data?_of_lt (by simp; omega)]
    simp [Nat.add_assoc]
  · rw [Buf.data?_eq_none (q := q.consume n) (by rw [Buf.size_consume]; omega), Buf.data?_eq_none (by omega)]

/-! ## `extend`, `append`, `discard` -/

/-- A buffer after `append` of the words `v` to `n` new slots (R111). -/
abbrev Buf.appended (q : Buf) (n : Nat) (v : List Word) : Buf :=
  ((q.makeRoom n).reserve n).fill (q.makeRoom n).de (v.take n)

theorem Buf.size_extended {q : Buf} (h : q.ds ≤ q.de) (n : Nat) : ((q.makeRoom n).reserve n).size = q.size + n := by
  rw [Buf.size_reserve (Buf.ds_le_makeRoom h n), Buf.size_makeRoom]

theorem Buf.data?_extended {q : Buf} (h : q.ds ≤ q.de) (n k : Nat) : ((q.makeRoom n).reserve n).data? k = q.data? k := by
  rw [Buf.data?_reserve (Buf.ds_le_makeRoom h n), Buf.data?_makeRoom]

theorem Buf.size_appended {q : Buf} (h : q.ds ≤ q.de) (n : Nat) (v : List Word) : (q.appended n v).size = q.size + n := by
  rw [Buf.appended, Buf.size_fill, Buf.size_extended h]

theorem Buf.makeRoom_de {q : Buf} (h : q.ds ≤ q.de) (n : Nat) :
    (q.makeRoom n).de = (q.makeRoom n).ds + q.size := by
  have h1 := Buf.ds_le_makeRoom h n
  have h2 := Buf.size_makeRoom q n
  rw [Buf.size] at h2; omega

/-- The samples after an append: the old ones, then the new words bit for bit (R65, R111). -/
theorem Buf.data?_appended {q : Buf} (h : q.ds ≤ q.de) (n : Nat) (v : List Word) (k : Nat) :
    (q.appended n v).data? k = if q.size ≤ k ∧ k < q.size + n then v[k - q.size]? else q.data? k := by
  have hde := Buf.makeRoom_de h n
  have hsz := Buf.size_extended h n
  have hlen : (v.take n).length ≤ n := by rw [List.length_take]; exact Nat.min_le_left ..
  rw [Buf.appended, hde, show (q.makeRoom n).ds = ((q.makeRoom n).reserve n).ds from rfl,
    Buf.data?_fill (by omega), Buf.data?_extended h]
  by_cases h1 : q.size ≤ k ∧ k < q.size + n
  · rw [if_pos h1]
    by_cases h2 : k < q.size + (v.take n).length
    · rw [if_pos ⟨h1.1, h2⟩, List.getElem?_take_of_lt (by omega)]
    · rw [if_neg (by omega), Buf.data?_eq_none h1.1, List.getElem?_eq_none]
      rw [List.length_take] at h2; omega
  · rw [if_neg h1, if_neg (by omega)]

/-- `extend` completes exactly when the new size fits the capacity (R110). -/
theorem extend_of_le {s : State} {b : BufId} {n : Nat} (h : s.size b + n ≤ (s.buf b).cap) :
    extend s b n =
      .done ((s.buf b).makeRoom n).de (s.setBuf b (((s.buf b).makeRoom n).reserve n)) := by
  rw [extend, if_neg]
  rw [State.size] at h; omega

/-- `extend` raises `Overflow(b, n)` and changes nothing when the new size does not fit (R110, R201). -/
theorem extend_of_lt {s : State} {b : BufId} {n : Nat} (h : (s.buf b).cap < s.size b + n) :
    extend s b n = .raised { cause := .overflow, buf := b, info := n } s := by
  rw [extend, if_pos]
  exact h

theorem append_of_le {s : State} {b : BufId} {n : Nat} (v : List Word) (h : s.size b + n ≤ (s.buf b).cap) :
    append s b n v = .done () (s.setBuf b ((s.buf b).appended n v)) := by
  rw [append, extend_of_le h]
  simp [Run.bind]

theorem append_of_lt {s : State} {b : BufId} {n : Nat} (v : List Word) (h : (s.buf b).cap < s.size b + n) :
    append s b n v = .raised { cause := .overflow, buf := b, info := n } s := by
  rw [append, extend_of_lt h]
  rfl

theorem discard_of_le {s : State} {b : BufId} {n : Nat} (h : n ≤ s.size b) :
    discard s b n = .done () (s.setBuf b ((s.buf b).consume n)) := by
  rw [discard, if_neg (by omega)]

theorem discard_of_lt {s : State} {b : BufId} {n : Nat} (h : s.size b < n) :
    discard s b n = .raised { cause := .underflow, buf := b, info := n } s := by
  rw [discard, if_pos h]

/-! ## Gating and the end of a command -/

theorem whenReady_of_ready {s : State} (body : Run Answer) (h : s.eng = .ready) : whenReady s body = body := by
  rw [whenReady, h]

theorem whenReady_of_ne {s : State} (body : Run Answer) (h : s.eng ≠ .ready) :
    whenReady s body = .raised { cause := .state, buf := .b0, info := 0 } s := by
  cases e : s.eng <;> simp_all [whenReady]

theorem whenUnconfigured_of_unconfigured {s : State} (info : Nat) (body : Run Answer) (h : s.eng = .unconfigured) :
    whenUnconfigured info s body = body := by
  rw [whenUnconfigured, h]

theorem whenUnconfigured_of_ne {s : State} (info : Nat) (body : Run Answer) (h : s.eng ≠ .unconfigured) :
    whenUnconfigured info s body = .raised { cause := .state, buf := .b0, info := info } s := by
  cases e : s.eng <;> simp_all [whenUnconfigured]

@[simp] theorem Run.bind_done {α β : Type} (a : α) (s : State) (f : α → State → Run β) :
    (Run.done a s).bind f = f a s := rfl

@[simp] theorem Run.bind_raised {α β : Type} (t : Trap) (s : State) (f : α → State → Run β) :
    (Run.raised t s).bind f = .raised t s := rfl

@[simp] theorem finish_done (op : BitVec 6) (a : Answer) (s : State) :
    finish op (.done a s) = s.emit (okWord a.result :: a.data) := rfl

/-- The status word of an OK response with result 0. -/
@[simp] theorem okWord_zero : okWord 0 = 0x00000000 := by decide

/-- `RESULT` of an OK response is the count where it fits 24 bits (R86). -/
theorem okWord_toNat {n : Nat} (h : n < 2 ^ 24) : (okWord n).toNat = n := by
  rw [okWord, BitVec.toNat_append, BitVec.toNat_ofNat, BitVec.toNat_ofNat, Nat.zero_mod, Nat.zero_shiftLeft,
    Nat.zero_or, Nat.mod_eq_of_lt h]

@[simp] theorem finish_raised (op : BitVec 6) (t : Trap) (s : State) : finish op (.raised t s) = s.takeFault op t := rfl

@[simp] theorem finish_respond (op : BitVec 6) (n : Nat) (s : State) :
    finish op (respond n s) = s.emit [okWord n] := rfl

/-! ## What holds of every state a piece of a command ends in -/

/-- `P` holds of the state the piece ends in, whether it completes or raises. -/
def Run.Ends {α : Type} (P : State → Prop) : Run α → Prop
  | .done _ s => P s
  | .raised _ s => P s

theorem Run.Ends.bind {α β : Type} {P Q : State → Prop} {x : Run α} {f : α → State → Run β} (hx : x.Ends P)
    (hf : ∀ a s, P s → (f a s).Ends Q) (hr : ∀ s, P s → Q s) : (x.bind f).Ends Q := by
  cases x with
  | done a s => exact hf a s hx
  | raised t s => exact hr s hx

theorem Run.Ends.mono {α : Type} {P Q : State → Prop} {x : Run α} (hx : x.Ends P) (h : ∀ s, P s → Q s) : x.Ends Q := by
  cases x <;> exact h _ hx

/-- A property that a response and a fault entry keep holds after a command if it holds where its run ends. -/
theorem finish_keeps {P : State → Prop} {op : BitVec 6} {x : Run Answer} (hx : x.Ends P)
    (he : ∀ s ws, P s → P (s.emit ws)) (hf : ∀ s t, P s → P (s.takeFault op t)) : P (finish op x) := by
  cases x with
  | done a s => exact he s _ hx
  | raised t s => exact hf s t hx

theorem whenReady_keeps {P : State → Prop} {s : State} {body : Run Answer} (hs : P s)
    (hb : s.eng = .ready → body.Ends P) : (whenReady s body).Ends P := by
  by_cases h : s.eng = .ready
  · rw [whenReady_of_ready body h]; exact hb h
  · rw [whenReady_of_ne body h]; exact hs

theorem whenUnconfigured_keeps {P : State → Prop} {s : State} {info : Nat} {body : Run Answer} (hs : P s)
    (hb : s.eng = .unconfigured → body.Ends P) : (whenUnconfigured info s body).Ends P := by
  by_cases h : s.eng = .unconfigured
  · rw [whenUnconfigured_of_unconfigured info body h]; exact hb h
  · rw [whenUnconfigured_of_ne info body h]; exact hs

end Sys2Proof.Machine
end

