-- ==== Sys2Proof/Laws/Stages.lean ====
section
/-! SUPPORT. What a run of each stage can do, said once: the two faults that change nothing, and the state a completed
run leaves. -/

namespace Sys2Proof.Machine

theorem Buf.fill_take (q : Buf) (p n : Nat) (ws : List Word) (h : ws.length = n) : q.fill p (ws.take n) = q.fill p ws := by
  rw [← h, List.take_length]

theorem intIn_ne_b3 (s : State) : s.intIn ≠ .b3 := by
  unfold State.intIn; split <;> decide

theorem intIn_ne_b0 (s : State) : s.intIn ≠ .b0 := by
  unfold State.intIn; split <;> decide

/-- A stage with at least one sample of history consumes no more than it has. -/
theorem R_pos {s : State} (hD : 1 ≤ s.D) (hN : 1 ≤ s.N) : 1 ≤ s.R := by
  rw [State.R, ceilDiv, Nat.le_div_iff_mul_le (by omega)]; omega

/-! ## FIR (R141) -/

/-- The outputs a FIR run produces in this state. -/
def firCount (s : State) : Nat := s.size .b1 + 1 - s.LH

/-- The state a completed FIR run leaves. -/
def firDone (num : Numerics) (s : State) : State :=
  ((s.setBuf .b2 (s.buf2.appended (firCount s) ((List.range (firCount s)).map (firOut num s)))).advance
    (4 * (firCount s * s.LH))).setBuf .b1 (s.buf1.consume (firCount s))

theorem firRun_of_history {num : Numerics} {s : State} (h : s.size .b1 < s.LH - 1) :
    firRun num s = .raised { cause := .history, buf := .b1, info := s.size .b1 } s := by
  rw [firRun, if_pos h]

theorem firRun_of_overflow {num : Numerics} {s : State} (h : s.LH - 1 ≤ s.size .b1)
    (hc : s.buf2.cap < s.size .b2 + firCount s) :
    firRun num s = .raised { cause := .overflow, buf := .b2, info := firCount s } s := by
  rw [firRun, if_neg (by omega)]
  simp only [firCount] at hc ⊢
  rw [extend_of_lt hc]
  rfl

theorem firRun_of_ok {num : Numerics} {s : State} (hL : 1 ≤ s.LH) (h : s.LH - 1 ≤ s.size .b1)
    (hc : s.size .b2 + firCount s ≤ s.buf2.cap) : firRun num s = .done (firCount s) (firDone num s) := by
  have hm : firCount s ≤ s.size .b1 := by rw [firCount]; omega
  rw [firRun, if_neg (by omega)]
  simp only
  rw [show s.size .b1 + 1 - s.LH = firCount s from rfl, extend_of_le hc, Run.bind_done, discard_of_le]
  · simp only [Run.bind_done, Run.done.injEq, true_and]
    rw [firDone, Buf.appended, Buf.fill_take _ _ _ _ (by simp)]
    rfl
  · exact hm

/-! ## Interpolator (R151) -/

/-- The records an Interpolator run consumes in this state; it writes `L` outputs for each. -/
def intCount (s : State) : Nat := s.size s.intIn + 1 - s.R

/-- The state a completed Interpolator run leaves. -/
def intDone (num : Numerics) (s : State) : State :=
  ((s.setBuf .b3 (s.buf3.appended (intCount s * s.D) ((List.range (intCount s * s.D)).map (intOut num s)))).advance
    (4 * (intCount s * s.D * s.R))).setBuf s.intIn ((s.buf s.intIn).consume (intCount s))

theorem intRun_of_history {num : Numerics} {s : State} (h : s.size s.intIn < s.R - 1) :
    intRun num s = .raised { cause := .history, buf := s.intIn, info := s.size s.intIn } s := by
  rw [intRun]; simp only; rw [if_pos h]

theorem intRun_of_overflow {num : Numerics} {s : State} (h : s.R - 1 ≤ s.size s.intIn)
    (hc : s.buf3.cap < s.size .b3 + intCount s * s.D) :
    intRun num s = .raised { cause := .overflow, buf := .b3, info := intCount s * s.D } s := by
  rw [intRun]
  simp only
  rw [if_neg (by omega)]
  simp only [intCount] at hc ⊢
  rw [extend_of_lt hc]
  rfl

theorem intOut_setBuf_b3 (num : Numerics) (s : State) (q : Buf) : intOut num (s.setBuf .b3 q) = intOut num s := by
  have h : ∀ k d, (s.setBuf .b3 q).data s.intIn k d = s.data s.intIn k d := by
    intro k d; rw [State.data, State.data, State.buf_setBuf_of_ne s q (intIn_ne_b3 s)]
  funext o
  simp only [intOut, State.intIn_setBuf, h]
  rfl

theorem intRun_of_ok {num : Numerics} {s : State} (hR : 1 ≤ s.R) (h : s.R - 1 ≤ s.size s.intIn)
    (hc : s.size .b3 + intCount s * s.D ≤ s.buf3.cap) : intRun num s = .done (intCount s * s.D) (intDone num s) := by
  have hm : intCount s ≤ s.size s.intIn := by rw [intCount]; omega
  rw [intRun]
  simp only
  rw [if_neg (by omega), show s.size s.intIn + 1 - s.R = intCount s from rfl, extend_of_le hc, Run.bind_done,
    discard_of_le]
  · simp only [Run.bind_done, Run.done.injEq, true_and, intOut_setBuf_b3]
    rw [intDone, Buf.appended, Buf.fill_take _ _ _ _ (by simp)]
    unfold State.intIn
    cases s.hpEn <;> rfl
  · rw [State.size] at hm ⊢
    unfold State.intIn at *
    cases hp : s.hpEn <;> simp only [hp] at hm ⊢ <;> exact hm

/-! ## Overlap-Adder (R161) -/

/-- The windows an Overlap-Adder run consumes in this state. -/
def olaCount (s : State) : Nat := s.size .b0 / s.WS

/-- The samples an Overlap-Adder run emits in this state, and the accumulator and cursor it leaves. -/
def olaResult (num : Numerics) (s : State) : List Word × Ola :=
  olaWindows num s { acc := s.acc, pos := s.accPos } (olaCount s)

/-- The state a completed Overlap-Adder run leaves. -/
def olaDone (num : Numerics) (s : State) : State :=
  (((s.setBuf .b1 (s.buf1.appended (olaCount s * s.S) (olaResult num s).1)).setAcc (olaResult num s).2.acc
    (olaResult num s).2.pos).advance (4 * (olaCount s * s.WS))).setBuf .b0 (s.buf0.consume (olaCount s * s.WS))

theorem olaWindow_length (num : Numerics) (s : State) (w : Nat) (o : Ola) : (olaWindow num s w o).1.length = s.S := by
  simp [olaWindow]

theorem olaWindows_length (num : Numerics) (s : State) (o : Ola) (wc : Nat) :
    (olaWindows num s o wc).1.length = wc * s.S := by
  induction wc with
  | zero => simp [olaWindows]
  | succ wc ih => simp [olaWindows, ih, olaWindow_length, Nat.add_mul]

/-- A run of windows reads nothing of buffer 1. -/
theorem olaWindows_setBuf_b1 (num : Numerics) (s : State) (q : Buf) (o : Ola) (wc : Nat) :
    olaWindows num (s.setBuf .b1 q) o wc = olaWindows num s o wc := by
  induction wc with
  | zero => rfl
  | succ wc ih => rw [olaWindows, olaWindows, ih]; rfl

theorem olaRun_of_overflow {num : Numerics} {s : State} (hc : s.buf1.cap < s.size .b1 + olaCount s * s.S) :
    olaRun num s = .raised { cause := .overflow, buf := .b1, info := olaCount s * s.S } s := by
  rw [olaRun]
  simp only [olaCount] at hc ⊢
  rw [extend_of_lt hc]
  rfl

theorem olaRun_of_ok {num : Numerics} {s : State} (hc : s.size .b1 + olaCount s * s.S ≤ s.buf1.cap) :
    olaRun num s = .done (olaCount s * s.S) (olaDone num s) := by
  have hm : olaCount s * s.WS ≤ s.size .b0 := Nat.div_mul_le_self ..
  rw [olaRun]
  simp only
  rw [show s.size .b0 / s.WS = olaCount s from rfl, extend_of_le hc, Run.bind_done, discard_of_le]
  · simp only [Run.bind_done, Run.done.injEq, true_and, olaWindows_setBuf_b1, State.setBuf_setBuf,
      State.buf_setBuf_self, State.setBuf_acc, State.setBuf_accPos, State.buf_advance, State.buf_setAcc]
    rw [State.buf_setBuf_of_ne _ _ (show BufId.b0 ≠ .b1 by decide), olaDone, Buf.appended,
      Buf.fill_take _ _ _ _ (by rw [olaResult, olaWindows_length])]
    rfl
  · rw [State.size, State.buf_advance, State.buf_setAcc, State.buf_setBuf_of_ne _ _ (by decide),
      State.buf_setBuf_of_ne _ _ (by decide)]
    exact hm

/-! ## Delivery (R172 steps 3 and 4) -/

/-- The samples a delivery copies out of buffer 3. -/
def deliverCount (count : Nat) (s : State) : Nat := min count (s.size .b3)

/-- The state a delivery leaves. -/
def delivered (count : Nat) (s : State) : State :=
  ((if deliverCount count s < count then s.setShort (count - deliverCount count s) else s).advance
    (deliverCount count s)).setBuf .b3 (s.buf3.consume (deliverCount count s))

/-- A delivery always completes. -/
theorem deliver_eq (num : Numerics) (count : Nat) (s : State) :
    deliver num count s = .done
      { result := deliverCount count s
        data := (List.range (deliverCount count s)).map (fun i => s.data .b3 i (s.draws + i)) ++
          List.replicate (count - deliverCount count s) num.fzero }
      (delivered count s) := by
  have hk : deliverCount count s ≤ s.size .b3 := Nat.min_le_right ..
  unfold deliver delivered
  by_cases h : deliverCount count s < count
  · simp only [show min count (s.size .b3) = deliverCount count s from rfl, if_pos h]
    rw [discard_of_le (by exact hk)]
    rfl
  · simp only [show min count (s.size .b3) = deliverCount count s from rfl, if_neg h]
    rw [discard_of_le (by exact hk)]
    rfl

/-! ## The sample arithmetic's operand order -/

/-- `dot` on operands that no draw enters (R17). -/
theorem dot_congr {num : Numerics} {d n : Nat} {a a' c c' : Nat → Nat → Word}
    (ha : ∀ k d', k < n → a k d' = a' k d') (hc : ∀ k d', k < n → c k d' = c' k d') :
    dot num d n a c = dot num d n a' c' := by
  rw [dot, dot]
  refine List.foldl_ext _ _ _ fun acc k hk => ?_
  have hk := List.mem_range.1 hk
  rw [ha k _ hk, hc k _ hk]

end Sys2Proof.Machine
end

