-- ==== Sys2Proof/Laws/Runs.lean ====
section
/-! SUPPORT. A property of the state that the shared operations keep is kept by every command of the READY state: the
induction over the commands, done once. -/

namespace Sys2Proof.Machine

/-- The Overlap-Adder's update of the accumulator and the cursor (R161). -/
def olaUpdate (num : Numerics) (s : State) : State :=
  s.setAcc (olaResult num s).2.acc (olaResult num s).2.pos

@[simp] theorem buf_olaUpdate (num : Numerics) (s : State) (b : BufId) : (olaUpdate num s).buf b = s.buf b := by
  cases b <;> rfl

theorem olaResult_setBuf_b1 (num : Numerics) (s : State) (q : Buf) :
    olaResult num (s.setBuf .b1 q) = olaResult num s := olaWindows_setBuf_b1 num s q _ _

/-- `append` written with the state it leaves. -/
theorem append_eq (s : State) (b : BufId) (n : Nat) (v : List Word) :
    append s b n v =
      if (s.buf b).cap < s.size b + n then .raised { cause := .overflow, buf := b, info := n } s
      else .done () (s.setBuf b ((s.buf b).appended n v)) := by
  by_cases h : (s.buf b).cap < s.size b + n
  · rw [append_of_lt v h, if_pos h]
  · rw [append_of_le v (by omega), if_neg h]

theorem discard_eq (s : State) (b : BufId) (n : Nat) :
    discard s b n =
      if s.size b < n then .raised { cause := .underflow, buf := b, info := n } s
      else .done () (s.setBuf b ((s.buf b).consume n)) := rfl

/-- `fir_run()` is an append of its outputs to buffer 2 and a discard of its inputs from buffer 1 (R141). -/
theorem firRun_eq (num : Numerics) (s : State) :
    firRun num s =
      if s.size .b1 < s.LH - 1 then .raised { cause := .history, buf := .b1, info := s.size .b1 } s
      else (append s .b2 (firCount s) ((List.range (firCount s)).map (firOut num s))).bind fun _ s1 =>
        (discard (s1.advance (4 * (firCount s * s.LH))) .b1 (firCount s)).bind fun _ s2 => .done (firCount s) s2 := by
  rw [firRun]
  by_cases h : s.size .b1 < s.LH - 1
  · rw [if_pos h, if_pos h]
  · rw [if_neg h, if_neg h]
    by_cases hc : s.buf2.cap < s.size .b2 + firCount s
    · rw [append_of_lt _ hc]
      simp only [firCount] at hc ⊢
      rw [extend_of_lt hc]
      rfl
    · have hc' : s.size .b2 + firCount s ≤ (s.buf .b2).cap := Nat.le_of_not_lt hc
      rw [append_of_le _ hc', Run.bind_done, Buf.appended, Buf.fill_take _ _ _ _ (by simp)]
      simp only
      rw [show s.size .b1 + 1 - s.LH = firCount s from rfl, extend_of_le hc', Run.bind_done]
      rfl

/-- `int_run()` is an append of its outputs to buffer 3 and a discard of its inputs from `INT_IN` (R151). -/
theorem intRun_eq (num : Numerics) (s : State) :
    intRun num s =
      if s.size s.intIn < s.R - 1 then .raised { cause := .history, buf := s.intIn, info := s.size s.intIn } s
      else (append s .b3 (intCount s * s.D) ((List.range (intCount s * s.D)).map (intOut num s))).bind fun _ s1 =>
        (discard (s1.advance (4 * (intCount s * s.D * s.R))) s.intIn (intCount s)).bind fun _ s2 =>
          .done (intCount s * s.D) s2 := by
  rw [intRun]
  simp only
  by_cases h : s.size s.intIn < s.R - 1
  · rw [if_pos h, if_pos h]
  · rw [if_neg h, if_neg h]
    by_cases hc : s.buf3.cap < s.size .b3 + intCount s * s.D
    · rw [append_of_lt _ hc]
      simp only [intCount] at hc ⊢
      rw [extend_of_lt hc]
      rfl
    · have hc' : s.size .b3 + intCount s * s.D ≤ (s.buf .b3).cap := Nat.le_of_not_lt hc
      rw [append_of_le _ hc', Run.bind_done, Buf.appended, Buf.fill_take _ _ _ _ (by simp)]
      rw [show s.size s.intIn + 1 - s.R = intCount s from rfl, extend_of_le hc', Run.bind_done, intOut_setBuf_b3]
      rfl

/-- `ola_run()` is an append of its outputs to buffer 1, the accumulator's update, and a discard of its inputs from
buffer 0 (R161). -/
theorem olaRun_eq (num : Numerics) (s : State) :
    olaRun num s =
      (append s .b1 (olaCount s * s.S) (olaResult num s).1).bind fun _ s1 =>
        (discard ((olaUpdate num s1).advance (4 * (olaCount s * s.WS))) .b0 (olaCount s * s.WS)).bind fun _ s2 =>
          .done (olaCount s * s.S) s2 := by
  by_cases hc : s.buf1.cap < s.size .b1 + olaCount s * s.S
  · rw [olaRun_of_overflow hc, append_of_lt _ hc]
    rfl
  · have hc' : s.size .b1 + olaCount s * s.S ≤ (s.buf .b1).cap := Nat.le_of_not_lt hc
    rw [olaRun_of_ok hc', append_of_le _ hc', Run.bind_done, discard_of_le, Run.bind_done, olaUpdate,
      olaResult_setBuf_b1]
    · rfl
    · exact Nat.div_mul_le_self ..

/-- What the shared operations have to keep for every run of a READY command's body to keep it. -/
structure KeepsRun (P : State → Prop) : Prop where
  append : ∀ s b n v, P s → s.eng = .ready → s.size b + n ≤ (s.buf b).cap → P (s.setBuf b ((s.buf b).appended n v))
  extend : ∀ s b n, P s → s.eng = .ready → s.size b + n ≤ (s.buf b).cap →
    P (s.setBuf b (((s.buf b).makeRoom n).reserve n))
  poke : ∀ s b off v, P s → s.eng = .ready → off < s.size b → P (s.setBuf b ((s.buf b).fill ((s.buf b).ds + off) [v]))
  discard : ∀ s b n, P s → s.eng = .ready → n ≤ s.size b → P (s.setBuf b ((s.buf b).consume n))
  ola : ∀ num s, P s → s.eng = .ready → P (olaUpdate num s)
  advance : ∀ s n, P s → s.eng = .ready → P (s.advance n)
  primed : ∀ s, P s → s.eng = .ready → P s.setPrimed
  oversize : ∀ s, P s → s.eng = .ready → P s.setOversize
  short : ∀ s n, P s → s.eng = .ready → n < 2 ^ 24 → P (s.setShort n)

/-- What the shared operations have to keep for every command of the READY state to keep it. -/
structure Keeps (P : State → Prop) : Prop extends KeepsRun P where
  emit : ∀ s ws, P s → P (s.emit ws)
  fault : ∀ s op t, P s → P (s.takeFault op t)

namespace KeepsRun

variable {P : State → Prop}

/-- The property while READY, which the pieces of a command hand on. -/
abbrev At (P : State → Prop) (s : State) : Prop := P s ∧ s.eng = .ready

theorem append_ends (K : KeepsRun P) {s : State} (h : At P s) (b : BufId) (n : Nat) (v : List Word) :
    (Machine.append s b n v).Ends (At P) := by
  rw [append_eq]
  split
  · exact h
  · exact ⟨K.append s b n v h.1 h.2 (by omega), by rw [State.setBuf_eng]; exact h.2⟩

theorem extend_ends (K : KeepsRun P) {s : State} (h : At P s) (b : BufId) (n : Nat) :
    (Machine.extend s b n).Ends (At P) := by
  by_cases hc : (s.buf b).cap < s.size b + n
  · rw [extend_of_lt hc]; exact h
  · rw [extend_of_le (by omega)]
    exact ⟨K.extend s b n h.1 h.2 (by omega), by rw [State.setBuf_eng]; exact h.2⟩

theorem discard_ends (K : KeepsRun P) {s : State} (h : At P s) (b : BufId) (n : Nat) :
    (Machine.discard s b n).Ends (At P) := by
  rw [discard_eq]
  split
  · exact h
  · exact ⟨K.discard s b n h.1 h.2 (by omega), by rw [State.setBuf_eng]; exact h.2⟩

theorem firRun_ends (K : KeepsRun P) (num : Numerics) {s : State} (h : At P s) : (firRun num s).Ends (At P) := by
  rw [firRun_eq]
  split
  · exact h
  · refine (K.append_ends h _ _ _).bind (fun _ s1 h1 => ?_) fun _ hs => hs
    exact (K.discard_ends ⟨K.advance _ _ h1.1 h1.2, h1.2⟩ _ _).bind (fun _ _ h2 => h2) fun _ hs => hs

theorem intRun_ends (K : KeepsRun P) (num : Numerics) {s : State} (h : At P s) : (intRun num s).Ends (At P) := by
  rw [intRun_eq]
  split
  · exact h
  · refine (K.append_ends h _ _ _).bind (fun _ s1 h1 => ?_) fun _ hs => hs
    exact (K.discard_ends ⟨K.advance _ _ h1.1 h1.2, h1.2⟩ _ _).bind (fun _ _ h2 => h2) fun _ hs => hs

theorem olaRun_ends (K : KeepsRun P) (num : Numerics) {s : State} (h : At P s) : (olaRun num s).Ends (At P) := by
  rw [olaRun_eq]
  refine (K.append_ends h _ _ _).bind (fun _ s1 h1 => ?_) fun _ hs => hs
  exact (K.discard_ends ⟨K.advance _ _ (K.ola _ _ h1.1 h1.2) h1.2, h1.2⟩ _ _).bind (fun _ _ h2 => h2) fun _ hs => hs

theorem stagesRun_ends (K : KeepsRun P) (num : Numerics) {s : State} (h : At P s) : (stagesRun num s).Ends (At P) := by
  rw [stagesRun]
  refine (K.olaRun_ends _ h).bind (fun _ s1 h1 => ?_) fun _ hs => hs
  refine Run.Ends.bind (P := At P) ?_ (fun _ s2 h2 => K.intRun_ends _ h2) fun _ hs => hs
  split
  · exact K.firRun_ends _ h1
  · exact h1

theorem deliver_ends (K : KeepsRun P) (num : Numerics) {s : State} (h : At P s) {count : Nat} (hn : count < 2 ^ 24) :
    (deliver num count s).Ends (At P) := by
  rw [deliver_eq]
  have hk : deliverCount count s ≤ s.size .b3 := Nat.min_le_right ..
  have h1 : At P ((if deliverCount count s < count then s.setShort (count - deliverCount count s) else s).advance
      (deliverCount count s)) := by
    split
    · exact ⟨K.advance _ _ (K.short _ _ h.1 h.2 (by omega)) h.2, h.2⟩
    · exact ⟨K.advance _ _ h.1 h.2, h.2⟩
  have e : ((if deliverCount count s < count then s.setShort (count - deliverCount count s) else s).advance
      (deliverCount count s)).buf .b3 = s.buf3 := by split <;> rfl
  have h2 := K.discard _ .b3 (deliverCount count s) h1.1 h1.2 (by rw [State.size, e]; exact hk)
  rw [e] at h2
  exact ⟨h2, by rw [delivered, State.setBuf_eng]; exact h1.2⟩

theorem processRun_ends (K : KeepsRun P) (num : Numerics) {s : State} (h : At P s) {count : Nat} (hn : count < 2 ^ 24) (x : List Word) :
    (processRun num count x s).Ends (At P) := by
  rw [processRun]
  split
  · exact ⟨K.oversize _ h.1 h.2, h.2⟩
  · refine (K.append_ends h _ _ _).bind (fun _ s1 h1 => ?_) fun _ hs => hs
    exact (K.stagesRun_ends _ h1).bind (fun _ s2 h2 => K.deliver_ends _ h2 hn) fun _ hs => hs

end KeepsRun

namespace Keeps

variable {P : State → Prop}

theorem finish_keeps (K : Keeps P) {op : BitVec 6} {x : Run Answer} (hx : x.Ends P) : P (finish op x) :=
  Machine.finish_keeps hx K.emit fun s t => K.fault s op t

theorem ready_keeps (K : Keeps P) {s : State} {op : BitVec 6} {body : Run Answer} (hs : P s)
    (hb : KeepsRun.At P s → body.Ends (KeepsRun.At P)) : P (finish op (whenReady s body)) :=
  K.finish_keeps (whenReady_keeps hs fun h => (hb ⟨hs, h⟩).mono fun _ h => h.1)

/-- The commands that construct or take apart the engine: their effect is not one of the shared operations of READY. -/
def constructs : Instr → Bool
  | .reset | .setcfg _ _ | .ldhp _ _ | .ldip _ _ | .ldwin _ _ | .build => true
  | .nop | .getcfg _ | .extend _ _ | .poke _ _ _ | .append _ _ _ | .appendz _ _ | .discard _ _ | .size _ | .peek _ _
  | .startidx _ | .endidx _ | .firrun | .intrun | .olarun | .prime _ | .process _ _ => false

/-- Every other command keeps what the shared operations keep. -/
theorem exec_keeps (K : Keeps P) {i : Instr} {s t : State} (hi : constructs i = false) (hs : P s)
    (he : exec i s = .next t) : P t := by
  cases i <;> first | (cases hi; done) | skip
  case nop => cases he; exact K.emit _ _ hs
  case getcfg r => cases he; exact K.emit _ _ hs
  case extend b n =>
    cases he
    exact K.ready_keeps hs fun h => (K.extend_ends h _ _).bind (fun _ _ h => h) fun _ h => h
  case poke b off v =>
    cases he
    refine K.ready_keeps hs fun h => ?_
    rw [inRange]
    split
    · exact h
    · exact ⟨K.poke _ _ _ _ h.1 h.2 (by omega), by rw [State.setBuf_eng]; exact h.2⟩
  case append b n v =>
    cases he
    exact K.ready_keeps hs fun h => (K.append_ends h _ _ _).bind (fun _ _ h => h) fun _ h => h
  case appendz b n =>
    cases he
    exact K.ready_keeps hs fun h => (K.append_ends h _ _ _).bind (fun _ _ h => h) fun _ h => h
  case discard b n =>
    cases he
    exact K.ready_keeps hs fun h => (K.discard_ends h _ _).bind (fun _ _ h => h) fun _ h => h
  case size b => cases he; exact K.ready_keeps hs fun h => h
  case peek b off =>
    cases he
    refine K.ready_keeps hs fun h => ?_
    rw [inRange]
    split
    · exact h
    · rw [peekRun]
      split
      · exact h
      · exact ⟨K.advance _ _ h.1 h.2, h.2⟩
  case startidx b => cases he; exact K.ready_keeps hs fun h => h
  case endidx b => cases he; exact K.ready_keeps hs fun h => h
  case firrun =>
    cases he
    refine K.ready_keeps hs fun h => ?_
    split
    · exact (K.firRun_ends _ h).bind (fun _ _ h => h) fun _ h => h
    · exact h
  case intrun =>
    cases he
    exact K.ready_keeps hs fun h => (K.intRun_ends _ h).bind (fun _ _ h => h) fun _ h => h
  case olarun =>
    cases he
    exact K.ready_keeps hs fun h => (K.olaRun_ends _ h).bind (fun _ _ h => h) fun _ h => h
  case prime n =>
    cases he
    refine K.ready_keeps hs fun h => ?_
    exact (K.append_ends h _ _ _).bind (fun _ _ h => ⟨K.primed _ h.1 h.2, h.2⟩) fun _ h => h
  case process n x =>
    cases he
    exact K.ready_keeps hs fun h => K.processRun_ends _ h n.isLt x

end Keeps

/-- What a step does: a reset, a command, or the answer to an illegal word (R95, R230). -/
theorem step_next {s t : State} (h : step s = .next t) :
    (s.resetIn ≠ .idle ∧ t = resetStep s) ∨
    (s.resetIn = .idle ∧ ∃ f, frame s.port = .ok f ∧
      ((∃ i, decodeFrame f.cw f.payload = .ok i ∧ exec i { s with port := f.rest } = .next t) ∨
        ((∃ e, decodeFrame f.cw f.payload = .error e) ∧ t = answerIllegal f.cw { s with port := f.rest }))) := by
  by_cases hr : s.resetIn = .idle
  · refine .inr ⟨hr, ?_⟩
    rw [step, hr] at h
    simp only [fetch] at h
    cases hf : frame s.port with
    | error e => rw [hf] at h; cases e <;> cases h
    | ok f =>
      rw [hf] at h
      refine ⟨f, rfl, ?_⟩
      simp only at h
      cases hd : decodeFrame f.cw f.payload with
      | error e => rw [hd] at h; cases h; exact .inr ⟨⟨e, rfl⟩, rfl⟩
      | ok i => rw [hd] at h; exact .inl ⟨i, rfl, h⟩
  · refine .inl ⟨hr, ?_⟩
    rw [step] at h
    split at h
    · cases h; rfl
    · cases h; rfl
    · exact absurd (by assumption) hr

end Sys2Proof.Machine
end

