-- ==== Sys2Proof/Laws/Build.lean ====
section
/-! SUPPORT. What BUILD can do, said once: report a failing check, or leave the state `built`. -/

namespace Sys2Proof.Machine

/-- A buffer as BUILD leaves it: sized, and primed with `n` zero words. -/
def primedBuf (num : Numerics) (s : State) (b : BufId) (n : Nat) : Buf :=
  (sizedBuf s b).appended n (List.replicate n num.fzero)

@[simp] theorem sizedBuf_cap (s : State) (b : BufId) : (sizedBuf s b).cap = s.capMul b * s.maxInCount := rfl
@[simp] theorem sizedBuf_ds (s : State) (b : BufId) : (sizedBuf s b).ds = 0 := rfl
@[simp] theorem sizedBuf_de (s : State) (b : BufId) : (sizedBuf s b).de = 0 := rfl
@[simp] theorem sizedBuf_bsi (s : State) (b : BufId) : (sizedBuf s b).bsi = 0 := rfl
@[simp] theorem sizedBuf_store (s : State) (b : BufId) : (sizedBuf s b).store = (s.buf b).store := rfl
@[simp] theorem sizedBuf_size (s : State) (b : BufId) : (sizedBuf s b).size = 0 := rfl

@[simp] theorem buf_buildSized (num : Numerics) (s : State) (b : BufId) :
    (buildSized num s).buf b = sizedBuf s b := by cases b <;> rfl

@[simp] theorem LH_buildSized (num : Numerics) (s : State) : (buildSized num s).LH = s.LH := rfl
@[simp] theorem N_buildSized (num : Numerics) (s : State) : (buildSized num s).N = s.N := rfl
@[simp] theorem R_buildSized (num : Numerics) (s : State) : (buildSized num s).R = s.R := rfl
@[simp] theorem hpEn_buildSized (num : Numerics) (s : State) : (buildSized num s).hpEn = s.hpEn := rfl
@[simp] theorem hr_buildSized (num : Numerics) (s : State) : (buildSized num s).hr = s.hr := rfl
@[simp] theorem hc_buildSized (num : Numerics) (s : State) : (buildSized num s).hc = s.hc := rfl
@[simp] theorem ir_buildSized (num : Numerics) (s : State) : (buildSized num s).ir = s.ir := rfl
@[simp] theorem ic_buildSized (num : Numerics) (s : State) : (buildSized num s).ic = s.ic := rfl

/-- The state a completed BUILD leaves (R188). -/
def built (num : Numerics) (s : State) : State :=
  if s.hpEn then
    (((((buildSized num s).setHr (s.hr.reverseInto s.hc s.LH)).setBuf .b1 (primedBuf num s .b1 (s.LH - 1))).setIr
      (s.ir.reverseInto s.ic s.N)).setBuf .b2 (primedBuf num s .b2 (s.R - 1))).clearFlags.enterReady
  else
    (((buildSized num s).setIr (s.ir.reverseInto s.ic s.N)).setBuf .b1
      (primedBuf num s .b1 (s.R - 1))).clearFlags.enterReady

theorem capBad_eq_false {s : State} {b : BufId} :
    capBad s b = false ↔ 1 ≤ s.capMul b ∧ s.capMul b * s.maxInCount ≤ s.params.bufWords := by
  simp [capBad]; omega

theorem ite_some_eq_none {α : Type} {c : Prop} [Decidable c] {a : α} {x : Option α} :
    (if c then some a else x) = none ↔ ¬ c ∧ x = none := by
  split <;> simp_all

/-- The nine checks of R188 all pass exactly on a legal configuration. -/
theorem buildCheck_eq_none {s : State} : buildCheck s = none ↔ ConfigLegal s := by
  have hb : (∀ b, 1 ≤ s.capMul b ∧ s.capMul b * s.maxInCount ≤ s.params.bufWords) ↔
      (capBad s .b0 = false ∧ capBad s .b1 = false ∧ capBad s .b2 = false ∧ capBad s .b3 = false) := by
    simp only [capBad_eq_false]
    exact ⟨fun h => ⟨h _, h _, h _, h _⟩, fun h b => by cases b; exacts [h.1, h.2.1, h.2.2.1, h.2.2.2]⟩
  rw [ConfigLegal, hb, buildCheck]
  simp only [ite_some_eq_none, Bool.not_eq_true, Decidable.not_not, and_true, not_and, Nat.not_lt]
  constructor
  · rintro ⟨h1, h2, h3, h4, h5, h6, h7, h8, h9, h10, h11, h12, h13⟩
    exact ⟨h1, Nat.pos_of_ne_zero h2, Nat.pos_of_ne_zero h3, ⟨h4, h5, h6, h7⟩, h8, h9, Nat.pos_of_ne_zero h10,
      fun hp => ⟨Nat.pos_of_ne_zero (h11 hp), h12 hp⟩, h13⟩
  · rintro ⟨h1, h2, h3, ⟨h4, h5, h6, h7⟩, h8, h9, h10, h11, h12⟩
    exact ⟨h1, Nat.ne_of_gt h2, Nat.ne_of_gt h3, h4, h5, h6, h7, h8, h9, Nat.ne_of_gt h10,
      fun hp => Nat.ne_of_gt (h11 hp).1, fun hp => (h11 hp).2, h12⟩

/-- BUILD of a legal configuration completes (R188). -/
theorem buildRun_of_legal {num : Numerics} {s : State} (h : ConfigLegal s) :
    buildRun num s = .done { result := 0, data := [] } (built num s) := by
  rw [buildRun, buildCheck_eq_none.2 h]
  simp only
  obtain ⟨-, -, -, -, -, -, -, hF, hI⟩ := h
  rw [buildFir, hpEn_buildSized]
  cases hp : s.hpEn with
  | true =>
    have hF := (hF hp).2
    have hI : s.R - 1 ≤ s.capMul .b2 * s.maxInCount := by rw [State.intIn, hp] at hI; exact hI
    have h2 : ∀ m q, (((buildSized num s).setHr m).setBuf .b1 q).intIn = .b2 := by
      intro m q; rw [State.intIn_setBuf, State.intIn_setHr, State.intIn, hpEn_buildSized, hp]; rfl
    rw [if_pos rfl, appendZeros, append_of_le, Run.bind_done, buildInt, appendZeros, h2, append_of_le, Run.bind_done,
      respond]
    · simp only [buf_buildSized, State.buf_setHr, State.buf_setIr,
        State.buf_setBuf_of_ne _ _ (show BufId.b2 ≠ .b1 by decide), State.R_setBuf, State.R_setHr, State.setBuf_ir,
        State.setHr_ir, State.setBuf_ic, State.setHr_ic, State.N_setBuf, State.N_setHr, LH_buildSized, N_buildSized,
        R_buildSized, hr_buildSized, hc_buildSized, ir_buildSized, ic_buildSized]
      rw [built, if_pos hp, primedBuf, primedBuf]
    · rw [State.size, State.buf_setIr, State.buf_setBuf_of_ne _ _ (by decide), State.buf_setHr, buf_buildSized,
        sizedBuf_size, Nat.zero_add]
      exact hI
    · rw [State.size, State.buf_setHr, buf_buildSized, sizedBuf_size, Nat.zero_add]
      exact hF
  | false =>
    have hI : s.R - 1 ≤ s.capMul .b1 * s.maxInCount := by rw [State.intIn, hp] at hI; exact hI
    have h2 : (buildSized num s).intIn = .b1 := by rw [State.intIn, hpEn_buildSized, hp]; rfl
    rw [if_neg (by simp), Run.bind_done, buildInt, appendZeros, h2, append_of_le, Run.bind_done, respond]
    · rw [built, if_neg (by simp [hp]), State.buf_setIr, buf_buildSized, primedBuf, R_buildSized, N_buildSized,
        ir_buildSized, ic_buildSized]
    · rw [State.size, State.buf_setIr, buf_buildSized, sizedBuf_size, Nat.zero_add]
      exact hI

theorem buildRun_of_check {num : Numerics} {s : State} {b : BufId} {k : Nat} (h : buildCheck s = some (b, k)) :
    buildRun num s = .raised { cause := .config, buf := b, info := k } s := by
  rw [buildRun, h]

/-- All BUILD can do after its state check. -/
theorem buildRun_cases (num : Numerics) (s : State) :
    (∃ b k, buildCheck s = some (b, k) ∧ buildRun num s = .raised { cause := .config, buf := b, info := k } s) ∨
    (ConfigLegal s ∧ buildRun num s = .done { result := 0, data := [] } (built num s)) := by
  cases h : buildCheck s with
  | none => exact .inr ⟨buildCheck_eq_none.1 h, buildRun_of_legal (buildCheck_eq_none.1 h)⟩
  | some c => exact .inl ⟨c.1, c.2, rfl, buildRun_of_check h⟩

/-! ## The fields of the built engine -/

@[simp] theorem built_buf0 (num : Numerics) (s : State) : (built num s).buf0 = sizedBuf s .b0 := by
  unfold built; split <;> simp [buildSized, *]
@[simp] theorem built_buf3 (num : Numerics) (s : State) : (built num s).buf3 = sizedBuf s .b3 := by
  unfold built; split <;> simp [buildSized, *]
@[simp] theorem built_buf1 (num : Numerics) (s : State) :
    (built num s).buf1 = primedBuf num s .b1 (if s.hpEn then s.LH - 1 else s.R - 1) := by
  unfold built; split <;> simp [buildSized, *]
@[simp] theorem built_buf2 (num : Numerics) (s : State) :
    (built num s).buf2 = if s.hpEn then primedBuf num s .b2 (s.R - 1) else sizedBuf s .b2 := by
  unfold built; split <;> simp [buildSized, *]
@[simp] theorem built_acc (num : Numerics) (s : State) :
    (built num s).acc = s.acc.fill 0 (List.replicate s.A num.fzero) := by
  unfold built; split <;> simp [buildSized, *]
@[simp] theorem built_accPos (num : Numerics) (s : State) : (built num s).accPos = 0 := by
  unfold built; split <;> simp [buildSized, *]
@[simp] theorem built_hr (num : Numerics) (s : State) :
    (built num s).hr = if s.hpEn then s.hr.reverseInto s.hc s.LH else s.hr := by
  unfold built; split <;> simp [buildSized, *]
@[simp] theorem built_ir (num : Numerics) (s : State) : (built num s).ir = s.ir.reverseInto s.ic s.N := by
  unfold built; split <;> simp [buildSized, *]
@[simp] theorem built_eng (num : Numerics) (s : State) : (built num s).eng = .ready := by
  unfold built; split <;> simp [buildSized, *]
@[simp] theorem built_primed (num : Numerics) (s : State) : (built num s).primed = false := by
  unfold built; split <;> simp [buildSized, *]
@[simp] theorem built_oversize (num : Numerics) (s : State) : (built num s).oversize = false := by
  unfold built; split <;> simp [buildSized, *]
@[simp] theorem built_short (num : Numerics) (s : State) : (built num s).short = false := by
  unfold built; split <;> simp [buildSized, *]
@[simp] theorem built_shortfall (num : Numerics) (s : State) : (built num s).shortfall = 0 := by
  unfold built; split <;> simp [buildSized, *]

@[simp] theorem built_params (num : Numerics) (s : State) : (built num s).params = s.params := by
  unfold built; split <;> simp [buildSized, *]
@[simp] theorem built_port (num : Numerics) (s : State) : (built num s).port = s.port := by
  unfold built; split <;> simp [buildSized, *]
@[simp] theorem built_resp (num : Numerics) (s : State) : (built num s).resp = s.resp := by
  unfold built; split <;> simp [buildSized, *]
@[simp] theorem built_resetIn (num : Numerics) (s : State) : (built num s).resetIn = s.resetIn := by
  unfold built; split <;> simp [buildSized, *]
@[simp] theorem built_draws (num : Numerics) (s : State) : (built num s).draws = s.draws := by
  unfold built; split <;> simp [buildSized, *]
@[simp] theorem built_maxIn (num : Numerics) (s : State) : (built num s).maxIn = s.maxIn := by
  unfold built; split <;> simp [buildSized, *]
@[simp] theorem built_factor (num : Numerics) (s : State) : (built num s).factor = s.factor := by
  unfold built; split <;> simp [buildSized, *]
@[simp] theorem built_segSize (num : Numerics) (s : State) : (built num s).segSize = s.segSize := by
  unfold built; split <;> simp [buildSized, *]
@[simp] theorem built_ctrl (num : Numerics) (s : State) : (built num s).ctrl = s.ctrl := by
  unfold built; split <;> simp [buildSized, *]
@[simp] theorem built_capMul0 (num : Numerics) (s : State) : (built num s).capMul0 = s.capMul0 := by
  unfold built; split <;> simp [buildSized, *]
@[simp] theorem built_capMul1 (num : Numerics) (s : State) : (built num s).capMul1 = s.capMul1 := by
  unfold built; split <;> simp [buildSized, *]
@[simp] theorem built_capMul2 (num : Numerics) (s : State) : (built num s).capMul2 = s.capMul2 := by
  unfold built; split <;> simp [buildSized, *]
@[simp] theorem built_capMul3 (num : Numerics) (s : State) : (built num s).capMul3 = s.capMul3 := by
  unfold built; split <;> simp [buildSized, *]
@[simp] theorem built_hpLen (num : Numerics) (s : State) : (built num s).hpLen = s.hpLen := by
  unfold built; split <;> simp [buildSized, *]
@[simp] theorem built_ipLen (num : Numerics) (s : State) : (built num s).ipLen = s.ipLen := by
  unfold built; split <;> simp [buildSized, *]
@[simp] theorem built_winLen (num : Numerics) (s : State) : (built num s).winLen = s.winLen := by
  unfold built; split <;> simp [buildSized, *]
@[simp] theorem built_fault (num : Numerics) (s : State) : (built num s).fault = s.fault := by
  unfold built; split <;> simp [buildSized, *]
@[simp] theorem built_faultInfo (num : Numerics) (s : State) : (built num s).faultInfo = s.faultInfo := by
  unfold built; split <;> simp [buildSized, *]
@[simp] theorem built_hc (num : Numerics) (s : State) : (built num s).hc = s.hc := by
  unfold built; split <;> simp [buildSized, *]
@[simp] theorem built_ic (num : Numerics) (s : State) : (built num s).ic = s.ic := by
  unfold built; split <;> simp [buildSized, *]
@[simp] theorem built_win (num : Numerics) (s : State) : (built num s).win = s.win := by
  unfold built; split <;> simp [buildSized, *]

/-- BUILD changes nothing but the buffers, the accumulator, the caches, the flags and `ENG` (R188). -/
theorem built_frame (num : Numerics) (s : State) :
    { built num s with
      buf0 := s.buf0, buf1 := s.buf1, buf2 := s.buf2, buf3 := s.buf3, acc := s.acc, accPos := s.accPos, hr := s.hr,
      ir := s.ir, primed := s.primed, oversize := s.oversize, short := s.short, shortfall := s.shortfall,
      eng := s.eng } = s := by
  simp only [built_params, built_port, built_resp, built_resetIn, built_draws, built_maxIn, built_factor, built_segSize, built_ctrl, built_capMul0, built_capMul1, built_capMul2, built_capMul3, built_hpLen, built_ipLen, built_winLen, built_fault, built_faultInfo, built_hc, built_ic, built_win]

theorem primedBuf_size (num : Numerics) (s : State) (b : BufId) (n : Nat) : (primedBuf num s b n).size = n := by
  rw [primedBuf, Buf.size_appended (Nat.le_refl 0), sizedBuf_size, Nat.zero_add]

/-- The priming words are zeros (R112). -/
theorem primedBuf_data? (num : Numerics) (s : State) (b : BufId) {n k : Nat} (h : k < n) :
    (primedBuf num s b n).data? k = some num.fzero := by
  rw [primedBuf, Buf.data?_appended (Nat.le_refl 0), sizedBuf_size, if_pos ⟨Nat.zero_le _, by omega⟩, Nat.sub_zero,
    List.getElem?_replicate, if_pos h]

end Sys2Proof.Machine
end

