-- ==== Sys2Proof/Laws/Emit.lean ====
section
/-! SUPPORT. The response stream is only written: no operation of a command depends on it, so what a stage does is the
same whatever was answered before. -/

namespace Sys2Proof.Machine

/-- The same piece of a command, with `f` applied to the state it ends in. -/
def Run.over {α : Type} (f : State → State) : Run α → Run α
  | .done a s => .done a (f s)
  | .raised t s => .raised t (f s)

@[simp] theorem Run.over_done {α : Type} (f : State → State) (a : α) (s : State) :
    (Run.done a s).over f = .done a (f s) := rfl

@[simp] theorem Run.over_raised {α : Type} (f : State → State) (t : Trap) (s : State) :
    (Run.raised t s : Run α).over f = .raised t (f s) := rfl

theorem Run.over_bind {α β : Type} (f : State → State) (x : Run α) (g : α → State → Run β)
    (h : ∀ a s, g a (f s) = (g a s).over f) : (x.over f).bind g = (x.bind g).over f := by
  cases x with
  | done a s => exact h a s
  | raised t s => rfl

theorem setBuf_emit (s : State) (ws : List Word) (b : BufId) (q : Buf) :
    (s.emit ws).setBuf b q = (s.setBuf b q).emit ws := by cases b <;> rfl

@[simp] theorem size_emit (s : State) (ws : List Word) (b : BufId) : (s.emit ws).size b = s.size b := by
  rw [State.size, State.size, State.buf_emit]

@[simp] theorem data_emit (s : State) (ws : List Word) (b : BufId) (k d : Nat) :
    (s.emit ws).data b k d = s.data b k d := by
  rw [State.data, State.data, State.buf_emit]

theorem append_emit (s : State) (ws : List Word) (b : BufId) (n : Nat) (v : List Word) :
    append (s.emit ws) b n v = (append s b n v).over (·.emit ws) := by
  rw [append_eq, append_eq, State.buf_emit, size_emit, setBuf_emit]
  split <;> rfl

theorem discard_emit (s : State) (ws : List Word) (b : BufId) (n : Nat) :
    discard (s.emit ws) b n = (discard s b n).over (·.emit ws) := by
  rw [discard_eq, discard_eq, State.buf_emit, size_emit, setBuf_emit]
  split <;> rfl

theorem firOut_emit (num : Numerics) (s : State) (ws : List Word) : firOut num (s.emit ws) = firOut num s := by
  funext i
  simp only [firOut, data_emit, State.LH_emit, State.emit_draws, State.emit_hr]

theorem intOut_emit (num : Numerics) (s : State) (ws : List Word) : intOut num (s.emit ws) = intOut num s := by
  funext i
  simp only [intOut, data_emit, State.D_emit, State.R_emit, State.N_emit, State.intIn_emit, State.emit_draws,
    State.emit_ir]

theorem olaWindows_emit (num : Numerics) (s : State) (ws : List Word) (o : Ola) (wc : Nat) :
    olaWindows num (s.emit ws) o wc = olaWindows num s o wc := by
  induction wc with
  | zero => rfl
  | succ wc ih => rw [olaWindows, olaWindows, ih]; rfl

theorem firRun_emit (num : Numerics) (s : State) (ws : List Word) :
    firRun num (s.emit ws) = (firRun num s).over (·.emit ws) := by
  rw [firRun_eq, firRun_eq]
  simp only [firCount, size_emit, State.LH_emit, firOut_emit, append_emit]
  split
  · rfl
  · refine Run.over_bind _ _ _ fun _ s1 => ?_
    rw [show (s1.emit ws).advance _ = (s1.advance _).emit ws from rfl, discard_emit]
    exact Run.over_bind _ _ _ fun _ _ => rfl

theorem intRun_emit (num : Numerics) (s : State) (ws : List Word) :
    intRun num (s.emit ws) = (intRun num s).over (·.emit ws) := by
  rw [intRun_eq, intRun_eq]
  simp only [intCount, size_emit, State.R_emit, State.D_emit, State.intIn_emit, intOut_emit, append_emit]
  split
  · rfl
  · refine Run.over_bind _ _ _ fun _ s1 => ?_
    rw [show (s1.emit ws).advance _ = (s1.advance _).emit ws from rfl, discard_emit]
    exact Run.over_bind _ _ _ fun _ _ => rfl

theorem olaRun_emit (num : Numerics) (s : State) (ws : List Word) :
    olaRun num (s.emit ws) = (olaRun num s).over (·.emit ws) := by
  have hr : ∀ u : State, olaResult num (u.emit ws) = olaResult num u := fun u => by
    rw [olaResult, olaCount, size_emit, State.WS_emit, olaWindows_emit]; rfl
  rw [olaRun_eq, olaRun_eq]
  simp only [olaCount, size_emit, State.S_emit, State.WS_emit, hr, append_emit]
  refine Run.over_bind _ _ _ fun _ s1 => ?_
  rw [show (olaUpdate num (s1.emit ws)).advance _ = ((olaUpdate num s1).advance _).emit ws by
    rw [olaUpdate, hr]; rfl, discard_emit]
  exact Run.over_bind _ _ _ fun _ _ => rfl

/-- No run of a command's body writes the response stream, the port, the parameters or the reset input: only `finish` does. -/
theorem keepsRun_interface (s0 : State) :
    KeepsRun fun s => s.resp = s0.resp ∧ s.port = s0.port ∧ s.params = s0.params ∧ s.resetIn = s0.resetIn where
  append s b n v h _ _ := by simpa using h
  extend s b n h _ _ := by simpa using h
  poke s b off v h _ _ := by simpa using h
  discard s b n h _ _ := by simpa using h
  ola num s h _ := h
  advance s n h _ := h
  primed s h _ := h
  oversize s h _ := h
  short s n h _ _ := h

end Sys2Proof.Machine
end

