-- ==== Sys2Proof/Laws/Encoding.lean ====
section
/-! SUPPORT. The fields of a command word, the framing of a stream, and the numbers of buffers and registers. -/

namespace Sys2Proof

/-! ## Fields (R81) -/

@[simp] theorem opOf_cmdWord (op : BitVec 6) (b : BitVec 2) (imm : BitVec 24) : opOf (cmdWord op b imm) = op := by
  apply BitVec.eq_of_getLsbD_eq
  intro i hi
  simp only [opOf, cmdWord, BitVec.getLsbD_extractLsb', BitVec.getLsbD_append]
  grind

@[simp] theorem bOf_cmdWord (op : BitVec 6) (b : BitVec 2) (imm : BitVec 24) : bOf (cmdWord op b imm) = b := by
  apply BitVec.eq_of_getLsbD_eq
  intro i hi
  simp only [bOf, cmdWord, BitVec.getLsbD_extractLsb', BitVec.getLsbD_append]
  grind

@[simp] theorem immOf_cmdWord (op : BitVec 6) (b : BitVec 2) (imm : BitVec 24) : immOf (cmdWord op b imm) = imm := by
  apply BitVec.eq_of_getLsbD_eq
  intro i hi
  simp only [immOf, cmdWord, BitVec.getLsbD_extractLsb', BitVec.getLsbD_append]
  grind

/-- A command word is its three fields. -/
theorem cmdWord_fields (cw : Word) : cmdWord (opOf cw) (bOf cw) (immOf cw) = cw := by
  apply BitVec.eq_of_getLsbD_eq
  intro i hi
  simp only [opOf, bOf, immOf, cmdWord, BitVec.getLsbD_extractLsb', BitVec.getLsbD_append]
  grind

@[simp] theorem rOf_cmdWord (op : BitVec 6) (b : BitVec 2) (high : BitVec 20) (r : BitVec 4) :
    rOf (cmdWord op b (high ++ r)) = r := by
  apply BitVec.eq_of_getLsbD_eq
  intro i hi
  simp only [rOf, cmdWord, BitVec.getLsbD_extractLsb', BitVec.getLsbD_append]
  grind

@[simp] theorem rHighOf_cmdWord (op : BitVec 6) (b : BitVec 2) (high : BitVec 20) (r : BitVec 4) :
    rHighOf (cmdWord op b (high ++ r)) = high := by
  apply BitVec.eq_of_getLsbD_eq
  intro i hi
  simp only [rHighOf, cmdWord, BitVec.getLsbD_extractLsb', BitVec.getLsbD_append]
  grind

/-- The immediate of format R is its must-be-zero part and its register number. -/
theorem immOf_eq_rHighOf_append_rOf (cw : Word) : immOf cw = rHighOf cw ++ rOf cw := by
  apply BitVec.eq_of_getLsbD_eq
  intro i hi
  simp only [immOf, rHighOf, rOf, BitVec.getLsbD_extractLsb', BitVec.getLsbD_append]
  grind

@[simp] theorem BufId.ofBits_bits (b : BufId) : BufId.ofBits b.bits = b := by cases b <;> rfl

@[simp] theorem BufId.bits_ofBits (x : BitVec 2) : (BufId.ofBits x).bits = x := by
  revert x; decide

@[simp] theorem CfgReg.ofBits_bits (r : CfgReg) : CfgReg.ofBits r.bits = r := by cases r <;> rfl

@[simp] theorem CfgReg.bits_ofBits (x : BitVec 4) : (CfgReg.ofBits x).bits = x := by
  revert x; decide

/-! ## Framing (R83, R91) -/

theorem hasWords_eq (n : Nat) (ws : List Word) : hasWords n ws = decide (n ≤ ws.length) := by
  induction n generalizing ws with
  | zero => simp [hasWords]
  | succ n ih =>
    cases ws with
    | nil => simp [hasWords]
    | cons w ws => simp [hasWords, ih]

/-- A command word with its whole payload behind it is framed. -/
theorem frame_cons_append (cw : Word) (payload rest : List Word) (h : payload.length = plen cw) :
    frame (cw :: (payload ++ rest)) = .ok { cw := cw, payload := payload, rest := rest } := by
  have hn : plen cw ≤ (payload ++ rest).length := by rw [List.length_append]; omega
  rw [frame, hasWords_eq, decide_eq_true hn, if_pos rfl, ← h, List.take_left, List.drop_left]

theorem frame_cons_of_short (cw : Word) (ws : List Word) (h : ws.length < plen cw) :
    frame (cw :: ws) = .error .truncatedPayload := by
  rw [frame, hasWords_eq, decide_eq_false (by omega)]
  rfl

/-- What a frame is: a command word, as many words as it asks for, and the rest. -/
theorem frame_ok {ws : List Word} {f : Frame} (h : frame ws = .ok f) :
    ws = f.cw :: (f.payload ++ f.rest) ∧ f.payload.length = plen f.cw := by
  cases ws with
  | nil => cases h
  | cons cw ws =>
    rw [frame, hasWords_eq] at h
    by_cases hn : plen cw ≤ ws.length
    · rw [decide_eq_true hn, if_pos rfl] at h
      cases h
      exact ⟨congrArg _ (List.take_append_drop ..).symm, List.length_take.trans (Nat.min_eq_left hn)⟩
    · rw [decide_eq_false hn] at h
      cases h

theorem decode_of_frame {ws : List Word} {f : Frame} {i : Instr} (hf : frame ws = .ok f)
    (hi : decodeFrame f.cw f.payload = .ok i) : decode ws = .ok (i, f.rest) := by
  rw [decode, hf]
  simp only
  rw [hi]

theorem decode_ok {ws rest : List Word} {i : Instr} (h : decode ws = .ok (i, rest)) :
    ∃ f, frame ws = .ok f ∧ decodeFrame f.cw f.payload = .ok i ∧ f.rest = rest := by
  rw [decode] at h
  cases hf : frame ws with
  | error e => rw [hf] at h; cases h
  | ok f =>
    rw [hf] at h
    simp only at h
    cases hi : decodeFrame f.cw f.payload with
    | error e => rw [hi] at h; cases h
    | ok j => rw [hi] at h; cases h; exact ⟨f, rfl, hi, rfl⟩

end Sys2Proof
end

