-- ==== Sys2Proof/Laws/Frames.lean ====
section
/-! SUPPORT. The frames of Safety.lean, met once by the operations they describe: a discard, an append, and the two kinds
of response. -/

namespace Sys2Proof.Machine

theorem Buf.discarded_consume (q : Buf) (n : Nat) : Discarded n q (q.consume n) :=
  ⟨rfl, Buf.startIndex_consume q n, by simp⟩

theorem Buf.extended_appended {q : Buf} (h : q.ds ≤ q.de) (n : Nat) (v : List Word) :
    Extended n q (q.appended n v) := by
  refine ⟨by simp, by simp, ?_⟩
  rw [Buf.endIndex_eq, Buf.size_appended h, Buf.endIndex_eq h]
  · simp [BitVec.ofNat_add, BitVec.add_assoc]
  · have := Buf.ds_le_makeRoom h n
    show (q.makeRoom n).ds ≤ (q.makeRoom n).de + n
    omega

/-- The response of a command that faulted or was refused (R86). -/
theorem isResponse_errWord (k : Nat) (c : Cause) : IsResponse k (errWord c) [] := by
  have key : (errWord c).extractLsb' 28 3 = 0 ∧ (errWord c).getLsbD 31 = true ∧ (errWord c).extractLsb' 0 24 = 0 ∧
      1 ≤ ((errWord c).extractLsb' 24 4).toNat ∧ ((errWord c).extractLsb' 24 4).toNat ≤ 7 := by
    cases c <;> decide
  exact ⟨key.1, fun _ => ⟨rfl, key.2.2⟩, fun h => by rw [key.2.1] at h; cases h⟩

/-- An OK status word has no bit above `RESULT` (R86). -/
theorem okWord_getLsbD {n i : Nat} (h : 24 ≤ i) : (okWord n).getLsbD i = false := by
  show ((0#8 ++ BitVec.ofNat 24 n : BitVec (8 + 24)).getLsbD i) = false
  rw [BitVec.getLsbD_append, if_neg (by omega), BitVec.getLsbD_zero]

/-- The response of a command that completed (R86). -/
theorem isResponse_okWord (n : Nat) (data : List Word) : IsResponse data.length (okWord n) data := by
  refine ⟨?_, fun h => ?_, fun _ => ⟨?_, rfl⟩⟩
  · apply BitVec.eq_of_getLsbD_eq
    intro i hi
    rw [BitVec.getLsbD_extractLsb', okWord_getLsbD (by omega), Bool.and_false]
    exact BitVec.getLsbD_zero.symm
  · rw [okWord_getLsbD (by omega)] at h; cases h
  · apply BitVec.eq_of_getLsbD_eq
    intro i hi
    rw [BitVec.getLsbD_extractLsb', okWord_getLsbD (by omega), Bool.and_false]
    exact BitVec.getLsbD_zero.symm

end Sys2Proof.Machine
end

