-- ==== Sys2Proof/Laws/PerInstr.lean ====
section
/-! SUPPORT. Statements about every instruction as syntax, one lemma per constructor. -/

namespace Sys2Proof.Laws

/-! ## The opcode field of the command word (R81, R85) -/

/-- The opcode field of an instruction's command word holds its opcode. -/
def OpcodeField.Statement (i : Instr) : Prop := opOf i.commandWord = i.opcode

theorem OpcodeField.nop : OpcodeField.Statement .nop := opOf_cmdWord _ _ _
theorem OpcodeField.reset : OpcodeField.Statement .reset := opOf_cmdWord _ _ _
theorem OpcodeField.setcfg (r : CfgReg) (v : Word) : OpcodeField.Statement (.setcfg r v) := opOf_cmdWord _ _ _
theorem OpcodeField.getcfg (r : CfgReg) : OpcodeField.Statement (.getcfg r) := opOf_cmdWord _ _ _
theorem OpcodeField.ldhp (n : BitVec 24) (c : List Word) : OpcodeField.Statement (.ldhp n c) := opOf_cmdWord _ _ _
theorem OpcodeField.ldip (n : BitVec 24) (h : List Word) : OpcodeField.Statement (.ldip n h) := opOf_cmdWord _ _ _
theorem OpcodeField.ldwin (n : BitVec 24) (w : List Word) : OpcodeField.Statement (.ldwin n w) := opOf_cmdWord _ _ _
theorem OpcodeField.build : OpcodeField.Statement .build := opOf_cmdWord _ _ _
theorem OpcodeField.extend (b : BufId) (n : BitVec 24) : OpcodeField.Statement (.extend b n) := opOf_cmdWord _ _ _
theorem OpcodeField.poke (b : BufId) (off : BitVec 24) (v : Word) : OpcodeField.Statement (.poke b off v) := opOf_cmdWord _ _ _
theorem OpcodeField.append (b : BufId) (n : BitVec 24) (v : List Word) : OpcodeField.Statement (.append b n v) := opOf_cmdWord _ _ _
theorem OpcodeField.appendz (b : BufId) (n : BitVec 24) : OpcodeField.Statement (.appendz b n) := opOf_cmdWord _ _ _
theorem OpcodeField.discard (b : BufId) (n : BitVec 24) : OpcodeField.Statement (.discard b n) := opOf_cmdWord _ _ _
theorem OpcodeField.size (b : BufId) : OpcodeField.Statement (.size b) := opOf_cmdWord _ _ _
theorem OpcodeField.peek (b : BufId) (off : BitVec 24) : OpcodeField.Statement (.peek b off) := opOf_cmdWord _ _ _
theorem OpcodeField.startidx (b : BufId) : OpcodeField.Statement (.startidx b) := opOf_cmdWord _ _ _
theorem OpcodeField.endidx (b : BufId) : OpcodeField.Statement (.endidx b) := opOf_cmdWord _ _ _
theorem OpcodeField.firrun : OpcodeField.Statement .firrun := opOf_cmdWord _ _ _
theorem OpcodeField.intrun : OpcodeField.Statement .intrun := opOf_cmdWord _ _ _
theorem OpcodeField.olarun : OpcodeField.Statement .olarun := opOf_cmdWord _ _ _
theorem OpcodeField.prime (n : BitVec 24) : OpcodeField.Statement (.prime n) := opOf_cmdWord _ _ _
theorem OpcodeField.process (n : BitVec 24) (x : List Word) : OpcodeField.Statement (.process n x) := opOf_cmdWord _ _ _

/-! ## The payload (R83) -/

/-- A well-formed instruction carries as many payload words as its command word asks for. -/
def PayloadLength.Statement (i : Instr) : Prop := i.wellFormed = true → i.payload.length = plen i.commandWord

theorem PayloadLength.nop : PayloadLength.Statement .nop := fun _ => by
  simp [Instr.payload, Instr.commandWord, plen]

theorem PayloadLength.reset : PayloadLength.Statement .reset := fun _ => by
  simp [Instr.payload, Instr.commandWord, plen]

theorem PayloadLength.setcfg (r : CfgReg) (v : Word) : PayloadLength.Statement (.setcfg r v) := fun _ => by
  simp [Instr.payload, Instr.commandWord, plen]

theorem PayloadLength.getcfg (r : CfgReg) : PayloadLength.Statement (.getcfg r) := fun _ => by
  simp [Instr.payload, Instr.commandWord, plen]

theorem PayloadLength.ldhp (n : BitVec 24) (c : List Word) : PayloadLength.Statement (.ldhp n c) := fun h => by
  simpa [Instr.wellFormed, Instr.payload, Instr.commandWord, plen] using h

theorem PayloadLength.ldip (n : BitVec 24) (h : List Word) : PayloadLength.Statement (.ldip n h) := fun h => by
  simpa [Instr.wellFormed, Instr.payload, Instr.commandWord, plen] using h

theorem PayloadLength.ldwin (n : BitVec 24) (w : List Word) : PayloadLength.Statement (.ldwin n w) := fun h => by
  simpa [Instr.wellFormed, Instr.payload, Instr.commandWord, plen] using h

theorem PayloadLength.build : PayloadLength.Statement .build := fun _ => by
  simp [Instr.payload, Instr.commandWord, plen]

theorem PayloadLength.extend (b : BufId) (n : BitVec 24) : PayloadLength.Statement (.extend b n) := fun _ => by
  simp [Instr.payload, Instr.commandWord, plen]

theorem PayloadLength.poke (b : BufId) (off : BitVec 24) (v : Word) : PayloadLength.Statement (.poke b off v) := fun _ => by
  simp [Instr.payload, Instr.commandWord, plen]

theorem PayloadLength.append (b : BufId) (n : BitVec 24) (v : List Word) : PayloadLength.Statement (.append b n v) := fun h => by
  simpa [Instr.wellFormed, Instr.payload, Instr.commandWord, plen] using h

theorem PayloadLength.appendz (b : BufId) (n : BitVec 24) : PayloadLength.Statement (.appendz b n) := fun _ => by
  simp [Instr.payload, Instr.commandWord, plen]

theorem PayloadLength.discard (b : BufId) (n : BitVec 24) : PayloadLength.Statement (.discard b n) := fun _ => by
  simp [Instr.payload, Instr.commandWord, plen]

theorem PayloadLength.size (b : BufId) : PayloadLength.Statement (.size b) := fun _ => by
  simp [Instr.payload, Instr.commandWord, plen]

theorem PayloadLength.peek (b : BufId) (off : BitVec 24) : PayloadLength.Statement (.peek b off) := fun _ => by
  simp [Instr.payload, Instr.commandWord, plen]

theorem PayloadLength.startidx (b : BufId) : PayloadLength.Statement (.startidx b) := fun _ => by
  simp [Instr.payload, Instr.commandWord, plen]

theorem PayloadLength.endidx (b : BufId) : PayloadLength.Statement (.endidx b) := fun _ => by
  simp [Instr.payload, Instr.commandWord, plen]

theorem PayloadLength.firrun : PayloadLength.Statement .firrun := fun _ => by
  simp [Instr.payload, Instr.commandWord, plen]

theorem PayloadLength.intrun : PayloadLength.Statement .intrun := fun _ => by
  simp [Instr.payload, Instr.commandWord, plen]

theorem PayloadLength.olarun : PayloadLength.Statement .olarun := fun _ => by
  simp [Instr.payload, Instr.commandWord, plen]

theorem PayloadLength.prime (n : BitVec 24) : PayloadLength.Statement (.prime n) := fun _ => by
  simp [Instr.payload, Instr.commandWord, plen]

theorem PayloadLength.process (n : BitVec 24) (x : List Word) : PayloadLength.Statement (.process n x) := fun h => by
  simpa [Instr.wellFormed, Instr.payload, Instr.commandWord, plen] using h

end Sys2Proof.Laws
end

