-- ==== Sys2Proof/Tests/Slice0.lean ====
section
/-! SUPPORT. Tests: the well-formedness smoke, a written-out word for every command, one-step tests whose expected
values are those of spec/95_test_vectors.md, and for every statement with hypotheses a witness that meets them. -/

namespace Sys2Proof.Tests

-- One theorem after another: a kernel `decide` waits for every earlier declaration, and waiting threads add up.
set_option Elab.async false

open Sys2Proof Sys2Proof.Machine

/-! ## Helpers -/

/-- The state of an outcome, for the tests. -/
def after (o : Host.Outcome State Machine.Fault Refusal) : State :=
  match o with
  | .next t => t
  | _ => State.reset

/-- One command, its response alone in the stream. -/
def ran (i : Instr) (s : State) : State := after (exec i { s with resp := [] })

/-- A buffer that holds these words from slot `ds` on. -/
def holding (cap ds : Nat) (ws : List Word) : Buf :=
  { cap := cap, ds := ds, de := ds + ws.length, bsi := 0, store := Memory.cells ds ws }

/-- The live samples, oldest first. -/
def live (q : Buf) : List (Option Word) := (List.range q.size).map q.data?

/-- Setup A of spec/95_test_vectors.md before BUILD, with small RAMs. -/
def setupA : State :=
  { State.reset with
    params := { bufWords := 32, hpWords := 4, ipWords := 4, winWords := 8, accWords := 6, arith := .binary32 }
    maxIn := 4, factor := 2, segSize := 2, capMul0 := 2, capMul1 := 2, capMul2 := 2, capMul3 := 2
    ipLen := 2, ic := Memory.cells 0 [0x3F800000, 0x3F800000]
    winLen := 4, win := Memory.cells 0 [0x3F000000, 0x3F000000, 0x3F000000, 0x3F000000] }

/-- Setup F before BUILD: Setup A with a highpass of three taps. -/
def setupF : State :=
  { setupA with ctrl := 1, hpLen := 3, hc := Memory.cells 0 [0x3F800000, 0x40000000, 0x40400000] }

/-- Setup A after BUILD. -/
def readyA : State := ran .build setupA

/-- Setup F after BUILD. -/
def readyF : State := ran .build setupF

/-- A faulted engine: the state V-BUF-5 describes. -/
def faultedA : State := ran (.size .b0) State.reset

/-! ## Well-formedness (R92): an ill-formed term for each check is refused -/

theorem test_ldhp_payload_length : (Instr.ldhp 2 [0x3F800000]).wellFormed = false := by decide
theorem test_ldip_payload_length : (Instr.ldip 0 [0x3F800000]).wellFormed = false := by decide
theorem test_ldwin_payload_length : (Instr.ldwin 1 []).wellFormed = false := by decide
theorem test_append_payload_length : (Instr.append .b2 1 [0, 0]).wellFormed = false := by decide
theorem test_process_payload_length : (Instr.process 3 [0, 0]).wellFormed = false := by decide

/-! ## Decoding: the words of V-ENC-1, every command -/

theorem test_decode_nop : decode [0x00000000] = .ok (.nop, []) := by rfl
theorem test_decode_reset : decode [0x04000000] = .ok (.reset, []) := by rfl
theorem test_decode_setcfg : decode [0x08000007, 0x00000002] = .ok (.setcfg .capMul3 2, []) := by rfl
theorem test_decode_getcfg : decode [0x0C00000F] = .ok (.getcfg .accPos, []) := by rfl
theorem test_decode_ldhp : decode [0x10000003, 0x3F800000, 0x40000000, 0x40400000] =
    .ok (.ldhp 3 [0x3F800000, 0x40000000, 0x40400000], []) := by rfl
theorem test_decode_ldip : decode [0x14000002, 0x3F800000, 0x3F800000] =
    .ok (.ldip 2 [0x3F800000, 0x3F800000], []) := by rfl
theorem test_decode_ldwin : decode [0x18000004, 0x3F000000, 0x3F000000, 0x3F000000, 0x3F000000] =
    .ok (.ldwin 4 [0x3F000000, 0x3F000000, 0x3F000000, 0x3F000000], []) := by rfl
theorem test_decode_build : decode [0x1C000000] = .ok (.build, []) := by rfl
theorem test_decode_extend : decode [0x41000003] = .ok (.extend .b1 3, []) := by rfl
theorem test_decode_poke : decode [0x45000002, 0x3F800000] = .ok (.poke .b1 2 0x3F800000, []) := by rfl
theorem test_decode_append : decode [0x48000002, 0x3F800000, 0x40000000] =
    .ok (.append .b0 2 [0x3F800000, 0x40000000], []) := by rfl
theorem test_decode_appendz : decode [0x4E000004] = .ok (.appendz .b2 4, []) := by rfl
theorem test_decode_discard : decode [0x53000005] = .ok (.discard .b3 5, []) := by rfl
theorem test_decode_size : decode [0x57000000] = .ok (.size .b3, []) := by rfl
theorem test_decode_peek : decode [0x58000001] = .ok (.peek .b0 1, []) := by rfl
theorem test_decode_startidx : decode [0x5E000000] = .ok (.startidx .b2, []) := by rfl
theorem test_decode_endidx : decode [0x61000000] = .ok (.endidx .b1, []) := by rfl
theorem test_decode_firrun : decode [0x80000000] = .ok (.firrun, []) := by rfl
theorem test_decode_intrun : decode [0x84000000] = .ok (.intrun, []) := by rfl
theorem test_decode_olarun : decode [0x88000000] = .ok (.olarun, []) := by rfl
theorem test_decode_prime : decode [0xC0000004] = .ok (.prime 4, []) := by rfl
theorem test_decode_process : decode [0xC4000002, 0x3F800000, 0xBF800000, 0x04000000] =
    .ok (.process 2 [0x3F800000, 0xBF800000], [0x04000000]) := by rfl

/-- V-ENC-2: the illegal words, with the payload that still goes with them, are rejected by name. -/
theorem test_decode_illegal :
    decode [0x20000000] = .error .unassignedOpcode ∧ decode [0x64000000] = .error .unassignedOpcode ∧
    decode [0x00000001] = .error .mustBeZero ∧ decode [0x1D000000] = .error .mustBeZero ∧
    decode [0x54000001] = .error .mustBeZero ∧ decode [0x0C000010] = .error .mustBeZero ∧
    decode [0xC5000002, 0x3F800000, 0x3F800000] = .error .mustBeZero ∧
    decode [0x09000001, 0x3F800000] = .error .mustBeZero :=
  ⟨rfl, rfl, rfl, rfl, rfl, rfl, rfl, rfl⟩

theorem test_decode_stream_end :
    decode [] = .error .emptyStream ∧ decode [0x10000002, 0x3F800000] = .error .truncatedPayload := ⟨rfl, rfl⟩

/-- The opcode table's numbering: POKE's payload is bits 63:32. -/
theorem test_table_word : decodeTableWord 64 0x3F80000045000002 = some (.poke .b1 2 0x3F800000) := by decide +kernel

/-! ## One step of each command -/

/-- V-ENC-3: an illegal PROCESS takes its two payload words with it; the next word waits. -/
theorem test_step_illegal :
    (after (step { readyA with resp := [], port := [0xC5000002, 0x3F800000, 0x3F800000, 0] })).resp = [0x83000000] ∧
    (after (step { readyA with resp := [], port := [0xC5000002, 0x3F800000, 0x3F800000, 0] })).fault = 0x00003103 ∧
    (after (step { readyA with resp := [], port := [0xC5000002, 0x3F800000, 0x3F800000, 0] })).port = [0] := by
  decide +kernel

theorem test_step_reset_input :
    (after (step { readyA with resetIn := .insideCommand, port := [0x4A000001, 0x3F800000, 0] })).port = [0] ∧
    (after (step { readyA with resetIn := .insideCommand, port := [0x4A000001, 0x3F800000, 0] })).eng = .unconfigured := by
  decide +kernel

/-- The fetch word runs as the first instruction after reset. -/
theorem test_fetch_word : (after (step (State.reset.withFetchWord 64 0x00000002_08000001))).factor = 2 := by decide +kernel

/-- V-CTL-3: NOP answers in FAULTED. -/
theorem test_nop : (ran .nop faultedA).resp = [0x00000000] ∧ (ran .nop faultedA).fault = 0x00001504 := by decide +kernel

theorem test_reset : (ran .reset faultedA).resp = [0x00000000] ∧ (ran .reset faultedA).fault = 0 := by decide +kernel

/-- V-CTL-2, command 4. -/
theorem test_setcfg : (ran (.setcfg .maxIn 0x12345678) State.reset).maxIn = 0x00345678 := by decide +kernel

/-- V-CTL-2, commands 12 and 14. -/
theorem test_setcfg_read_only : (ran (.setcfg .status 0) State.reset).resp = [0x85000000] ∧
    (ran (.setcfg .status 0) State.reset).fault = 0x00000205 ∧
    (ran (.setcfg .status 0) State.reset).faultInfo = 0x0000000B := by decide +kernel

theorem test_getcfg : (ran (.getcfg .status) readyA).resp = [0x00000000, 0x00000001] := by decide +kernel

/-- V-CTL-2, command 8. -/
theorem test_ldhp : (ran (.ldhp 2 [0x3F800000, 0xBF800000]) State.reset).hpLen = 2 ∧
    (ran (.ldhp 2 [0x3F800000, 0xBF800000]) State.reset).hc.read 1 = some 0xBF800000 := by decide +kernel

/-- R186: the words of `IC` a shorter load does not reach are left. -/
theorem test_ldip : (ran (.ldip 1 [0x40000000]) setupA).ipLen = 1 ∧
    (ran (.ldip 1 [0x40000000]) setupA).ic = Memory.cells 0 [0x40000000, 0x3F800000] := by decide +kernel

theorem test_ldwin : (ran (.ldwin 1 [0]) State.reset).winLen = 1 ∧ (ran (.ldwin 1 [0]) State.reset).win = [(0, 0)] := by
  decide +kernel

/-- Setup F: BUILD reverses the coefficients and primes buffer 1 with two zeros. -/
theorem test_build : readyF.resp = [0x00000000] ∧ readyF.eng = .ready ∧
    readyF.hr = Memory.cells 0 [0x40400000, 0x40000000, 0x3F800000] ∧ live readyF.buf1 = [some 0, some 0] ∧
    readyF.buf2.size = 0 ∧ readyF.buf3.cap = 8 ∧ readyF.acc = Memory.cells 0 [0, 0] := by decide +kernel

/-- V-CTL-1: `CAPMUL2 = 0` fails check 4 with buffer 2. -/
theorem test_build_check : (ran .build { setupA with capMul2 := 0 }).resp = [0x85000000] ∧
    (ran .build { setupA with capMul2 := 0 }).fault = 0x00000725 ∧
    (ran .build { setupA with capMul2 := 0 }).faultInfo = 4 := by decide +kernel

/-- V-BUF-4, command 2. -/
theorem test_extend : (ran (.extend .b2 2) (readyA.setBuf .b2 (holding 8 0 [0x3F800000]))).resp = [0x00000001] := by
  decide +kernel

/-- V-BUF-1, command 16. -/
theorem test_extend_overflow :
    (ran (.extend .b2 1) (readyA.setBuf .b2 (holding 8 0 [1, 2, 3, 4, 5, 6, 7, 8]))).resp = [0x81000000] ∧
    (ran (.extend .b2 1) (readyA.setBuf .b2 (holding 8 0 [1, 2, 3, 4, 5, 6, 7, 8]))).fault = 0x00001021 := by
  decide +kernel

theorem test_poke :
    live (ran (.poke .b2 1 7) (readyA.setBuf .b2 (holding 8 3 [4, 5, 6]))).buf2 = [some 4, some 7, some 6] := by
  decide +kernel

/-- V-BUF-1, command 8: the append compacts first. -/
theorem test_append :
    live (ran (.append .b2 1 [9]) (readyA.setBuf .b2 (holding 8 3 [4, 5, 6, 7, 8]))).buf2 =
      [some 4, some 5, some 6, some 7, some 8, some 9] ∧
    (ran (.append .b2 1 [9]) (readyA.setBuf .b2 (holding 8 3 [4, 5, 6, 7, 8]))).buf2.bsi = 3 := by decide +kernel

/-- V-BUF-1, command 14. -/
theorem test_appendz :
    live (ran (.appendz .b2 2) (readyA.setBuf .b2 (holding 8 0 [4]))).buf2 = [some 4, some 0, some 0] := by decide +kernel

/-- V-BUF-2, command 5. -/
theorem test_discard_underflow : (ran (.discard .b2 1) readyA).resp = [0x82000000] ∧
    (ran (.discard .b2 1) readyA).fault = 0x00001422 := by decide +kernel

theorem test_discard : live (ran (.discard .b2 2) (readyA.setBuf .b2 (holding 8 0 [1, 2, 3]))).buf2 = [some 3] := by
  decide +kernel

theorem test_size : (ran (.size .b2) (readyA.setBuf .b2 (holding 8 3 [4, 5]))).resp = [0x00000002] := by decide +kernel

/-- V-BUF-4, command 6. -/
theorem test_peek_range : (ran (.peek .b2 3) (readyA.setBuf .b2 (holding 8 0 [1, 2, 3]))).resp = [0x86000000] ∧
    (ran (.peek .b2 3) (readyA.setBuf .b2 (holding 8 0 [1, 2, 3]))).fault = 0x00001626 := by decide +kernel

theorem test_peek : (ran (.peek .b2 0) (readyA.setBuf .b2 (holding 8 3 [4, 5]))).resp = [0x00000000, 4] := by
  decide +kernel

/-- V-BUF-1, commands 4 and 5. -/
theorem test_startidx : (ran (.startidx .b2) (readyA.setBuf .b2 (holding 8 3 [4, 5]))).resp = [0, 3, 0] := by
  decide +kernel

theorem test_endidx : (ran (.endidx .b2) (readyA.setBuf .b2 (holding 8 3 [4, 5]))).resp = [0, 5, 0] := by decide +kernel

/-- V-FIR-1, command 3. -/
theorem test_firrun :
    (ran .firrun (readyF.setBuf .b1 (holding 8 0 [0, 0, 0x3F800000, 0, 0, 0, 0]))).resp = [0x00000005] ∧
    live (ran .firrun (readyF.setBuf .b1 (holding 8 0 [0, 0, 0x3F800000, 0, 0, 0, 0]))).buf2 =
      [some 0x3F800000, some 0x40000000, some 0x40400000, some 0, some 0] := by decide +kernel

/-- V-FIR-2. -/
theorem test_firrun_history : (ran .firrun (readyF.setBuf .b1 (holding 8 0 [0]))).resp = [0x87000000] ∧
    (ran .firrun (readyF.setBuf .b1 (holding 8 0 [0]))).fault = 0x00002017 := by decide +kernel

/-- Setup A with the filter of V-INT-1, built. -/
def readyI : State :=
  ran .build { setupA with ipLen := 4, ic := Memory.cells 0 [0x3F800000, 0x40000000, 0x40400000, 0x40800000] }

/-- V-INT-1, command 3. -/
theorem test_intrun :
    (ran .intrun (readyI.setBuf .b1 (holding 8 0 [0, 0x3F800000, 0, 0]))).resp = [0x00000006] ∧
    live (ran .intrun (readyI.setBuf .b1 (holding 8 0 [0, 0x3F800000, 0, 0]))).buf3 =
      [some 0x40800000, some 0x40400000, some 0x40000000, some 0x3F800000, some 0, some 0] := by decide +kernel

/-- V-INT-6 (a). -/
theorem test_intrun_history : (ran .intrun (readyI.setBuf .b1 (holding 8 0 []))).resp = [0x87000000] ∧
    (ran .intrun (readyI.setBuf .b1 (holding 8 0 []))).fault = 0x00002117 := by decide +kernel

/-- The configuration of V-OLA-3 before its run 1: `D = 3`, the cursor at 2. -/
def readyO : State :=
  { readyA with
    maxIn := 6, factor := 3, winLen := 6
    win := Memory.cells 0 [0, 0x3E800000, 0x3F000000, 0x3F000000, 0x3F000000, 0x3E800000]
    acc := Memory.cells 0 [0x40200000, 0x3FC00000, 0x3FC00000, 0x40000000]
    accPos := 2
    buf0 := holding 24 0 [0x40E00000, 0x41000000, 0x41100000, 0x41200000, 0x41300000, 0x41400000] }

/-- V-OLA-3, run 1: emitted samples, accumulator and cursor. -/
theorem test_olarun :
    (ran .olarun readyO).resp = [0x00000002] ∧ live (ran .olarun readyO).buf1 = [some 0x3FC00000, some 0x40800000] ∧
    (ran .olarun readyO).acc = Memory.cells 0 [0x40E00000, 0x40D00000, 0x40B00000, 0x40400000] ∧
    (ran .olarun readyO).accPos = 0 := by decide +kernel

/-- V-OLA-5: a full buffer 1. -/
theorem test_olarun_overflow :
    (ran .olarun ((readyA.setBuf .b1 (holding 8 0 [0, 0, 0, 0, 0, 0, 0])).setBuf .b0 (holding 8 0 [1, 1, 1, 1]))).resp =
      [0x81000000] := by decide +kernel

/-- V-CHN-4. -/
theorem test_prime : (ran (.prime 0) readyA).resp = [0x00000000] ∧ (ran (.prime 0) readyA).primed = true ∧
    (ran (.prime 9) readyA).resp = [0x81000000] ∧ (ran (.prime 9) readyA).fault = 0x00003001 := by decide +kernel

/-- V-CHN-2, commands 1 to 3. -/
theorem test_process_short :
    (ran (.process 3 [0x3F800000, 0x40000000, 0x40400000]) readyA).resp = [0, 0, 0, 0] ∧
    (ran (.process 3 [0x3F800000, 0x40000000, 0x40400000]) readyA).readCfg .status = 0x00000041 ∧
    (ran (.process 3 [0x3F800000, 0x40000000, 0x40400000]) readyA).shortfall = 3 := by decide +kernel

/-- V-CHN-2, command 4. -/
theorem test_process :
    (ran (.process 3 [0x40800000, 0x40A00000, 0x40C00000])
      (readyA.setBuf .b0 (holding 8 0 [0x3F800000, 0x40000000, 0x40400000]))).resp =
      [3, 0x3F000000, 0x3F000000, 0x3F800000] := by decide +kernel

/-! ## The arithmetic -/

/-- 1 + 2^-23 + 2^-24 and 1 + 2^-24 round to the even neighbour on a tie; the least subnormal doubles. -/
theorem test_add_rounds : Binary32.add 0 0x3F800001 0x33800000 = 0x3F800002 ∧
    Binary32.add 0 0x3F800000 0x33800000 = 0x3F800000 ∧ Binary32.add 0 0x00000001 0x00000001 = 0x00000002 ∧
    Binary32.add 0 0x7F7FFFFF 0x7F7FFFFF = 0x7F800000 := by decide +kernel

theorem test_mul_rounds : Binary32.mul 0 0x3FC00000 0xC0000000 = 0xC0400000 ∧
    Binary32.mul 0 0x00800000 0x3F000000 = 0x00400000 ∧ Binary32.mul 0 0x00000001 0x3F000000 = 0x00000000 ∧
    Binary32.mul 0 0x7F800000 0xBF800000 = 0xFF800000 := by decide +kernel

/-- R10: with another arithmetic the zeros of APPENDZ are that arithmetic's. -/
theorem test_other_arithmetic :
    live (ran (.appendz .b2 1) { readyA with params := { readyA.params with arith := .other 7 } }).buf2 =
      [some (Config.otherZero 7)] := by rfl

/-! ## Witnesses: for every statement with hypotheses, a state and operands that meet them together -/

theorem witness_DecodeOfEncodeGivesTheCommand :
    (Instr.append .b3 2 [0x3F800000, 0x40000000]).wellFormed = true ∧ (Instr.process 0 []).wellFormed = true := by decide

theorem witness_DecodedWordsAreTheEncoding : decode [0x45000002, 0x3F800000, 0x57000000] =
    .ok (.poke .b1 2 0x3F800000, [0x57000000]) := by rfl

theorem witness_OpcodeTableDecidesLegality :
    [(2 : Word)].length = plen 0x08000007 ∧ (∃ row ∈ opcodeTable, row.selects 0x08000007 = true) ∧
    [(2 : Word)].length = plen 0x09000007 ∧ (∀ row ∈ opcodeTable, row.selects 0x09000007 = false) := by decide +kernel

theorem witness_StepRunsTheDecodedCommand :
    ({ readyA with port := [0x4A000001, 7, 0] } : State).resetIn = .idle ∧
    decode ({ readyA with port := [0x4A000001, 7, 0] } : State).port = .ok (.append .b2 1 [7], [0]) := ⟨rfl, rfl⟩

theorem witness_IllegalWordTakesTheIllegalFault :
    readyA.resetIn = .idle ∧ ([0x3F800000, 0x3F800000] : List Word).length = plen 0xC5000002 ∧
    (∀ row ∈ opcodeTable, row.selects 0xC5000002 = false) ∧ readyA.eng ≠ .faulted ∧ faultedA.resetIn = .idle ∧
    faultedA.eng = .faulted := by decide +kernel

theorem witness_NoStepWithoutAWholeCommand :
    State.reset.resetIn = .idle ∧ State.reset.port = [] ∧ [(1 : Word)].length < plen 0x10000002 := by decide +kernel

theorem witness_HardwareResetGivesTheResetState :
    ({ readyA with resetIn := .insideCommand } : State).resetIn ≠ .idle ∧
    ({ readyA with resetIn := .betweenCommands } : State).resetIn ≠ .idle := by decide +kernel

/-- A legal and an illegal word step; the three kinds of response occur. -/
theorem witness_ExactlyOneResponse :
    readyA.resetIn = .idle ∧ decode [0x80000000] = .ok (.firrun, []) ∧ decode [0x20000000] = .error .unassignedOpcode ∧
    (after (step { readyA with resp := [], port := [0x80000000] })).resp = [0x84000000] ∧
    (after (step { readyA with resp := [], port := [0x0C000001] })).resp = [0x00000000, 2] ∧
    (after (step { readyA with resp := [], port := [0x20000000] })).resp = [0x83000000] ∧
    step { readyA with port := [0x80000000] } = .next (after (step { readyA with port := [0x80000000] })) ∧
    step { readyA with port := [0x20000000] } = .next (after (step { readyA with port := [0x20000000] })) :=
  ⟨by decide +kernel, rfl, rfl, by decide +kernel, by decide +kernel, by decide +kernel, rfl, rfl⟩

theorem witness_FaultedRefusesTheOtherCommands :
    faultedA.eng = .faulted ∧ faultedA.resetIn = .idle ∧ decode [0x1C000000] = .ok (.build, []) ∧ Instr.build ≠ .nop ∧
    Instr.build ≠ .reset ∧ (∀ r, Instr.build ≠ .getcfg r) ∧ ([] : List Word).length = plen 0x20000000 ∧
    (∀ row ∈ opcodeTable, row.selects 0x20000000 = false) :=
  ⟨by decide +kernel, by decide +kernel, rfl, by decide, by decide, (fun _ h => by cases h), by decide +kernel,
    by decide +kernel⟩

theorem witness_OnlyResetLeavesFaulted :
    faultedA.eng = .faulted ∧ exec .build faultedA = .next (after (exec .build faultedA)) ∧ Instr.build ≠ .reset :=
  ⟨by decide +kernel, rfl, by decide⟩

theorem witness_WrongStateTakesTheStateFault :
    State.reset.eng = .unconfigured ∧ (∃ b n, Instr.extend .b0 3 = .extend b n) ∧ readyA.eng = .ready ∧
    readyA.hpEn = false :=
  ⟨rfl, ⟨_, _, rfl⟩, by decide +kernel, by decide +kernel⟩

theorem witness_EngineStateTransitions :
    exec .reset faultedA = .next (after (exec .reset faultedA)) ∧ exec .build setupA = .next (after (exec .build setupA)) ∧
    (after (exec .build setupA)).eng = .ready ∧ exec .olarun State.reset = .next (after (exec .olarun State.reset)) ∧
    (after (exec .olarun State.reset)).eng = .faulted ∧ State.reset.eng ≠ .faulted :=
  ⟨rfl, rfl, by decide +kernel, rfl, by decide +kernel, by decide +kernel⟩

/-- A built and a faulted engine. -/
theorem witness_ConfigurationImmutableOnceReady :
    readyA.eng ≠ .unconfigured ∧ Instr.olarun ≠ .reset ∧ exec .olarun readyA = .next (after (exec .olarun readyA)) ∧
    exec .build readyA = .next (after (exec .build readyA)) ∧ faultedA.eng ≠ .unconfigured ∧
    exec .build faultedA = .next (after (exec .build faultedA)) :=
  ⟨by decide +kernel, by decide, rfl, rfl, by decide +kernel, rfl⟩

theorem witness_OnlyTheOverlapAdderMovesTheCursor :
    exec .firrun readyF = .next (after (exec .firrun readyF)) ∧ Instr.firrun ≠ .build ∧ Instr.firrun ≠ .reset ∧
    Instr.firrun ≠ .olarun ∧ ∀ n x, Instr.firrun ≠ .process n x :=
  ⟨rfl, by decide, by decide, by decide, fun _ _ h => by cases h⟩

theorem witness_StatusRegisterFields : readyO.accPos < 2 ^ 24 := by decide +kernel

/-- The first and the last writable register, the first and the last read-only one, and READY. -/
theorem witness_SetcfgStoresTheMaskedValue :
    State.reset.eng = .unconfigured ∧ regNum .maxIn < 8 ∧ regNum .capMul3 < 8 ∧ 8 ≤ regNum .hpLen ∧
    8 ≤ regNum .accPos ∧ readyA.eng = .ready := by decide +kernel

/-- The empty vector, one that fills the RAM, one word more than fits, and READY. -/
theorem witness_LdhpLoadsTheVector :
    setupA.eng = .unconfigured ∧ ([] : List Word).length = (0 : BitVec 24).toNat ∧
    (0 : BitVec 24).toNat ≤ setupA.params.hpWords ∧ ([1, 2, 3, 4] : List Word).length = (4 : BitVec 24).toNat ∧
    (4 : BitVec 24).toNat ≤ setupA.params.hpWords ∧ ([1, 2, 3, 4, 5] : List Word).length = (5 : BitVec 24).toNat ∧
    setupA.params.hpWords < (5 : BitVec 24).toNat ∧ readyA.eng = .ready := by decide +kernel

theorem witness_LdipLoadsTheVector :
    setupA.eng = .unconfigured ∧ ([1, 2, 3, 4] : List Word).length = (4 : BitVec 24).toNat ∧
    (4 : BitVec 24).toNat ≤ setupA.params.ipWords ∧ ([1, 2, 3, 4, 5] : List Word).length = (5 : BitVec 24).toNat ∧
    setupA.params.ipWords < (5 : BitVec 24).toNat ∧ readyA.eng = .ready := by decide +kernel

theorem witness_LdwinLoadsTheWindow :
    setupA.eng = .unconfigured ∧ (List.replicate 8 0 : List Word).length = (8 : BitVec 24).toNat ∧
    (8 : BitVec 24).toNat ≤ setupA.params.winWords ∧ (List.replicate 9 0 : List Word).length = (9 : BitVec 24).toNat ∧
    setupA.params.winWords < (9 : BitVec 24).toNat ∧ readyA.eng = .ready := by decide +kernel

theorem setupA_legal : ConfigLegal setupA :=
  ⟨by decide, by decide, by decide, fun b => by cases b <;> decide, by decide, by decide, by decide, by decide, by decide⟩

theorem setupF_legal : ConfigLegal setupF :=
  ⟨by decide, by decide, by decide, fun b => by cases b <;> decide, by decide, by decide, by decide, by decide, by decide⟩

theorem setupF_canonical : CanonicalMemories setupF :=
  ⟨fun b => by cases b <;> decide, by decide, by decide, by decide, by decide, by decide, by decide⟩

theorem witness_BuildConstructsTheEngine :
    setupF.eng = .unconfigured ∧ ConfigLegal setupF ∧ CanonicalMemories setupF ∧ ConfigLegal setupA :=
  ⟨rfl, setupF_legal, setupF_canonical, setupA_legal⟩

/-- The cases of V-CTL-1, one for each check. -/
theorem witness_BuildReportsTheFirstFailingCheck :
    buildCheck { setupA with factor := 5 } = some (.b0, 1) ∧ buildCheck { setupA with maxIn := 0 } = some (.b0, 2) ∧
    buildCheck { setupA with segSize := 0 } = some (.b0, 3) ∧ buildCheck { setupA with capMul0 := 0 } = some (.b0, 4) ∧
    buildCheck { setupA with capMul1 := 9 } = some (.b1, 4) ∧ buildCheck { setupA with capMul2 := 0 } = some (.b2, 4) ∧
    buildCheck { setupA with capMul3 := 9 } = some (.b3, 4) ∧ buildCheck { setupA with winLen := 0 } = some (.b0, 5) ∧
    buildCheck { setupA with params := { setupA.params with accWords := 1 } } = some (.b0, 6) ∧
    buildCheck { setupA with ipLen := 0 } = some (.b0, 7) ∧ buildCheck { setupA with ctrl := 1 } = some (.b0, 8) ∧
    buildCheck { setupF with maxIn := 1, capMul1 := 1 } = some (.b1, 9) ∧
    buildCheck { setupA with maxIn := 1, capMul1 := 1, ipLen := 5 } = some (.b1, 9) := by decide +kernel

/-- A buffer with three samples and discarded slots before them. -/
def used : State := readyA.setBuf .b2 (holding 8 3 [4, 5, 6])

/-- Nothing reserved, every free slot reserved (with a compaction), and one slot more. -/
theorem witness_ExtendReservesSlots :
    used.eng = .ready ∧ (used.buf .b2).ds ≤ (used.buf .b2).de ∧
    used.size .b2 + (0 : BitVec 24).toNat ≤ (used.buf .b2).cap ∧
    used.size .b2 + (5 : BitVec 24).toNat ≤ (used.buf .b2).cap ∧
    (used.buf .b2).cap < used.size .b2 + (6 : BitVec 24).toNat := by decide +kernel

/-- Up to the physical end, and one slot further. -/
theorem witness_ExtendReservesSlots_compaction :
    used.eng = .ready ∧ (used.buf .b2).ds ≤ (used.buf .b2).de ∧
    exec (.extend .b2 2) used = .next (after (exec (.extend .b2 2) used)) ∧
    (used.buf .b2).de + (2 : BitVec 24).toNat ≤ (used.buf .b2).cap ∧
    exec (.extend .b2 3) used = .next (after (exec (.extend .b2 3) used)) ∧
    used.size .b2 + (3 : BitVec 24).toNat ≤ (used.buf .b2).cap ∧
    (used.buf .b2).cap < (used.buf .b2).de + (3 : BitVec 24).toNat :=
  ⟨by decide +kernel, by decide +kernel, rfl, by decide +kernel, rfl, by decide +kernel, by decide +kernel⟩

theorem witness_PokeStoresOneWord :
    used.eng = .ready ∧ (0 : BitVec 24).toNat < used.size .b2 ∧ (2 : BitVec 24).toNat < used.size .b2 ∧
    used.size .b2 ≤ (3 : BitVec 24).toNat := by decide +kernel

theorem witness_AppendStoresThePayload :
    used.eng = .ready ∧ (used.buf .b2).ds ≤ (used.buf .b2).de ∧
    ([1, 2, 3, 4, 5] : List Word).length = (5 : BitVec 24).toNat ∧
    used.size .b2 + (5 : BitVec 24).toNat ≤ (used.buf .b2).cap ∧
    ([1, 2, 3, 4, 5, 6] : List Word).length = (6 : BitVec 24).toNat ∧
    (used.buf .b2).cap < used.size .b2 + (6 : BitVec 24).toNat := by decide +kernel

theorem witness_AppendzAppendsZeros :
    used.eng = .ready ∧ (used.buf .b2).ds ≤ (used.buf .b2).de ∧
    used.size .b2 + (5 : BitVec 24).toNat ≤ (used.buf .b2).cap ∧
    (used.buf .b2).cap < used.size .b2 + (6 : BitVec 24).toNat := by decide +kernel

theorem witness_DiscardAdvancesTheStart :
    used.eng = .ready ∧ (0 : BitVec 24).toNat ≤ used.size .b2 ∧ (3 : BitVec 24).toNat ≤ used.size .b2 ∧
    used.size .b2 < (4 : BitVec 24).toNat := by decide +kernel

theorem witness_QueriesAnswerAndChangeNothing : used.eng = .ready ∧ used.size .b2 < 2 ^ 24 := by decide +kernel

/-- V-BUF-4: a reserved slot. -/
def reserved : State := ran (.extend .b2 1) used

/-- A written slot, the reserved slot, and the offset behind the last one. -/
theorem witness_PeekAnswersTheSample :
    used.eng = .ready ∧ (2 : BitVec 24).toNat < used.size .b2 ∧
    (used.buf .b2).store.read ((used.buf .b2).ds + (2 : BitVec 24).toNat) = some 6 ∧
    reserved.eng = .ready ∧ (3 : BitVec 24).toNat < reserved.size .b2 ∧
    (reserved.buf .b2).store.read ((reserved.buf .b2).ds + (3 : BitVec 24).toNat) = none ∧
    reserved.size .b2 ≤ (4 : BitVec 24).toNat := by decide +kernel

/-- An append that compacts, a discard and a query. -/
theorem witness_AccountingLaw :
    (∀ b, (used.buf b).ds ≤ (used.buf b).de) ∧ used.eng = .ready ∧
    (∀ i ∈ [Instr.append .b2 4 [1, 2, 3, 4], .discard .b2 5, .size .b2], isBufferCommand i = true) ∧
    runsTo [.append .b2 4 [1, 2, 3, 4], .discard .b2 5, .size .b2] used
      (after (exec (.size .b2) (after (exec (.discard .b2 5) (after (exec (.append .b2 4 [1, 2, 3, 4]) used)))))) ∧
    (after (exec (.size .b2) (after (exec (.discard .b2 5)
      (after (exec (.append .b2 4 [1, 2, 3, 4]) used)))))).eng = .ready :=
  ⟨fun b => by cases b <;> decide +kernel, by decide +kernel, by decide, ⟨_, rfl, _, rfl, _, rfl, rfl⟩, by decide +kernel⟩

/-! ### The stages -/

/-- V-FIR-1, command 3. -/
def firInput : State := readyF.setBuf .b1 (holding 8 0 [0, 0, 0x3F800000, 0, 0, 0, 0])

/-- The words of a list as a function. -/
def wordsAt (ws : List Word) (k : Nat) : Word := ws.getD k 0

theorem witness_FirrunWritesTheInnerProducts :
    firInput.eng = .ready ∧ firInput.hpEn = true ∧ 1 ≤ firInput.LH ∧ firInput.LH - 1 ≤ firInput.size .b1 ∧
    firInput.buf1.ds ≤ firInput.buf1.de ∧ firInput.buf2.ds ≤ firInput.buf2.de ∧
    firInput.size .b2 + (firInput.size .b1 + 1 - firInput.LH) ≤ firInput.buf2.cap ∧
    (∀ j, j < firInput.size .b1 → firInput.buf1.data? j = some (wordsAt [0, 0, 0x3F800000, 0, 0, 0, 0] j)) ∧
    (∀ k, k < firInput.LH → firInput.hr.read k = some (wordsAt [0x40400000, 0x40000000, 0x3F800000] k)) := by
  decide +kernel

/-- The fault clauses: one sample short of the history, one output too many, no highpass. -/
theorem witness_FirrunWritesTheInnerProducts_faults :
    State.reset.eng = .unconfigured ∧ readyA.eng = .ready ∧ readyA.hpEn = false ∧ readyF.eng = .ready ∧ readyF.hpEn = true ∧ 1 ≤ readyF.LH ∧
    (readyF.setBuf .b1 (holding 8 0 [0])).size .b1 < (readyF.setBuf .b1 (holding 8 0 [0])).LH - 1 ∧
    (firInput.setBuf .b2 (holding 8 0 [1, 2, 3, 4])).LH - 1 ≤ (firInput.setBuf .b2 (holding 8 0 [1, 2, 3, 4])).size .b1 ∧
    (firInput.setBuf .b2 (holding 8 0 [1, 2, 3, 4])).buf2.cap <
      (firInput.setBuf .b2 (holding 8 0 [1, 2, 3, 4])).size .b2 + (firInput.size .b1 + 1 - firInput.LH) := by decide +kernel

/-- An exact arithmetic: the ring of 32-bit words. -/
def ring : Numerics := { fzero := 0, fadd := fun _ a b => a + b, fmul := fun _ a b => a * b }

theorem witness_FirImpulseResponseIsTheCoefficients :
    (∀ (d : Nat) v, ring.fmul d 1 v = v) ∧ (∀ d v, ring.fmul d ring.fzero v = ring.fzero) ∧
    (∀ d v, ring.fadd d ring.fzero v = v) ∧ (∀ d v, ring.fadd d v ring.fzero = v) ∧ 1 ≤ firInput.LH ∧
    (∀ k, k < firInput.LH →
      firInput.hr.read k = some (wordsAt [0x3F800000, 0x40000000, 0x40400000] (firInput.LH - 1 - k))) ∧
    (∀ j, j < 2 * firInput.LH - 1 → (readyF.setBuf .b1 (holding 8 0 [0, 0, 1, 0, 0])).buf1.data? j =
      some (if j = firInput.LH - 1 then 1 else ring.fzero)) :=
  ⟨fun _ => BitVec.one_mul, fun _ v => BitVec.zero_mul, fun _ => BitVec.zero_add, fun _ => BitVec.add_zero,
    by decide +kernel, by decide +kernel, by decide +kernel⟩

/-- V-INT-1, command 3. -/
def intInput : State := readyI.setBuf .b1 (holding 8 0 [0, 0x3F800000, 0, 0])

theorem witness_IntrunWritesThePhases :
    intInput.eng = .ready ∧ 1 ≤ intInput.D ∧ 1 ≤ intInput.N ∧ intInput.R - 1 ≤ intInput.size intInput.intIn ∧
    (intInput.buf intInput.intIn).ds ≤ (intInput.buf intInput.intIn).de ∧ intInput.buf3.ds ≤ intInput.buf3.de ∧
    intInput.size .b3 + (intInput.size intInput.intIn + 1 - intInput.R) * intInput.D ≤ intInput.buf3.cap ∧
    (∀ j, j < intInput.size intInput.intIn →
      (intInput.buf intInput.intIn).data? j = some (wordsAt [0, 0x3F800000, 0, 0] j)) ∧
    (∀ k, k < intInput.N →
      intInput.ir.read k = some (wordsAt [0x40800000, 0x40400000, 0x40000000, 0x3F800000] k)) := by decide +kernel

/-- The fault clauses, V-INT-6: one sample short of the history, and one record too many. -/
theorem witness_IntrunWritesThePhases_faults :
    State.reset.eng = .unconfigured ∧ readyI.eng = .ready ∧ readyA.eng = .ready ∧
    (readyI.setBuf .b1 (holding 8 0 [])).size .b1 < (readyI.setBuf .b1 (holding 8 0 [])).R - 1 ∧ readyI.intIn = .b1 ∧
    readyA.R - 1 ≤ (readyA.setBuf .b1 (holding 8 0 [1, 1, 1, 1, 1])).size readyA.intIn ∧
    readyA.buf3.cap < readyA.size .b3 +
      ((readyA.setBuf .b1 (holding 8 0 [1, 1, 1, 1, 1])).size readyA.intIn + 1 - readyA.R) * readyA.D := by decide +kernel

/-- V-OLA-3, run 1. -/
theorem witness_OlarunRunsTheWindows :
    readyO.eng = .ready ∧ 2 ≤ readyO.D ∧ 1 ≤ readyO.S ∧ readyO.accPos < readyO.A ∧ readyO.buf0.ds ≤ readyO.buf0.de ∧
    readyO.buf1.ds ≤ readyO.buf1.de ∧ readyO.size .b1 + readyO.size .b0 / readyO.WS * readyO.S ≤ readyO.buf1.cap ∧
    (∀ j, j < readyO.size .b0 → readyO.buf0.data? j =
      some (wordsAt [0x40E00000, 0x41000000, 0x41100000, 0x41200000, 0x41300000, 0x41400000] j)) ∧
    (∀ k, k < readyO.WS → readyO.win.read k =
      some (wordsAt [0, 0x3E800000, 0x3F000000, 0x3F000000, 0x3F000000, 0x3E800000] k)) ∧
    (∀ k, k < readyO.A → (readyO.acc.read k).isSome) := by decide +kernel

/-- The fault clauses. -/
theorem witness_OlarunRunsTheWindows_faults :
    State.reset.eng = .unconfigured ∧
    readyO.eng = .ready ∧ (readyO.setBuf .b1 (holding 8 0 [1, 2, 3, 4, 5, 6, 7])).buf1.cap <
      (readyO.setBuf .b1 (holding 8 0 [1, 2, 3, 4, 5, 6, 7])).size .b1 + readyO.size .b0 / readyO.WS * readyO.S := by
  decide +kernel

/-- The state of V-OLA-3's run 1 with the zero accumulator BUILD leaves. -/
def zeroAcc : State := readyO.setAcc (Memory.cells 0 [0, 0, 0, 0]) 0

theorem witness_OverlapAddClosedForm :
    (∀ (d d' : Nat) a b, ring.fadd d a b = ring.fadd d' a b) ∧ (∀ (d d' : Nat) a b, ring.fmul d a b = ring.fmul d' a b) ∧
    (∀ d a b, ring.fadd d a b = ring.fadd d b a) ∧
    (∀ d a b c, ring.fadd d (ring.fadd d a b) c = ring.fadd d a (ring.fadd d b c)) ∧
    (∀ d a, ring.fadd d ring.fzero a = a) ∧ 2 ≤ zeroAcc.D ∧ 1 ≤ zeroAcc.S ∧ zeroAcc.accPos = 0 ∧
    (∀ k, k < zeroAcc.A → zeroAcc.acc.read k = some ring.fzero) ∧
    (∀ j, j < 1 * zeroAcc.WS → zeroAcc.buf0.data? j =
      some (wordsAt [0x40E00000, 0x41000000, 0x41100000, 0x41200000, 0x41300000, 0x41400000] j)) ∧
    (∀ k, k < zeroAcc.WS → zeroAcc.win.read k =
      some (wordsAt [0, 0x3E800000, 0x3F000000, 0x3F000000, 0x3F000000, 0x3E800000] k)) ∧ 0 < 1 ∧ 1 < zeroAcc.S :=
  ⟨fun _ _ _ _ => rfl, fun _ _ _ _ => rfl, fun _ => BitVec.add_comm, fun _ => BitVec.add_assoc, fun _ => BitVec.zero_add,
    by decide +kernel, by decide +kernel, by decide +kernel, by decide +kernel, by decide +kernel, by decide +kernel,
    by decide, by decide +kernel⟩

/-! ### The chain -/

theorem witness_PrimeAppendsZeros :
    readyA.eng = .ready ∧ readyA.buf0.ds ≤ readyA.buf0.de ∧
    readyA.size .b0 + (8 : BitVec 24).toNat ≤ readyA.buf0.cap ∧
    readyA.buf0.cap < readyA.size .b0 + (9 : BitVec 24).toNat ∧ State.reset.eng = .unconfigured ∧
    State.reset.buf0.ds ≤ State.reset.buf0.de := by
  decide +kernel

/-- V-CHN-1: one sample more than `MAX_IN`. -/
theorem witness_OversizeProcessIsSilence : readyA.eng = .ready ∧ readyA.maxInCount < (5 : BitVec 24).toNat := by
  decide +kernel

/-- The commands of one PROCESS, from V-CHN-2's command 4. -/
def block : State := readyA.setBuf .b0 (holding 8 0 [0x3F800000, 0x40000000, 0x40400000])
def block1 : State := after (exec (.append .b0 3 [0x40800000, 0x40A00000, 0x40C00000]) block)
def block2 : State := after (exec .olarun block1)
def block4 : State := after (exec .intrun block2)

theorem witness_ProcessRunsItsStages :
    block.eng = .ready ∧ (3 : BitVec 24).toNat ≤ block.maxInCount ∧
    exec (.append .b0 3 [0x40800000, 0x40A00000, 0x40C00000]) block = .next block1 ∧ block1.eng = .ready ∧
    exec .olarun block1 = .next block2 ∧ block2.eng = .ready ∧ block2.hpEn = false ∧
    exec .intrun block2 = .next block4 ∧ block4.eng = .ready ∧
    ([0x3F000000, 0x3F000000, 0x3F800000] : List Word).length = min (3 : BitVec 24).toNat (block4.size .b3) ∧
    (∀ i, i < ([0x3F000000, 0x3F000000, 0x3F800000] : List Word).length →
      block4.buf3.data? i = ([0x3F000000, 0x3F000000, 0x3F800000] : List Word)[i]?) :=
  ⟨by decide +kernel, by decide +kernel, rfl, by decide +kernel, rfl, by decide +kernel, by decide +kernel, rfl,
    by decide +kernel, by decide +kernel, by decide +kernel⟩

/-- The stages one after another from `s`, up to the one that faults. -/
def appended (n : BitVec 24) (x : List Word) (s : State) : State := after (exec (.append .b0 n x) s)

/-- No room for the append; none for the Overlap-Adder's output; none for the Interpolator's. -/
def noRoom0 : State := readyA.setBuf .b0 (holding 8 0 [1, 2, 3, 4, 5, 6, 7, 8])
def noRoom1 : State := block.setBuf .b1 (holding 8 0 [1, 2, 3, 4, 5, 6, 7])
def noRoom3 : State := block.setBuf .b3 (holding 8 0 [1, 2, 3, 4, 5])
/-- The host has discarded the FIR's history. -/
def noHistory : State := readyF.setBuf .b1 (holding 8 0 [])

/-- Each stage is the one that faults along a chain of its own, and PROCESS answers a next state each time. -/
theorem witness_ProcessEndsAtTheFaultingStage :
    (1 : BitVec 24).toNat ≤ noRoom0.maxInCount ∧ (3 : BitVec 24).toNat ≤ noRoom1.maxInCount ∧
    noRoom0.eng = .ready ∧ (appended 1 [1] noRoom0).eng = .faulted ∧
    noRoom1.eng = .ready ∧ (appended 3 [1, 1, 1] noRoom1).eng = .ready ∧
    (after (exec .olarun (appended 3 [1, 1, 1] noRoom1))).eng = .faulted ∧
    noHistory.eng = .ready ∧ (appended 1 [1] noHistory).eng = .ready ∧
    (after (exec .olarun (appended 1 [1] noHistory))).eng = .ready ∧
    (after (exec .olarun (appended 1 [1] noHistory))).hpEn = true ∧
    (after (exec .firrun (after (exec .olarun (appended 1 [1] noHistory))))).eng = .faulted ∧
    noRoom3.eng = .ready ∧ (appended 3 [1, 1, 1] noRoom3).eng = .ready ∧
    (after (exec .olarun (appended 3 [1, 1, 1] noRoom3))).eng = .ready ∧
    (after (exec .olarun (appended 3 [1, 1, 1] noRoom3))).hpEn = false ∧
    (after (exec .intrun (after (exec .olarun (appended 3 [1, 1, 1] noRoom3))))).eng = .faulted := by decide +kernel

theorem witness_ProcessEndsAtTheFaultingStage_steps :
    exec (.process 1 [1]) noRoom0 = .next (after (exec (.process 1 [1]) noRoom0)) ∧
    exec (.append .b0 1 [1]) noRoom0 = .next (appended 1 [1] noRoom0) ∧
    exec (.process 3 [1, 1, 1]) noRoom3 = .next (after (exec (.process 3 [1, 1, 1]) noRoom3)) ∧
    exec .intrun (after (exec .olarun (appended 3 [1, 1, 1] noRoom3))) =
      .next (after (exec .intrun (after (exec .olarun (appended 3 [1, 1, 1] noRoom3))))) := ⟨rfl, rfl, rfl, rfl⟩

theorem readyA_sound : SoundBuffers readyA :=
  ⟨fun b => by cases b <;> (unfold Buf.sound; decide +kernel), fun h => absurd h (by decide +kernel)⟩

theorem readyA_ready : ReadySound readyA := fun _ =>
  ⟨⟨by decide +kernel, by decide +kernel, by decide +kernel, fun b => by cases b <;> decide +kernel, by decide +kernel,
    by decide +kernel, by decide +kernel, by decide +kernel, by decide +kernel⟩, fun b => by cases b <;> decide +kernel,
    by decide +kernel, by decide +kernel, by decide +kernel⟩

/-- Setup A built and primed with `WS − 1 = 3` zeros, in the capacities of R233 (`Z = 3`, `G = 2`, so 8 slots hold every
stage). -/
def primed : State := readyA.setBuf .b0 (holding 8 0 [0, 0, 0])

theorem primed_sound : SoundBuffers primed :=
  ⟨fun b => by cases b <;> (unfold Buf.sound; decide +kernel), fun h => absurd h (by decide +kernel)⟩

theorem primed_ready : ReadySound primed := fun _ =>
  ⟨⟨by decide +kernel, by decide +kernel, by decide +kernel, fun b => by cases b <;> decide +kernel, by decide +kernel,
    by decide +kernel, by decide +kernel, by decide +kernel, by decide +kernel⟩, fun b => by cases b <;> decide +kernel,
    by decide +kernel, by decide +kernel, by decide +kernel⟩

theorem primed_histories : HistoriesFull primed := ⟨by decide +kernel, by decide +kernel⟩

theorem primed_capacities : CapacitiesSuffice primed 3 :=
  ⟨by decide +kernel, by decide +kernel, by decide +kernel, by decide +kernel⟩

theorem witness_ProcessWithRoomCompletes :
    primed.eng = .ready ∧ SoundBuffers primed ∧ ReadySound primed ∧
    ([1, 2, 3, 4] : List Word).length = (4 : BitVec 24).toNat ∧ (4 : BitVec 24).toNat ≤ primed.maxInCount ∧
    HistoriesFull primed ∧ primed.size .b0 + primed.size .b3 ≤ 3 ∧ primed.WS - 1 ≤ 3 ∧ CapacitiesSuffice primed 3 :=
  ⟨by decide +kernel, primed_sound, primed_ready, by decide, by decide +kernel, primed_histories, by decide +kernel,
    by decide +kernel, primed_capacities⟩

theorem witness_PrimedChainIsNeverShort :
    primed.eng = .ready ∧ SoundBuffers primed ∧ ReadySound primed ∧ (4 : BitVec 24).toNat ≤ primed.maxInCount ∧
    HistoriesFull primed ∧ InChain primed 3 ∧ primed.WS - 1 ≤ 3 ∧
    exec (.process 4 [1, 2, 3, 4]) primed = .next (after (exec (.process 4 [1, 2, 3, 4]) primed)) ∧
    (after (exec (.process 4 [1, 2, 3, 4]) primed)).eng = .ready :=
  ⟨by decide +kernel, primed_sound, primed_ready, by decide +kernel, primed_histories, show _ = 3 by decide +kernel,
    by decide +kernel, rfl, by decide +kernel⟩

/-! ### The invariants: a built engine with a command waiting meets each, and steps -/

def waiting : State := { readyF with port := [0xC4000001, 0x3F800000] }

theorem waiting_steps : step waiting = .next (after (step waiting)) := rfl

theorem witness_StepKeepsMemoriesCanonical : CanonicalMemories waiting :=
  ⟨fun b => by cases b <;> decide +kernel, by decide +kernel, by decide +kernel, by decide +kernel, by decide +kernel,
    by decide +kernel, by decide +kernel⟩

theorem witness_StepKeepsBuffersSound : SoundBuffers waiting :=
  ⟨fun b => by cases b <;> (unfold Buf.sound; decide +kernel), fun h => absurd h (by decide +kernel)⟩

theorem witness_StepKeepsReservedBitsZero : ReservedBitsZero waiting :=
  ⟨fun r => by cases r <;> decide +kernel, by decide +kernel, by decide +kernel, by decide +kernel, by decide +kernel⟩

theorem witness_StepKeepsTheFaultLatch : FaultLatch waiting ∧ FaultLatch faultedA :=
  ⟨⟨by decide +kernel, by decide +kernel, by decide +kernel, by decide +kernel⟩,
    ⟨by decide +kernel, by decide +kernel, by decide +kernel, by decide +kernel⟩⟩

theorem witness_StepKeepsReadySound : ReadySound waiting ∧ waiting.eng = .ready :=
  ⟨fun _ => ⟨⟨by decide +kernel, by decide +kernel, by decide +kernel, fun b => by cases b <;> decide +kernel,
    by decide +kernel, by decide +kernel, by decide +kernel, by decide +kernel, by decide +kernel⟩,
    fun b => by cases b <;> decide +kernel, by decide +kernel, by decide +kernel, by decide +kernel⟩, by decide +kernel⟩

theorem witness_StepKeepsTablesSound : CanonicalMemories waiting ∧ LengthsFit waiting ∧ TablesSound waiting :=
  ⟨witness_StepKeepsMemoriesCanonical, ⟨by decide +kernel, by decide +kernel, by decide +kernel⟩,
    ⟨by decide +kernel, by decide +kernel, by decide +kernel, by decide +kernel, by decide +kernel⟩⟩

theorem witness_StepKeepsCountsIn24Bits : CountsFit waiting ∧ SoundBuffers waiting ∧ ReadySound waiting :=
  ⟨⟨by decide +kernel, fun b => by cases b <;> decide +kernel, by decide +kernel⟩, witness_StepKeepsBuffersSound,
    witness_StepKeepsReadySound.1⟩

theorem witness_StepKeepsRamBounds : WithinRams waiting ∧ LengthsFit waiting ∧ ReadySound waiting :=
  ⟨⟨by decide +kernel, by decide +kernel, by decide +kernel, by decide +kernel, by decide +kernel, by decide +kernel⟩,
    witness_StepKeepsTablesSound.2.1, witness_StepKeepsReadySound.1⟩

/-- A SETCFG waits before BUILD. -/
theorem witness_StepKeepsIdleBeforeBuild :
    IdleBeforeBuild { State.reset with port := [0x08000001, 2] } ∧
    step { State.reset with port := [0x08000001, 2] } =
      .next (after (step { State.reset with port := [0x08000001, 2] })) :=
  ⟨fun _ => ⟨rfl, rfl, rfl, rfl, rfl⟩, rfl⟩

/-! ### The arithmetic -/

theorem witness_DefaultArithmeticOnNaNAndOrder :
    (0x7F800001 : Word).extractLsb' 23 8 = 0xFF#8 ∧ (0x7F800001 : Word).extractLsb' 0 23 ≠ 0 := by decide

/-- The largest and the least finite magnitude. -/
theorem witness_DefaultArithmeticIdentities :
    (0x7F7FFFFF : Word).extractLsb' 23 8 ≠ 0xFF#8 ∧ (0x80000001 : Word).extractLsb' 23 8 ≠ 0xFF#8 := by decide

end Sys2Proof.Tests
end

section
/-! The invariant argument of a step, once for every property of the state: what the commands that construct the engine,
the port and the reset input have to keep beside the shared operations of `Keeps`. -/

namespace Sys2Proof.Machine

/-- What every state change a step can make has to keep for the step to keep it. -/
structure KeepsStep (P : State → Prop) : Prop extends Keeps P where
  toReset : ∀ s, P s → P s.toReset
  writeCfg : ∀ s r v, P s → s.eng = .unconfigured → P (s.writeCfg r v)
  loadHc : ∀ s n ws, P s → s.eng = .unconfigured → n.toNat ≤ s.params.hpWords → ws.length ≤ n.toNat → P (s.loadHc n ws)
  loadIc : ∀ s n ws, P s → s.eng = .unconfigured → n.toNat ≤ s.params.ipWords → ws.length ≤ n.toNat → P (s.loadIc n ws)
  loadWin : ∀ s n ws, P s → s.eng = .unconfigured → n.toNat ≤ s.params.winWords → ws.length ≤ n.toNat →
    P (s.loadWin n ws)
  built : ∀ num s, P s → s.eng = .unconfigured → ConfigLegal s → P (built num s)
  port : ∀ s ws, P s → P { s with port := ws }
  resetIdle : ∀ s, P s → P { s with resetIn := .idle }

/-- A table load ends where it began or in the loaded state, and then the payload fits the RAM (R185 to R187). -/
theorem loadTable_ends {P : State → Prop} {n : BitVec 24} {words : Nat} {s s' : State} (hs : P s)
    (h : s.eng = .unconfigured → n.toNat ≤ words → P s') : (loadTable n words s s').Ends P := by
  rw [loadTable]
  refine whenUnconfigured_keeps hs fun hu => ?_
  split
  · exact hs
  · exact h hu (by omega)

namespace KeepsStep

variable {P : State → Prop}

theorem buildRun_ends (K : KeepsStep P) (num : Numerics) {s : State} (hs : P s) (hu : s.eng = .unconfigured) :
    (buildRun num s).Ends P := by
  obtain ⟨b, k, -, h⟩ | ⟨hl, h⟩ := buildRun_cases num s
  · rw [h]; exact hs
  · rw [h]; exact K.built num s hs hu hl

/-- The commands that construct or take apart the engine keep the property. -/
theorem exec_constructs_keeps (K : KeepsStep P) {i : Instr} {s t : State} (hi : Keeps.constructs i = true) (hs : P s)
    (he : exec i s = .next t) : P t := by
  cases i <;> first | (cases hi; done) | skip
  case reset => cases he; exact K.emit _ _ (K.toReset s hs)
  case setcfg r v =>
    cases he
    refine K.finish_keeps (whenUnconfigured_keeps hs fun hu => ?_)
    split
    · exact hs
    · exact K.writeCfg s r v hs hu
  case ldhp n c =>
    cases he
    exact K.finish_keeps (loadTable_ends hs fun hu hn => K.loadHc s n _ hs hu hn (List.length_take_le _ _))
  case ldip n h =>
    cases he
    exact K.finish_keeps (loadTable_ends hs fun hu hn => K.loadIc s n _ hs hu hn (List.length_take_le _ _))
  case ldwin n w =>
    cases he
    exact K.finish_keeps (loadTable_ends hs fun hu hn => K.loadWin s n _ hs hu hn (List.length_take_le _ _))
  case build =>
    cases he
    exact K.finish_keeps (whenUnconfigured_keeps hs (K.buildRun_ends s.num hs))

theorem exec_keeps (K : KeepsStep P) {i : Instr} {s t : State} (hs : P s) (he : exec i s = .next t) : P t := by
  cases hi : Keeps.constructs i with
  | true => exact K.exec_constructs_keeps hi hs he
  | false => exact K.toKeeps.exec_keeps hi hs he

theorem resetStep_keeps (K : KeepsStep P) {s : State} (hs : P s) : P (resetStep s) := by
  have hard : ∀ u, P u → P u.hardReset := fun u hu => K.resetIdle _ (K.toReset u hu)
  have drop : P s.dropCommand := by
    rw [State.dropCommand]
    split
    · exact K.port s _ hs
    · exact hs
  rw [resetStep]
  split
  · exact hard _ drop
  · exact hard s hs

/-- Every step keeps the property. -/
theorem step_keeps (K : KeepsStep P) {s t : State} (hs : P s) (h : step s = .next t) : P t := by
  obtain ⟨-, rfl⟩ | ⟨-, f, -, ⟨i, -, he⟩ | ⟨-, rfl⟩⟩ := step_next h
  · exact K.resetStep_keeps hs
  · exact K.exec_keeps (K.port s f.rest hs) he
  · exact K.fault _ _ _ (K.port s f.rest hs)

end KeepsStep

end Sys2Proof.Machine
end

section
/-! The parameters and the 24-bit counts (R10, R12, R22, R23, R45). -/

namespace Sys2Proof.Machine

/-! ## SETCFG's write, and the accumulator length of the built engine -/

@[simp] theorem State.writeCfg_params (s : State) (r : CfgReg) (v : Word) : (s.writeCfg r v).params = s.params := by
  cases r <;> rfl

@[simp] theorem State.writeCfg_eng (s : State) (r : CfgReg) (v : Word) : (s.writeCfg r v).eng = s.eng := by
  cases r <;> rfl

@[simp] theorem State.writeCfg_accPos (s : State) (r : CfgReg) (v : Word) : (s.writeCfg r v).accPos = s.accPos := by
  cases r <;> rfl

@[simp] theorem State.buf_writeCfg (s : State) (r : CfgReg) (v : Word) (b : BufId) :
    (s.writeCfg r v).buf b = s.buf b := by
  cases r <;> rfl

@[simp] theorem A_built (num : Numerics) (s : State) : (built num s).A = s.A := by
  simp only [State.A, State.D, State.S, built_factor, built_segSize]

/-! ## The parameters -/

theorem keepsStep_params (p : Params) : KeepsStep fun s => s.params = p where
  append s b n v h _ _ := by simpa using h
  extend s b n h _ _ := by simpa using h
  poke s b off v h _ _ := by simpa using h
  discard s b n h _ _ := by simpa using h
  ola num s h _ := h
  advance s n h _ := h
  primed s h _ := h
  oversize s h _ := h
  short s n h _ _ := h
  emit s ws h := h
  fault s op t h := by simpa using h
  toReset s h := h
  writeCfg s r v h _ := by simpa using h
  loadHc s n ws h _ _ _ := h
  loadIc s n ws h _ _ _ := h
  loadWin s n ws h _ _ _ := h
  built num s h _ _ := by simpa using h
  port s ws h := h
  resetIdle s h := h

/-- No step changes the parameters (R10). -/
theorem step_params {s t : State} (h : step s = .next t) : t.params = s.params :=
  (keepsStep_params s.params).step_keeps rfl h

/-! ## A buffer's counts -/

/-- The counts of a buffer in their order (R23): `DS ≤ DE ≤ CAP ≤ BUF_WORDS`. -/
def Buf.ordered (q : Buf) (bufWords : Nat) : Prop := q.ds ≤ q.de ∧ q.de ≤ q.cap ∧ q.cap ≤ bufWords

theorem Buf.sound.ordered {q : Buf} {w : Nat} (h : q.sound w) : q.ordered w := by
  obtain ⟨hds, hde, hcap, -⟩ := h
  exact ⟨hds, hde, hcap⟩

theorem Buf.ordered_reset (w : Nat) : Buf.reset.ordered w :=
  ⟨Nat.le_refl 0, Nat.le_refl 0, Nat.zero_le w⟩

theorem Buf.ordered.extended {q : Buf} {w n : Nat} (h : q.ordered w) (hn : q.size + n ≤ q.cap) :
    ((q.makeRoom n).reserve n).ordered w := by
  obtain ⟨hds, -, hcap⟩ := h
  have hroom := Buf.ds_le_makeRoom hds n
  refine ⟨?_, ?_, ?_⟩
  · simp only [Buf.ds_reserve, Buf.de_reserve]; omega
  · simpa using Buf.makeRoom_fits hn
  · simpa using hcap

theorem Buf.ordered.fill {q : Buf} {w : Nat} (h : q.ordered w) (p : Nat) (ws : List Word) : (q.fill p ws).ordered w := h

theorem Buf.ordered.appended {q : Buf} {w n : Nat} (h : q.ordered w) (hn : q.size + n ≤ q.cap) (v : List Word) :
    (q.appended n v).ordered w := (h.extended hn).fill _ _

theorem Buf.ordered.consume {q : Buf} {w n : Nat} (h : q.ordered w) (hn : n ≤ q.size) : (q.consume n).ordered w := by
  obtain ⟨hds, hde, hcap⟩ := h
  refine ⟨?_, hde, hcap⟩
  rw [Buf.size] at hn
  simp only [Buf.ds_consume, Buf.de_consume]; omega

theorem ordered_sizedBuf {s : State} (h : ConfigLegal s) (b : BufId) : (sizedBuf s b).ordered s.params.bufWords := by
  obtain ⟨-, -, -, hcap, -⟩ := h
  exact ⟨Nat.le_refl 0, Nat.zero_le _, (hcap b).2⟩

theorem ordered_primedBuf (num : Numerics) {s : State} (h : ConfigLegal s) (b : BufId) {n : Nat}
    (hn : n ≤ s.capMul b * s.maxInCount) : (primedBuf num s b n).ordered s.params.bufWords :=
  (ordered_sizedBuf h b).appended (by simpa using hn) _

/-- BUILD's checks 4 and 9 leave room for the buffers and their priming (R188). -/
theorem ordered_built (num : Numerics) {s : State} (h : ConfigLegal s) (b : BufId) :
    ((built num s).buf b).ordered s.params.bufWords := by
  obtain ⟨-, -, -, -, -, -, -, hfir, hint⟩ := id h
  cases b with
  | b0 => rw [State.buf, built_buf0]; exact ordered_sizedBuf h _
  | b1 =>
    rw [State.buf, built_buf1]
    refine ordered_primedBuf num h _ ?_
    split
    case isTrue hp => exact (hfir hp).2
    case isFalse hp => rw [State.intIn, if_neg hp] at hint; exact hint
  | b2 =>
    rw [State.buf, built_buf2]
    split
    case isTrue hp => rw [State.intIn, if_pos hp] at hint; exact ordered_primedBuf num h _ hint
    case isFalse => exact ordered_sizedBuf h _
  | b3 => rw [State.buf, built_buf3]; exact ordered_sizedBuf h _

/-! ## The cursor -/

/-- The cursor after a run of windows is where it was, or a residue modulo `A` (R161). -/
theorem olaWindows_pos (num : Numerics) (s : State) (o : Ola) (wc : Nat) (hA : 0 < s.A) :
    (olaWindows num s o wc).2.pos = o.pos ∨ (olaWindows num s o wc).2.pos < s.A := by
  cases wc with
  | zero => exact .inl rfl
  | succ wc => exact .inr (Nat.mod_lt _ hA)

/-! ## The invariant -/

/-- What keeps the counts within 24 bits from step to step: legal sizes, ordered buffers, and while READY an accumulator
that is not empty and fits its RAM, so that the cursor stays a residue below it. -/
structure CountsBounded (s : State) : Prop where
  legal : s.params.legal
  bufs : ∀ b, (s.buf b).ordered s.params.bufWords
  pos : s.accPos < 2 ^ 24
  live : s.eng = .ready → 0 < s.A ∧ s.A ≤ s.params.accWords

theorem ConfigLegal.acc_fits {s : State} (h : ConfigLegal s) : 0 < s.A ∧ s.A ≤ s.params.accWords := by
  obtain ⟨hD, -, hS, -, -, hacc, -⟩ := h
  exact ⟨Nat.mul_pos (by omega) hS, hacc⟩

theorem CountsBounded.of_invariants {s : State} (hc : CountsFit s) (hb : SoundBuffers s) (hr : ReadySound s) :
    CountsBounded s := by
  obtain ⟨hlegal, -, hpos⟩ := hc
  obtain ⟨hsound, -⟩ := hb
  exact ⟨hlegal, fun b => (hsound b).ordered, hpos, fun he => (hr he).1.acc_fits⟩

theorem CountsBounded.countsFit {s : State} (h : CountsBounded s) : CountsFit s := by
  refine ⟨h.legal, fun b => ?_, h.pos⟩
  obtain ⟨hds, hde, hcap⟩ := h.bufs b
  obtain ⟨⟨-, hw⟩, -⟩ := h.legal
  omega

/-- Replacing a buffer by an ordered one. -/
theorem CountsBounded.setBuf {s : State} (h : CountsBounded s) (b : BufId) {q : Buf} (hq : q.ordered s.params.bufWords) :
    CountsBounded (s.setBuf b q) where
  legal := by simpa using h.legal
  bufs b' := by
    rw [State.buf_setBuf, State.setBuf_params]
    split
    · exact hq
    · exact h.bufs b'
  pos := by simpa using h.pos
  live := by simpa using h.live

theorem CountsBounded.olaUpdate {s : State} (num : Numerics) (h : CountsBounded s) (hr : s.eng = .ready) :
    CountsBounded (olaUpdate num s) where
  legal := h.legal
  bufs b := by rw [buf_olaUpdate]; exact h.bufs b
  pos := by
    obtain ⟨hA, hfits⟩ := h.live hr
    obtain ⟨-, -, -, -, -, hwords⟩ := h.legal
    have hold := h.pos
    have hpos : (olaResult num s).2.pos = s.accPos ∨ (olaResult num s).2.pos < s.A := olaWindows_pos _ _ _ _ hA
    show (olaResult num s).2.pos < 2 ^ 24
    omega
  live := h.live

theorem CountsBounded.takeFault {s : State} (h : CountsBounded s) (op : BitVec 6) (t : Trap) :
    CountsBounded (s.takeFault op t) where
  legal := by simpa using h.legal
  bufs b := by simpa using h.bufs b
  pos := by simpa using h.pos
  live he := by rw [State.takeFault_eng] at he; cases he

theorem CountsBounded.toReset {s : State} (h : CountsBounded s) : CountsBounded s.toReset where
  legal := h.legal
  bufs b := by rw [State.buf_toReset]; exact Buf.ordered_reset _
  pos := Nat.two_pow_pos 24
  live he := by cases he

theorem CountsBounded.built {s : State} (num : Numerics) (h : CountsBounded s) (hl : ConfigLegal s) :
    CountsBounded (built num s) where
  legal := by simpa using h.legal
  bufs b := by rw [built_params]; exact ordered_built num hl b
  pos := by simp
  live _ := by simpa using hl.acc_fits

/-- SETCFG and the loads change none of the counts, and they run before BUILD only. -/
theorem CountsBounded.of_unconfigured {s s' : State} (h : CountsBounded s) (hu : s.eng = .unconfigured)
    (hp : s'.params = s.params) (hb : ∀ b, s'.buf b = s.buf b) (ha : s'.accPos = s.accPos) (he : s'.eng = s.eng) :
    CountsBounded s' where
  legal := by rw [hp]; exact h.legal
  bufs b := by rw [hp, hb]; exact h.bufs b
  pos := by rw [ha]; exact h.pos
  live hr := by rw [he, hu] at hr; cases hr

theorem CountsBounded.keepsStep : KeepsStep CountsBounded where
  append s b n v h _ hn := h.setBuf b ((h.bufs b).appended hn v)
  extend s b n h _ hn := h.setBuf b ((h.bufs b).extended hn)
  poke s b off v h _ _ := h.setBuf b ((h.bufs b).fill _ _)
  discard s b n h _ hn := h.setBuf b ((h.bufs b).consume hn)
  ola num s h hr := h.olaUpdate num hr
  advance s n h _ := ⟨h.legal, h.bufs, h.pos, h.live⟩
  primed s h _ := ⟨h.legal, h.bufs, h.pos, h.live⟩
  oversize s h _ := ⟨h.legal, h.bufs, h.pos, h.live⟩
  short s n h _ _ := ⟨h.legal, h.bufs, h.pos, h.live⟩
  emit s ws h := ⟨h.legal, h.bufs, h.pos, h.live⟩
  fault s op t h := h.takeFault op t
  toReset s h := h.toReset
  writeCfg s r v h hu := h.of_unconfigured hu (by simp) (by simp) (by simp) (by simp)
  loadHc s n ws h hu _ _ := h.of_unconfigured hu rfl (by simp) rfl rfl
  loadIc s n ws h hu _ _ := h.of_unconfigured hu rfl (by simp) rfl rfl
  loadWin s n ws h hu _ _ := h.of_unconfigured hu rfl (by simp) rfl rfl
  built num s h _ hl := h.built num hl
  port s ws h := ⟨h.legal, h.bufs, h.pos, h.live⟩
  resetIdle s h := ⟨h.legal, h.bufs, h.pos, h.live⟩

/-- Settles O51: the counts are bounded by the sizes of R10, and every state change a step can make keeps those bounds. -/
theorem stepKeepsCountsIn24Bits : Obligations.StepKeepsCountsIn24Bits := by
  intro s t h
  refine ⟨step_params h, fun hc hb hr => ?_⟩
  exact (CountsBounded.keepsStep.step_keeps (CountsBounded.of_invariants hc hb hr) h).countsFit

end Sys2Proof.Machine
end

section
/-! The default arithmetic (R16, log entry 2) and the inner product (R17). -/

namespace Sys2Proof.Machine

/-! ## The inner product -/

theorem dot_zero (num : Numerics) (d : Nat) (a c : Nat → Nat → Word) : dot num d 0 a c = num.fzero := rfl

theorem dot_succ (num : Numerics) (d n : Nat) (a c : Nat → Nat → Word) :
    dot num d (n + 1) a c =
      num.fadd (tapDraw d n + 1) (dot num d n a c)
        (num.fmul (tapDraw d n) (a n (tapDraw d n)) (c n (tapDraw d n + 1))) := by
  simp only [dot, List.range_succ, List.foldl_append, List.foldl_cons, List.foldl_nil]

/-- Settles O54: the fold over one more index ends with one more sum. -/
theorem dotAddsInAscendingOrder : Obligations.DotAddsInAscendingOrder := fun num d a c =>
  ⟨dot_zero num d a c, fun n => ⟨_, _, _, _, dot_succ num d n a c⟩⟩

namespace Binary32

/-! ## The fields of a word -/

theorem expo_lt (x : Word) : expo x < 256 := (x.extractLsb' 23 8).isLt

theorem frac_lt (x : Word) : frac x < 2 ^ 23 := (x.extractLsb' 0 23).isLt

theorem frac_eq_mod (x : Word) : frac x = x.toNat % 2 ^ 23 := by
  rw [frac, BitVec.extractLsb'_toNat, Nat.shiftRight_zero]

theorem expo_eq_mod (x : Word) : expo x = x.toNat / 2 ^ 23 % 2 ^ 8 := by
  rw [expo, BitVec.extractLsb'_toNat, Nat.shiftRight_eq_div_pow]

theorem sign_toNat (x : Word) : (sign x).toNat = x.toNat / 2 ^ 31 := by
  have := x.isLt
  rw [sign, BitVec.getLsbD, Nat.toNat_testBit]; omega

theorem pack_toNat (s : Bool) {low : Nat} (h : low < 2 ^ 31) : (pack s low).toNat = s.toNat * 2 ^ 31 + low := by
  rw [pack, BitVec.toNat_append, BitVec.toNat_ofNat, Nat.mod_eq_of_lt h, BitVec.toNat_ofBool,
    ← Nat.shiftLeft_add_eq_or_of_lt h, Nat.shiftLeft_eq]

/-- A word is its sign, exponent and fraction put together. -/
theorem pack_fields (x : Word) : pack (sign x) (expo x * 2 ^ 23 + frac x) = x := by
  have he := expo_lt x
  have hf := frac_lt x
  apply BitVec.eq_of_toNat_eq
  rw [pack_toNat _ (by omega), sign_toNat, expo_eq_mod, frac_eq_mod]
  have := x.isLt
  omega

theorem isNaN_of_fields {x : Word} (he : x.extractLsb' 23 8 = 0xFF#8) (hf : x.extractLsb' 0 23 ≠ 0) :
    isNaN x = true := by
  have h1 : expo x = 255 := by rw [expo, he]; rfl
  have h2 : frac x ≠ 0 := fun h => hf (BitVec.eq_of_toNat_eq h)
  simp [isNaN, h1, h2]

theorem expo_ne_of_finite {x : Word} (h : x.extractLsb' 23 8 ≠ 0xFF#8) : expo x ≠ 255 :=
  fun he => h (BitVec.eq_of_toNat_eq he)

theorem isNaN_of_expo_ne {x : Word} (h : expo x ≠ 255) : isNaN x = false := by simp [isNaN, h]

theorem isInf_of_expo_ne {x : Word} (h : expo x ≠ 255) : isInf x = false := by simp [isInf, h]

/-- There is one infinity of each sign. -/
theorem eq_of_isInf {x y : Word} (hx : isInf x = true) (hy : isInf y = true) (h : sign x = sign y) : x = y := by
  simp only [isInf, Bool.and_eq_true, beq_iff_eq] at hx hy
  obtain ⟨hex, hfx⟩ := hx
  obtain ⟨hey, hfy⟩ := hy
  rw [← pack_fields x, ← pack_fields y, h, hex, hfx, hey, hfy]

/-! ## NaN results -/

/-- Every NaN result is quiet: the exponent and the fraction's top bit are ones (R16). -/
theorem nan_quiet (d : Nat) : (nan d).extractLsb' 22 9 = 0x1FF#9 := by
  apply BitVec.eq_of_getLsbD_eq
  intro i hi
  have h22 : ¬ 22 + i < 22 := by omega
  rw [BitVec.getLsbD_extractLsb', decide_eq_true hi, Bool.true_and, nan, BitVec.getLsbD_append, if_neg h22,
    BitVec.getLsbD_append, Nat.add_sub_cancel_left, if_pos hi]

theorem add_of_isNaN (d : Nat) {x : Word} (y : Word) (h : isNaN x = true) : add d x y = nan d := by
  rw [add, h, Bool.true_or, if_pos rfl]

theorem mul_of_isNaN (d : Nat) {x y : Word} (h : (isNaN x || isNaN y) = true) : mul d x y = nan d := by
  simp only [mul]
  rw [if_pos h]

/-! ## Addition and the order of its operands -/

/-- Addition of two finite words: one of four cases by their signs and magnitudes. -/
def addFinite (x y : Word) : Word :=
  if sign x = sign y then roundPack (sign x) (mag x + mag y) 0 0
  else if mag x = mag y then pack false 0
  else if mag y < mag x then roundPack (sign x) (mag x - mag y) 0 0
  else roundPack (sign y) (mag y - mag x) 0 0

theorem addFinite_comm (x y : Word) : addFinite x y = addFinite y x := by
  unfold addFinite
  by_cases hs : sign x = sign y
  · rw [if_pos hs, if_pos hs.symm, hs, Nat.add_comm]
  · rw [if_neg hs, if_neg (Ne.symm hs)]
    obtain hlt | heq | hgt := Nat.lt_trichotomy (mag x) (mag y)
    · rw [if_neg (by omega), if_neg (by omega), if_neg (by omega), if_pos hlt]
    · rw [if_pos heq, if_pos heq.symm]
    · rw [if_neg (by omega), if_pos hgt, if_neg (by omega), if_neg (by omega)]

/-- Addition of two words that are no NaNs, one of them an infinity. -/
def addInf (d : Nat) (x y : Word) : Word :=
  if isInf x then if isInf y && (sign x != sign y) then nan d else x else y

theorem addInf_comm (d : Nat) {x y : Word} (h : (isInf x || isInf y) = true) : addInf d x y = addInf d y x := by
  unfold addInf
  cases hx : isInf x <;> cases hy : isInf y
  · simp [hx, hy] at h
  · simp
  · simp
  · by_cases hs : sign x = sign y
    · have := eq_of_isInf hx hy hs
      simp [this]
    · simp [hs, Ne.symm hs]

theorem add_eq (d : Nat) (x y : Word) :
    add d x y =
      if isNaN x || isNaN y then nan d
      else if isInf x || isInf y then addInf d x y
      else addFinite x y := by
  unfold add addInf addFinite
  by_cases hn : (isNaN x || isNaN y) = true
  · rw [if_pos hn, if_pos hn]
  · rw [if_neg hn, if_neg hn]
    by_cases hx : isInf x = true
    · simp [hx]
    · simp [hx]

theorem add_comm (d : Nat) (x y : Word) : add d x y = add d y x := by
  rw [add_eq, add_eq, Bool.or_comm (isNaN y), Bool.or_comm (isInf y), addFinite_comm y x]
  by_cases h : (isInf x || isInf y) = true
  · rw [addInf_comm d h]
  · simp only [if_neg h]

end Binary32

/-- Settles O55: the cases of addition are symmetric, and every NaN result is a draw of a quiet NaN. -/
theorem defaultArithmeticOnNaNAndOrder : Obligations.DefaultArithmeticOnNaNAndOrder := by
  refine ⟨Binary32.add_comm, fun d x y he hf => ?_⟩
  have hx := Binary32.isNaN_of_fields he hf
  have hadd : numerics.fadd d x y = Binary32.nan d := Binary32.add_of_isNaN d y hx
  have hmul : numerics.fmul d x y = Binary32.nan d := Binary32.mul_of_isNaN d (by rw [hx, Bool.true_or])
  have hmul' : numerics.fmul d y x = Binary32.nan d := Binary32.mul_of_isNaN d (by rw [hx, Bool.or_true])
  rw [hadd, hmul, hmul']
  exact ⟨Binary32.nan_quiet d, Binary32.nan_quiet d, Binary32.nan_quiet d⟩

namespace Binary32

/-! ## Rounding a value that is representable -/

theorem roundShift_mul_pow (m a : Nat) : roundShift (m * 2 ^ a) a = m := by
  have hr : m * 2 ^ a % 2 ^ a = 0 := Nat.mul_mod_left m (2 ^ a)
  have hq : (m * 2 ^ a) >>> a = m := by rw [Nat.shiftRight_eq_div_pow, Nat.mul_div_cancel m (Nat.two_pow_pos a)]
  simp only [roundShift, hr, hq, Nat.mul_zero, if_pos (Nat.two_pow_pos a)]

theorem log2_mul_two_pow {m : Nat} (hm : m ≠ 0) (a : Nat) : (m * 2 ^ a).log2 = m.log2 + a := by
  refine (Nat.log2_eq_iff (Nat.mul_ne_zero hm (Nat.two_pow_pos a).ne')).2 ⟨?_, ?_⟩
  · rw [Nat.pow_add]
    exact Nat.mul_le_mul_right _ (Nat.log2_self_le hm)
  · rw [Nat.add_right_comm, Nat.pow_add]
    exact Nat.mul_lt_mul_of_pos_right Nat.lt_log2_self (Nat.two_pow_pos a)

/-- A significand of at most 24 bits, with all 24 in use unless it stands at the least exponent, is packed as it is:
nothing is rounded off. -/
theorem roundPack_of_significand (s : Bool) {m e a l k : Nat} (hm : m ≠ 0) (h : l + a = e + k)
    (hfit : m.log2 = 23 ∨ e = 0 ∧ m.log2 < 23) :
    roundPack s (m * 2 ^ a) l k = pack s (min ((e <<< 23) + m) 0x7F800000) := by
  have ht : max k ((m * 2 ^ a).log2 + l - 23) = e + k := by rw [log2_mul_two_pow hm]; omega
  have hp : m * 2 ^ a ≠ 0 := Nat.mul_ne_zero hm (Nat.two_pow_pos a).ne'
  simp only [roundPack, if_neg hp, ht]
  rw [if_pos (by omega), show e + k - l = a by omega, roundShift_mul_pow, Nat.add_sub_cancel]

/-! ## The significand of a finite word -/

/-- The significand at its place gives back the exponent field and the fraction: the hidden bit is the exponent's
last unit. -/
theorem lift_add_mant (x : Word) : (lift x <<< 23) + mant x = expo x * 2 ^ 23 + frac x := by
  rw [lift, mant, Nat.shiftLeft_eq]
  split <;> omega

theorem mant_fits {x : Word} (h : mant x ≠ 0) : (mant x).log2 = 23 ∨ lift x = 0 ∧ (mant x).log2 < 23 := by
  have hf := frac_lt x
  by_cases he : expo x = 0
  · rw [mant, if_pos he] at h ⊢
    exact .inr ⟨by rw [lift, he], (Nat.log2_lt h).2 hf⟩
  · rw [mant, if_neg he] at h ⊢
    exact .inl ((Nat.log2_eq_iff h).2 ⟨by omega, by omega⟩)

/-- A zero significand is that of one of the two zeros. -/
theorem eq_pack_zero_of_mant {x : Word} (h : mant x = 0) : pack (sign x) 0 = x := by
  have he : expo x = 0 := by
    by_contra he
    rw [mant, if_neg he] at h
    omega
  have hf : frac x = 0 := by rwa [mant, if_pos he] at h
  have := pack_fields x
  rwa [he, hf] at this

/-- The value of a finite word, scaled in any way that the place of the result takes back, is rounded to the word. -/
theorem roundPack_mant {x : Word} (hx : expo x ≠ 255) {a l k : Nat} (h : l + a = lift x + k) :
    roundPack (sign x) (mant x * 2 ^ a) l k = x := by
  by_cases hm : mant x = 0
  · rw [hm, Nat.zero_mul, roundPack, if_pos rfl, eq_pack_zero_of_mant hm]
  · have he := expo_lt x
    have hf := frac_lt x
    rw [roundPack_of_significand _ hm h (mant_fits hm), lift_add_mant, Nat.min_eq_left (by omega), pack_fields]

theorem roundPack_mag {x : Word} (hx : expo x ≠ 255) : roundPack (sign x) (mag x) 0 0 = x := by
  rw [mag, Nat.shiftLeft_eq]
  exact roundPack_mant hx (by omega)

/-! ## The identities -/

theorem add_zero_left (d : Nat) {v : Word} (hv : expo v ≠ 255) :
    add d 0x00000000 v = if v = 0x80000000 then 0x00000000 else v := by
  have h0 : expo 0x00000000 ≠ 255 := by decide
  have hs0 : sign 0x00000000 = false := by decide
  have hm0 : mag 0x00000000 = 0 := by decide
  rw [add_eq, isNaN_of_expo_ne h0, isNaN_of_expo_ne hv, isInf_of_expo_ne h0, isInf_of_expo_ne hv]
  simp only [Bool.or_false, Bool.false_eq_true, if_false, addFinite, hs0, hm0, Nat.zero_add, Nat.sub_zero]
  by_cases hz : v = 0x80000000
  · subst hz; decide
  · rw [if_neg hz]
    by_cases hs : false = sign v
    · rw [if_pos hs, hs, roundPack_mag hv]
    · rw [if_neg hs, if_neg, if_neg (Nat.not_lt_zero _), roundPack_mag hv]
      intro hm
      have hmant : mant v = 0 := by
        rw [mag, Nat.shiftLeft_eq] at hm
        exact (Nat.mul_eq_zero.1 hm.symm).resolve_right (Nat.two_pow_pos _).ne'
      have := eq_pack_zero_of_mant hmant
      rw [show sign v = true by simpa using hs] at this
      exact hz (this.symm.trans (by decide))

theorem mul_one_left (d : Nat) {v : Word} (hv : expo v ≠ 255) : mul d 0x3F800000 v = v := by
  have h1 : expo 0x3F800000 ≠ 255 := by decide
  have hs1 : sign 0x3F800000 = false := by decide
  have hm1 : mant 0x3F800000 = 2 ^ 23 := by decide
  have hl1 : lift 0x3F800000 = 126 := by decide
  simp only [mul, isNaN_of_expo_ne h1, isNaN_of_expo_ne hv, isInf_of_expo_ne h1, isInf_of_expo_ne hv, Bool.or_false,
    Bool.false_eq_true, if_false, hs1, hm1, hl1, Bool.false_bne]
  rw [Nat.mul_comm]
  exact roundPack_mant hv (by omega)

end Binary32

/-- Settles O56: a finite value that is moved by a power of two is rounded to its own word. -/
theorem defaultArithmeticIdentities : Obligations.DefaultArithmeticIdentities := fun d _ hv =>
  ⟨Binary32.add_zero_left d (Binary32.expo_ne_of_finite hv), Binary32.mul_one_left d (Binary32.expo_ne_of_finite hv)⟩

end Sys2Proof.Machine
end

section
/-! The configuration is not changed by anything a command of the READY state does, nor by a response or a fault (R184):
`SameConfiguration`, met once by each of these operations, and what follows from it for the derived constants and for
what R188 checks. -/

namespace Sys2Proof.Machine

/-! ## The operations keep the configuration -/

/-- The port, the responses, the reset input, the draws, `ENG` with the flags and the fault registers, the buffers and
the accumulator are not configuration. -/
theorem sameConfiguration_update (s : State) (port resp : List Word) (resetIn : ResetLine) (draws : Nat) (eng : Eng)
    (primed oversize short : Bool) (fault faultInfo shortfall : Word) (accPos : Nat) (buf0 buf1 buf2 buf3 : Buf)
    (acc : Memory) :
    SameConfiguration s { s with
      port := port, resp := resp, resetIn := resetIn, draws := draws, eng := eng, primed := primed,
      oversize := oversize, short := short, fault := fault, faultInfo := faultInfo, shortfall := shortfall,
      accPos := accPos, buf0 := buf0, buf1 := buf1, buf2 := buf2, buf3 := buf3, acc := acc } := by
  refine ⟨rfl, fun r hr => ?_, rfl, rfl, rfl, rfl, rfl⟩
  cases r
  case status | fault | faultInfo | shortfall | accPos => exact absurd hr (by decide)
  all_goals rfl

theorem sameConfiguration_setBuf (s : State) (b : BufId) (q : Buf) : SameConfiguration s (s.setBuf b q) := by
  cases b <;> exact sameConfiguration_update s ..

theorem sameConfiguration_takeFault (s : State) (op : BitVec 6) (t : Trap) :
    SameConfiguration s (s.takeFault op t) := by
  unfold State.takeFault
  split <;> exact sameConfiguration_update s ..

/-! ## What depends on the configuration only -/

namespace SameConfiguration

variable {s t : State} (h : SameConfiguration s t)
include h

theorem symm : SameConfiguration t s := by
  obtain ⟨hp, hr, hhc, hhr, hic, hir, hwin⟩ := h
  exact ⟨hp.symm, fun r hlt => (hr r hlt).symm, hhc.symm, hhr.symm, hic.symm, hir.symm, hwin.symm⟩

theorem params_eq : t.params = s.params := h.1

theorem readCfg_eq {r : CfgReg} (hr : regNum r < 11 := by decide) : t.readCfg r = s.readCfg r := by
  obtain ⟨-, hreg, -⟩ := h
  exact hreg r hr

theorem D_eq : t.D = s.D := by
  rw [State.D, State.D, show t.factor = s.factor from h.readCfg_eq (r := .factor)]

theorem S_eq : t.S = s.S := by
  rw [State.S, State.S, show t.segSize = s.segSize from h.readCfg_eq (r := .segSize)]

theorem A_eq : t.A = s.A := by rw [State.A, State.A, h.D_eq, h.S_eq]

theorem hpEn_eq : t.hpEn = s.hpEn := by
  rw [State.hpEn, State.hpEn, show t.ctrl = s.ctrl from h.readCfg_eq (r := .ctrl)]

theorem LH_eq : t.LH = s.LH := by
  rw [State.LH, State.LH, show t.hpLen = s.hpLen from h.readCfg_eq (r := .hpLen)]

theorem N_eq : t.N = s.N := by
  rw [State.N, State.N, show t.ipLen = s.ipLen from h.readCfg_eq (r := .ipLen)]

theorem winCount_eq : t.winCount = s.winCount := by
  rw [State.winCount, State.winCount, show t.winLen = s.winLen from h.readCfg_eq (r := .winLen)]

theorem R_eq : t.R = s.R := by rw [State.R, State.R, h.N_eq, h.D_eq]

theorem intIn_eq : t.intIn = s.intIn := by rw [State.intIn, State.intIn, h.hpEn_eq]

theorem maxInCount_eq : t.maxInCount = s.maxInCount := by
  rw [State.maxInCount, State.maxInCount, show t.maxIn = s.maxIn from h.readCfg_eq (r := .maxIn)]

theorem capMul_eq (b : BufId) : t.capMul b = s.capMul b := by
  rw [State.capMul, State.capMul]
  cases b
  case b0 => exact congrArg field24 (h.readCfg_eq (r := .capMul0))
  case b1 => exact congrArg field24 (h.readCfg_eq (r := .capMul1))
  case b2 => exact congrArg field24 (h.readCfg_eq (r := .capMul2))
  case b3 => exact congrArg field24 (h.readCfg_eq (r := .capMul3))

/-- What BUILD checks depends on the configuration alone (R188). -/
theorem configLegal (hl : ConfigLegal s) : ConfigLegal t := by
  simpa only [ConfigLegal, h.params_eq, h.D_eq, h.S_eq, h.hpEn_eq, h.LH_eq, h.N_eq, h.winCount_eq, h.R_eq, h.intIn_eq,
    h.maxInCount_eq, h.capMul_eq] using hl

theorem lengthsFit (hl : LengthsFit s) : LengthsFit t := by
  simpa only [LengthsFit, h.params_eq, h.LH_eq, h.N_eq, h.winCount_eq] using hl

end SameConfiguration

/-- BUILD changes the caches, but not what they are built from (R184, R188). -/
theorem sameConfiguration_built (num : Numerics) (s : State) :
    SameConfiguration s { built num s with hr := s.hr, ir := s.ir } := by
  have h : SameConfiguration { built num s with hr := s.hr, ir := s.ir } s := by
    conv => rhs; rw [← built_frame num s]
    exact sameConfiguration_update ..
  exact h.symm

/-! ## A property of what was configured -/

/-- What the operations of READY, a response and a fault leave of what was configured: the configuration, no way into
READY, and a `SHORTFALL` that is as it was or a count of 24 bits (R40, R172, R184). -/
structure ConfigurationKept (s t : State) : Prop where
  same : SameConfiguration s t
  ready : t.eng = .ready → s.eng = .ready
  shortfall : t.shortfall = s.shortfall ∨ t.shortfall.toNat < 2 ^ 24

/-- A property that goes over to every such state is kept by every command that does not construct the engine. -/
theorem keeps_of_configurationKept {P : State → Prop} (h : ∀ s t, ConfigurationKept s t → P s → P t) : Keeps P := by
  have setBuf (s : State) (b : BufId) (q : Buf) (hs : P s) : P (s.setBuf b q) :=
    h s _ ⟨sameConfiguration_setBuf s b q, by simp, .inl (by simp)⟩ hs
  exact {
    append := fun s b _ _ hs _ _ => setBuf s b _ hs
    extend := fun s b _ hs _ _ => setBuf s b _ hs
    poke := fun s b _ _ hs _ _ => setBuf s b _ hs
    discard := fun s b _ hs _ _ => setBuf s b _ hs
    ola := fun _ s hs _ => h s _ ⟨sameConfiguration_update s .., id, .inl rfl⟩ hs
    advance := fun s _ hs _ => h s _ ⟨sameConfiguration_update s .., id, .inl rfl⟩ hs
    primed := fun s hs _ => h s _ ⟨sameConfiguration_update s .., id, .inl rfl⟩ hs
    oversize := fun s hs _ => h s _ ⟨sameConfiguration_update s .., id, .inl rfl⟩ hs
    short := fun s n hs _ hn => by
      refine h s _ ⟨sameConfiguration_update s .., id, .inr ?_⟩ hs
      rw [State.setShort_shortfall, BitVec.toNat_ofNat]; omega
    emit := fun s _ hs => h s _ ⟨sameConfiguration_update s .., id, .inl rfl⟩ hs
    fault := fun s op t hs => by
      refine h s _ ⟨sameConfiguration_takeFault s op t, fun he => ?_, .inl (by simp)⟩ hs
      rw [State.takeFault_eng] at he; cases he }

end Sys2Proof.Machine
end

section
/-! The buffers (R21 to R25, R115). -/

namespace Sys2Proof.Machine

theorem Memory.within_nil (n : Nat) : Memory.within [] n := fun _ hc => nomatch hc

/-- A sound buffer is ordered, and its store lies below its capacity. -/
theorem Buf.sound_iff {q : Buf} {w : Nat} : q.sound w ↔ q.ordered w ∧ q.store.within q.cap := by
  simp only [Buf.sound, Buf.ordered, and_assoc]

theorem Buf.within_makeRoom {q : Buf} {c : Nat} (h : q.store.within c) (n : Nat) : (q.makeRoom n).store.within c := by
  unfold Buf.makeRoom
  split
  · exact Memory.within_shiftDown h
  · exact h

theorem Buf.sound_reset (w : Nat) : Buf.reset.sound w :=
  Buf.sound_iff.2 ⟨Buf.ordered_reset w, Memory.within_nil _⟩

theorem Buf.sound.extended {q : Buf} {w n : Nat} (h : q.sound w) (hn : q.size + n ≤ q.cap) :
    ((q.makeRoom n).reserve n).sound w := by
  obtain ⟨hord, hstore⟩ := Buf.sound_iff.1 h
  refine Buf.sound_iff.2 ⟨hord.extended hn, ?_⟩
  rw [Buf.cap_reserve, Buf.cap_makeRoom]
  exact Memory.within_forget (Buf.within_makeRoom hstore n)

/-- Words written below the end of the live range lie below the capacity. -/
theorem Buf.sound.fill {q : Buf} {w p : Nat} {ws : List Word} (h : q.sound w) (hp : p + ws.length ≤ q.de) :
    (q.fill p ws).sound w := by
  obtain ⟨hord, hstore⟩ := Buf.sound_iff.1 h
  obtain ⟨-, hde, -⟩ := id hord
  exact Buf.sound_iff.2 ⟨hord.fill p ws, Memory.within_fill hstore (.inl (hp.trans hde))⟩

theorem Buf.sound.appended {q : Buf} {w n : Nat} (h : q.sound w) (hn : q.size + n ≤ q.cap) (v : List Word) :
    (q.appended n v).sound w :=
  (h.extended hn).fill (by simp)

theorem Buf.sound.consume {q : Buf} {w n : Nat} (h : q.sound w) (hn : n ≤ q.size) : (q.consume n).sound w := by
  obtain ⟨hord, hstore⟩ := Buf.sound_iff.1 h
  exact Buf.sound_iff.2 ⟨hord.consume hn, hstore⟩

/-- A buffer of the built engine is sized, and a stage's input is primed with a history that fits it (R188). -/
theorem buf_built_cases (num : Numerics) {s : State} (h : ConfigLegal s) (b : BufId) :
    (built num s).buf b = sizedBuf s b ∨
    ∃ n, n ≤ s.capMul b * s.maxInCount ∧ (built num s).buf b = primedBuf num s b n := by
  obtain ⟨-, -, -, -, -, -, -, hfir, hint⟩ := h
  rw [State.intIn] at hint
  cases b with
  | b0 => exact .inl (built_buf0 num s)
  | b1 =>
    refine .inr ⟨_, ?_, built_buf1 num s⟩
    split
    case isTrue hp => exact (hfir hp).2
    case isFalse hp => rwa [if_neg hp] at hint
  | b2 =>
    rw [State.buf, built_buf2]
    split
    case isTrue hp => rw [if_pos hp] at hint; exact .inr ⟨_, hint, rfl⟩
    case isFalse => exact .inl rfl
  | b3 => exact .inl (built_buf3 num s)

theorem sound_sizedBuf {s : State} (h : ConfigLegal s) {b : BufId} (hb : s.buf b = Buf.reset) :
    (sizedBuf s b).sound s.params.bufWords :=
  Buf.sound_iff.2 ⟨ordered_sizedBuf h b, by rw [sizedBuf_store, hb]; exact Memory.within_nil _⟩

theorem sound_built (num : Numerics) {s : State} (h : ConfigLegal s) {b : BufId} (hb : s.buf b = Buf.reset) :
    ((built num s).buf b).sound s.params.bufWords := by
  obtain hq | ⟨n, hn, hq⟩ := buf_built_cases num h b <;> rw [hq]
  · exact sound_sizedBuf h hb
  · exact (sound_sizedBuf h hb).appended (by simpa using hn) _

/-! ## The invariant -/

theorem SoundBuffers.of_bufs {s t : State} (h : SoundBuffers s) (hp : t.params = s.params)
    (hb : ∀ b, t.buf b = s.buf b) (he : t.eng = .unconfigured → s.eng = .unconfigured) : SoundBuffers t := by
  obtain ⟨hsound, hreset⟩ := h
  refine ⟨fun b => ?_, fun hu b => ?_⟩
  · rw [hb, hp]; exact hsound b
  · rw [hb]; exact hreset (he hu) b

theorem SoundBuffers.setBuf {s : State} (h : SoundBuffers s) (hr : s.eng = .ready) (b : BufId) {q : Buf}
    (hq : q.sound s.params.bufWords) : SoundBuffers (s.setBuf b q) := by
  refine ⟨fun b' => ?_, fun hu => ?_⟩
  · rw [State.buf_setBuf, State.setBuf_params]
    split
    · exact hq
    · exact h.1 b'
  · rw [State.setBuf_eng, hr] at hu; cases hu

theorem SoundBuffers.takeFault {s : State} (h : SoundBuffers s) (op : BitVec 6) (t : Trap) :
    SoundBuffers (s.takeFault op t) :=
  h.of_bufs (by simp) (by simp) fun hu => by rw [State.takeFault_eng] at hu; cases hu

theorem SoundBuffers.toReset (s : State) : SoundBuffers s.toReset := by
  refine ⟨fun b => ?_, fun _ b => State.buf_toReset s b⟩
  rw [State.buf_toReset]; exact Buf.sound_reset _

theorem SoundBuffers.built {s : State} (num : Numerics) (h : SoundBuffers s) (hu : s.eng = .unconfigured)
    (hl : ConfigLegal s) : SoundBuffers (built num s) := by
  refine ⟨fun b => ?_, fun hb => ?_⟩
  · rw [built_params]; exact sound_built num hl (h.2 hu b)
  · rw [built_eng] at hb; cases hb

theorem SoundBuffers.keepsStep : KeepsStep SoundBuffers where
  append s b n v h hr hn := h.setBuf hr b ((h.1 b).appended hn v)
  extend s b n h hr hn := h.setBuf hr b ((h.1 b).extended hn)
  poke s b off v h hr hoff := by
    refine h.setBuf hr b ((h.1 b).fill ?_)
    rw [State.size, Buf.size] at hoff
    simp only [List.length_singleton]; omega
  discard s b n h hr hn := h.setBuf hr b ((h.1 b).consume hn)
  ola num s h _ := h.of_bufs rfl (by simp) id
  advance s n h _ := h.of_bufs rfl (by simp) id
  primed s h _ := h.of_bufs rfl (by simp) id
  oversize s h _ := h.of_bufs rfl (by simp) id
  short s n h _ _ := h.of_bufs rfl (by simp) id
  emit s ws h := h.of_bufs rfl (by simp) id
  fault s op t h := h.takeFault op t
  toReset s _ := SoundBuffers.toReset s
  writeCfg s r v h _ := h.of_bufs (by simp) (by simp) (by simp)
  loadHc s n ws h _ _ _ := h.of_bufs rfl (by simp) id
  loadIc s n ws h _ _ _ := h.of_bufs rfl (by simp) id
  loadWin s n ws h _ _ _ := h.of_bufs rfl (by simp) id
  built num s h hu hl := h.built num hu hl
  port s ws h := h
  resetIdle s h := h

/-- Settles O45: every change of a buffer leaves it sound, and BUILD sizes buffers that nothing has written. -/
theorem stepKeepsBuffersSound : Obligations.StepKeepsBuffersSound := fun _ _ hs h =>
  SoundBuffers.keepsStep.step_keeps hs h

end Sys2Proof.Machine
end

section
/-! The reserved bits of the registers (R29 to R36, R40). -/

namespace Sys2Proof.Machine

/-- After a reset every register reads 0 (R49). -/
theorem readCfg_toReset (s : State) (r : CfgReg) : s.toReset.readCfg r = 0 := by
  cases r
  case status => exact (by decide : statusReg State.reset = 0)
  all_goals rfl

/-- What SETCFG leaves in a writable register (R29, R182). -/
theorem readCfg_writeCfg (s : State) (r r' : CfgReg) (v : Word) (h : regNum r' < 8) :
    (s.writeCfg r v).readCfg r' = if r' = r then v &&& writableMask r' else s.readCfg r' := by
  cases r'
  case hpLen | ipLen | winLen | status | fault | faultInfo | shortfall | accPos => exact absurd h (by decide)
  all_goals cases r <;> rfl

theorem hpLen_writeCfg (s : State) (r : CfgReg) (v : Word) : (s.writeCfg r v).hpLen = s.hpLen := by cases r <;> rfl
theorem ipLen_writeCfg (s : State) (r : CfgReg) (v : Word) : (s.writeCfg r v).ipLen = s.ipLen := by cases r <;> rfl
theorem winLen_writeCfg (s : State) (r : CfgReg) (v : Word) : (s.writeCfg r v).winLen = s.winLen := by cases r <;> rfl
theorem shortfall_writeCfg (s : State) (r : CfgReg) (v : Word) : (s.writeCfg r v).shortfall = s.shortfall := by
  cases r <;> rfl

/-- A table load writes no register below `HP_LEN`. -/
theorem readCfg_update_lengths (s : State) (hpLen ipLen winLen : Word) (hc ic win : Memory) {r : CfgReg}
    (h : regNum r < 8) :
    State.readCfg { s with hpLen := hpLen, ipLen := ipLen, winLen := winLen, hc := hc, ic := ic, win := win } r =
      s.readCfg r := by
  cases r
  case hpLen | ipLen | winLen | status | fault | faultInfo | shortfall | accPos => exact absurd h (by decide)
  all_goals rfl

/-- A 24-bit count in a register (R36, R88). -/
theorem setWidth_toNat_lt (n : BitVec 24) : (n.setWidth 32).toNat < 2 ^ 24 := by
  rw [BitVec.toNat_setWidth]; omega

namespace ReservedBitsZero

theorem of_configuration {s t : State} (hs : ReservedBitsZero s) (h : SameConfiguration s t)
    (hshort : t.shortfall = s.shortfall ∨ t.shortfall.toNat < 2 ^ 24) : ReservedBitsZero t := by
  obtain ⟨hmask, hhp, hip, hwin, hsf⟩ := hs
  refine ⟨fun r hr => ?_, ?_, ?_, ?_, ?_⟩
  · rw [h.readCfg_eq (r := r) (by omega)]; exact hmask r hr
  · rwa [show t.hpLen = s.hpLen from h.readCfg_eq (r := .hpLen)]
  · rwa [show t.ipLen = s.ipLen from h.readCfg_eq (r := .ipLen)]
  · rwa [show t.winLen = s.winLen from h.readCfg_eq (r := .winLen)]
  · exact hshort.elim (fun e => by rwa [e]) id

theorem toReset (s : State) : ReservedBitsZero s.toReset := by
  refine ⟨fun r _ => ?_, Nat.two_pow_pos 24, Nat.two_pow_pos 24, Nat.two_pow_pos 24, Nat.two_pow_pos 24⟩
  rw [readCfg_toReset]
  exact BitVec.zero_and

theorem writeCfg {s : State} (hs : ReservedBitsZero s) (r : CfgReg) (v : Word) : ReservedBitsZero (s.writeCfg r v) := by
  obtain ⟨hmask, hhp, hip, hwin, hsf⟩ := hs
  refine ⟨fun r' hr' => ?_, by rwa [hpLen_writeCfg], by rwa [ipLen_writeCfg], by rwa [winLen_writeCfg],
    by rwa [shortfall_writeCfg]⟩
  rw [readCfg_writeCfg s r r' v hr']
  split
  · rw [BitVec.and_assoc, BitVec.and_self]
  · exact hmask r' hr'

/-- A table load leaves a 24-bit length in its register. -/
theorem update_lengths {s : State} (hs : ReservedBitsZero s) {hpLen ipLen winLen : Word} (hc ic win : Memory)
    (hhp : hpLen.toNat < 2 ^ 24) (hip : ipLen.toNat < 2 ^ 24) (hwin : winLen.toNat < 2 ^ 24) :
    ReservedBitsZero
      { s with hpLen := hpLen, ipLen := ipLen, winLen := winLen, hc := hc, ic := ic, win := win } := by
  obtain ⟨hmask, -, -, -, hsf⟩ := hs
  refine ⟨fun r hr => ?_, hhp, hip, hwin, hsf⟩
  rw [readCfg_update_lengths s _ _ _ _ _ _ hr]; exact hmask r hr

theorem keepsStep : KeepsStep ReservedBitsZero where
  toKeeps := keeps_of_configurationKept fun _ _ h hs => hs.of_configuration h.same h.shortfall
  toReset s _ := toReset s
  writeCfg s r v hs _ := hs.writeCfg r v
  loadHc s n ws hs _ _ _ := by
    obtain ⟨-, -, hip, hwin, -⟩ := id hs
    exact hs.update_lengths _ _ _ (setWidth_toNat_lt n) hip hwin
  loadIc s n ws hs _ _ _ := by
    obtain ⟨-, hhp, -, hwin, -⟩ := id hs
    exact hs.update_lengths _ _ _ hhp (setWidth_toNat_lt n) hwin
  loadWin s n ws hs _ _ _ := by
    obtain ⟨-, hhp, hip, -, -⟩ := id hs
    exact hs.update_lengths _ _ _ hhp hip (setWidth_toNat_lt n)
  built num s hs _ _ := by
    have h : ReservedBitsZero { Machine.built num s with hr := s.hr, ir := s.ir } :=
      hs.of_configuration (sameConfiguration_built num s) (.inr (by simp))
    exact h
  port s ws hs := hs.of_configuration (sameConfiguration_update s ..) (.inl rfl)
  resetIdle s hs := hs.of_configuration (sameConfiguration_update s ..) (.inl rfl)

end ReservedBitsZero

/-- Settles O46: SETCFG stores through the mask, and the lengths and `SHORTFALL` are only written 24-bit counts. -/
theorem stepKeepsReservedBitsZero : Obligations.StepKeepsReservedBitsZero := fun _ _ hs h =>
  ReservedBitsZero.keepsStep.step_keeps hs h

end Sys2Proof.Machine
end

section
/-! `STATUS`, `FAULT`, the cause codes and the fault latch (R27, R37 to R39, R200, R210, R211). -/

namespace Sys2Proof.Machine

/-! ## The fields of the status words -/

theorem statusReg_fields (s : State) :
    (statusReg s).extractLsb' 0 2 = s.eng.bits ∧ (statusReg s).extractLsb' 2 2 = 0 ∧
    (statusReg s).getLsbD 4 = s.primed ∧ (statusReg s).getLsbD 5 = s.oversize ∧ (statusReg s).getLsbD 6 = s.short ∧
    (statusReg s).extractLsb' 7 25 = 0 := by
  have fields : ∀ (e : BitVec 2) (p o h : Bool),
      let w : Word := 0#25 ++ BitVec.ofBool h ++ BitVec.ofBool o ++ BitVec.ofBool p ++ 0#2 ++ e
      w.extractLsb' 0 2 = e ∧ w.extractLsb' 2 2 = 0 ∧ w.getLsbD 4 = p ∧ w.getLsbD 5 = o ∧ w.getLsbD 6 = h ∧
        w.extractLsb' 7 25 = 0 := by decide
  exact fields s.eng.bits s.primed s.oversize s.short

theorem faultCause_faultWord (op : BitVec 6) (b : BitVec 2) (c : Cause) : faultCause (faultWord op b c) = c.code := by
  apply BitVec.eq_of_getLsbD_eq
  intro i hi
  simp only [faultCause, faultWord, BitVec.getLsbD_extractLsb', BitVec.getLsbD_append]
  grind

theorem faultBuf_faultWord (op : BitVec 6) (b : BitVec 2) (c : Cause) : faultBuf (faultWord op b c) = b := by
  apply BitVec.eq_of_getLsbD_eq
  intro i hi
  simp only [faultBuf, faultWord, BitVec.getLsbD_extractLsb', BitVec.getLsbD_append]
  grind

theorem faultOp_faultWord (op : BitVec 6) (b : BitVec 2) (c : Cause) : faultOp (faultWord op b c) = op := by
  apply BitVec.eq_of_getLsbD_eq
  intro i hi
  simp only [faultOp, faultWord, BitVec.getLsbD_extractLsb', BitVec.getLsbD_append]
  grind

/-- Bits 7:6 and 31:14 of the word fault entry writes are 0 (R38). -/
theorem faultWord_reserved (op : BitVec 6) (b : BitVec 2) (c : Cause) :
    (faultWord op b c).extractLsb' 6 2 = 0 ∧ (faultWord op b c).extractLsb' 14 18 = 0 := by
  constructor <;>
  · apply BitVec.eq_of_getLsbD_eq
    intro i hi
    simp only [faultWord, BitVec.getLsbD_extractLsb', BitVec.getLsbD_append]
    grind

/-- Settles O18: each field is read off the concatenation that builds the word. -/
theorem statusRegisterFields : Obligations.StatusRegisterFields := by
  refine ⟨statusReg_fields, fun op b c => ?_, fun s h => ?_, ?_⟩
  · obtain ⟨hlow, hhigh⟩ := faultWord_reserved op b c
    exact ⟨faultCause_faultWord op b c, faultBuf_faultWord op b c, hlow, faultOp_faultWord op b c, hhigh⟩
  · rw [State.readCfg, BitVec.toNat_ofNat]; omega
  · decide

/-! ## The fault latch -/

theorem Cause.code_bounds (c : Cause) : 1 ≤ c.code.toNat ∧ c.code.toNat ≤ 7 := by
  cases c <;> decide

namespace FaultLatch

/-- The latch is `ENG`, `FAULT` and `FAULT_INFO`. -/
theorem of_eq {s t : State} (h : FaultLatch s) (he : t.eng = s.eng) (hf : t.fault = s.fault)
    (hi : t.faultInfo = s.faultInfo) : FaultLatch t := by
  simpa only [FaultLatch, he, hf, hi] using h

theorem takeFault {s : State} (h : FaultLatch s) (op : BitVec 6) (t : Trap) : FaultLatch (s.takeFault op t) := by
  by_cases hf : s.eng = .faulted
  · rw [State.takeFault_of_faulted s op t hf]
    exact h.of_eq rfl rfl rfl
  · rw [State.takeFault_of_not_faulted s op t hf]
    refine ⟨fun hne => absurd rfl hne, fun _ => ?_, faultWord_reserved _ _ _⟩
    rw [State.emit_fault, State.latchFault_fault, faultCause_faultWord]
    exact t.cause.code_bounds

theorem toReset (s : State) : FaultLatch s.toReset :=
  ⟨fun _ => ⟨rfl, rfl⟩, (nomatch ·), (by decide : (0 : Word).extractLsb' 6 2 = 0),
    (by decide : (0 : Word).extractLsb' 14 18 = 0)⟩

/-- BUILD leaves the latch of UNCONFIGURED as it is, and in READY it is the same. -/
theorem built {s : State} (num : Numerics) (h : FaultLatch s) (hu : s.eng = .unconfigured) :
    FaultLatch (built num s) := by
  obtain ⟨hout, -, hres⟩ := h
  obtain ⟨hf, hi⟩ := hout (by rw [hu]; decide)
  refine ⟨fun _ => ⟨by rwa [built_fault], by rwa [built_faultInfo]⟩, fun he => ?_, by rwa [built_fault]⟩
  rw [built_eng] at he; cases he

theorem keepsStep : KeepsStep FaultLatch where
  append s b n v h _ _ := h.of_eq (by simp) (by simp) (by simp)
  extend s b n h _ _ := h.of_eq (by simp) (by simp) (by simp)
  poke s b off v h _ _ := h.of_eq (by simp) (by simp) (by simp)
  discard s b n h _ _ := h.of_eq (by simp) (by simp) (by simp)
  ola num s h _ := h
  advance s n h _ := h
  primed s h _ := h
  oversize s h _ := h
  short s n h _ _ := h
  emit s ws h := h
  fault s op t h := h.takeFault op t
  toReset s _ := toReset s
  writeCfg s r v h _ := by cases r <;> exact h
  loadHc s n ws h _ _ _ := h
  loadIc s n ws h _ _ _ := h
  loadWin s n ws h _ _ _ := h
  built num s h hu _ := h.built num hu
  port s ws h := h
  resetIdle s h := h

end FaultLatch

/-- Settles O47: fault entry writes one of the seven causes with `ENG`, and only a reset clears them. -/
theorem stepKeepsTheFaultLatch : Obligations.StepKeepsTheFaultLatch := fun _ _ hs h =>
  FaultLatch.keepsStep.step_keeps hs h

end Sys2Proof.Machine
end

section
/-! The flags, `SHORTFALL` and the cursor before BUILD (R37, R40, R45, R49). -/

namespace Sys2Proof.Machine

/-- A property of which nothing is said in READY is kept by every run of a READY command's body. -/
theorem keepsRun_of_ready {P : State → Prop} (h : ∀ s, s.eng = .ready → P s) : KeepsRun P where
  append s b n v _ hr _ := h _ (by simpa using hr)
  extend s b n _ hr _ := h _ (by simpa using hr)
  poke s b off v _ hr _ := h _ (by simpa using hr)
  discard s b n _ hr _ := h _ (by simpa using hr)
  ola num s _ hr := h _ hr
  advance s n _ hr := h _ hr
  primed s _ hr := h _ hr
  oversize s _ hr := h _ hr
  short s n _ hr _ := h _ hr

namespace IdleBeforeBuild

theorem of_ready {s : State} (h : s.eng = .ready) : IdleBeforeBuild s := fun hu => by rw [h] at hu; cases hu

theorem takeFault (s : State) (op : BitVec 6) (t : Trap) : IdleBeforeBuild (s.takeFault op t) := fun hu => by
  rw [State.takeFault_eng] at hu; cases hu

theorem keepsStep : KeepsStep IdleBeforeBuild where
  toKeepsRun := keepsRun_of_ready fun _ => of_ready
  emit s ws h := h
  fault s op t _ := takeFault s op t
  toReset s _ _ := ⟨rfl, rfl, rfl, rfl, rfl⟩
  writeCfg s r v h _ := by cases r <;> exact h
  loadHc s n ws h _ _ _ := h
  loadIc s n ws h _ _ _ := h
  loadWin s n ws h _ _ _ := h
  built num s _ _ _ := of_ready (built_eng num s)
  port s ws h := h
  resetIdle s h := h

end IdleBeforeBuild

/-- Settles O52: only the commands of READY, BUILD and a reset write the flags, `SHORTFALL` and the cursor. -/
theorem stepKeepsIdleBeforeBuild : Obligations.StepKeepsIdleBeforeBuild := fun _ _ hs h =>
  IdleBeforeBuild.keepsStep.step_keeps hs h

end Sys2Proof.Machine
end

section
/-! What READY means: a legal configuration, the capacities it gives, and a sound cursor (R22, R45, R162, R184,
R188). -/

namespace Sys2Proof.Machine

/-! ## The window loop writes below the accumulator's length (R161) -/

/-- A property of the accumulator and its cursor that a write below the accumulator's length and a move of the cursor
by one segment keep is kept by any number of windows. -/
theorem olaWindows_keeps {Q : Ola → Prop} (num : Numerics) {s : State} (hA : 0 < s.A)
    (hwrite : ∀ o a w, a < s.A → Q o → Q { o with acc := o.acc.write a w })
    (hpos : ∀ o, Q o → Q { o with pos := (o.pos + s.S) % s.A }) {o : Ola} (ho : Q o) (wc : Nat) :
    Q (olaWindows num s o wc).2 := by
  have hindex : ∀ pos k, accIndex s pos k < s.A := fun pos k => Nat.mod_lt _ hA
  induction wc with
  | zero => exact ho
  | succ wc ih =>
    refine hpos _ (List.foldlRecOn _ _ (List.foldlRecOn _ _ ih ?_) ?_)
    · exact fun o h k _ => hwrite o _ _ (hindex _ _) h
    · exact fun o h k _ => hwrite o _ _ (hindex _ _) h

/-- `CursorSound` of an accumulator and a cursor inside the window loop. -/
def Ola.sound (s : State) (o : Ola) : Prop := o.pos < s.A ∧ s.S ∣ o.pos ∧ ∀ k, k < s.A → (o.acc.read k).isSome

theorem cursorSound_iff (s : State) : CursorSound s ↔ Ola.sound s { acc := s.acc, pos := s.accPos } := Iff.rfl

theorem CursorSound.olaUpdate {s : State} (num : Numerics) (hA : 0 < s.A) (h : CursorSound s) :
    CursorSound (olaUpdate num s) := by
  refine olaWindows_keeps (Q := Ola.sound s) num hA (fun o a w _ ho => ?_) (fun o ho => ?_)
    ((cursorSound_iff s).1 h) (olaCount s)
  · obtain ⟨hlt, hdvd, hread⟩ := ho
    refine ⟨hlt, hdvd, fun k hk => ?_⟩
    rw [Memory.read_write]
    split
    · rfl
    · exact hread k hk
  · obtain ⟨-, hdvd, hread⟩ := ho
    have hSA : s.S ∣ s.A := Dvd.intro_left _ rfl
    exact ⟨Nat.mod_lt _ hA, (Nat.dvd_mod_iff hSA).2 (Nat.dvd_add hdvd (Nat.dvd_refl _)), hread⟩

/-! ## The built engine -/

theorem configLegal_built (num : Numerics) {s : State} (h : ConfigLegal s) : ConfigLegal (built num s) :=
  (sameConfiguration_built num s).configLegal h

/-- BUILD sizes every buffer by its multiple of `MAX_IN` (R22, R188). -/
theorem cap_built (num : Numerics) {s : State} (h : ConfigLegal s) (b : BufId) :
    ((built num s).buf b).cap = s.capMul b * s.maxInCount := by
  obtain hq | ⟨n, -, hq⟩ := buf_built_cases num h b <;> rw [hq]
  · rfl
  · simp [primedBuf]

/-- Reading a memory filled from index 0 on, below the number of words. -/
theorem Memory.isSome_read_fill (m : Memory) {ws : List Word} {k : Nat} (h : k < ws.length) :
    ((m.fill 0 ws).read k).isSome := by
  rw [Memory.read_fill, if_pos ⟨Nat.zero_le _, by omega⟩, Nat.sub_zero, List.getElem?_eq_getElem h]
  rfl

theorem cursorSound_built (num : Numerics) {s : State} (h : ConfigLegal s) : CursorSound (built num s) := by
  refine ⟨?_, by simp, fun k hk => ?_⟩
  · rw [built_accPos, A_built]; exact h.acc_fits.1
  · rw [built_acc]
    rw [A_built] at hk
    exact Memory.isSome_read_fill _ (by simpa using hk)

/-! ## The invariant -/

namespace ReadySound

theorem of_frame {s t : State} (h : ReadySound s) (hc : SameConfiguration s t) (he : t.eng = .ready → s.eng = .ready)
    (hcap : ∀ b, (t.buf b).cap = (s.buf b).cap) (hacc : t.acc = s.acc) (hpos : t.accPos = s.accPos) :
    ReadySound t := fun hr => by
  obtain ⟨hl, hcaps, hcur⟩ := h (he hr)
  refine ⟨hc.configLegal hl, fun b => ?_, ?_⟩
  · rw [hcap, hcaps, hc.capMul_eq, hc.maxInCount_eq]
  · simpa only [CursorSound, hc.A_eq, hc.S_eq, hacc, hpos] using hcur

theorem setBuf {s : State} (h : ReadySound s) (b : BufId) {q : Buf} (hq : q.cap = (s.buf b).cap) :
    ReadySound (s.setBuf b q) := by
  refine h.of_frame (sameConfiguration_setBuf s b q) (by simp) (fun b' => ?_) (by simp) (by simp)
  rw [State.buf_setBuf]
  split
  case isTrue e => rw [e, hq]
  case isFalse => rfl

theorem olaUpdate {s : State} (num : Numerics) (h : ReadySound s) : ReadySound (olaUpdate num s) := fun hr => by
  obtain ⟨hl, hcaps, hcur⟩ := h hr
  have hc : SameConfiguration s (Machine.olaUpdate num s) := sameConfiguration_update s ..
  exact ⟨hc.configLegal hl, fun b => by rw [buf_olaUpdate, hcaps, hc.capMul_eq, hc.maxInCount_eq],
    hcur.olaUpdate num hl.acc_fits.1⟩

theorem takeFault (s : State) (op : BitVec 6) (t : Trap) : ReadySound (s.takeFault op t) := fun hr => by
  rw [State.takeFault_eng] at hr; cases hr

theorem of_unconfigured {s : State} (h : s.eng = .unconfigured) : ReadySound s := fun hr => by rw [h] at hr; cases hr

theorem built (num : Numerics) {s : State} (hl : ConfigLegal s) : ReadySound (built num s) := fun _ =>
  have hc := sameConfiguration_built num s
  ⟨configLegal_built num hl, fun b => (cap_built num hl b).trans (by rw [← hc.capMul_eq, ← hc.maxInCount_eq]; rfl),
    cursorSound_built num hl⟩

theorem keepsStep : KeepsStep ReadySound where
  append s b n v h _ _ := h.setBuf b (by simp)
  extend s b n h _ _ := h.setBuf b (by simp)
  poke s b off v h _ _ := h.setBuf b (by simp)
  discard s b n h _ _ := h.setBuf b (by simp)
  ola num s h _ := h.olaUpdate num
  advance s n h _ := h.of_frame (sameConfiguration_update s ..) id (by simp) rfl rfl
  primed s h _ := h.of_frame (sameConfiguration_update s ..) id (by simp) rfl rfl
  oversize s h _ := h.of_frame (sameConfiguration_update s ..) id (by simp) rfl rfl
  short s n h _ _ := h.of_frame (sameConfiguration_update s ..) id (by simp) rfl rfl
  emit s ws h := h.of_frame (sameConfiguration_update s ..) id (by simp) rfl rfl
  fault s op t _ := takeFault s op t
  toReset s _ := of_unconfigured rfl
  writeCfg s r v _ hu := of_unconfigured (by simpa using hu)
  loadHc s n ws _ hu _ _ := of_unconfigured hu
  loadIc s n ws _ hu _ _ := of_unconfigured hu
  loadWin s n ws _ hu _ _ := of_unconfigured hu
  built num s _ _ hl := built num hl
  port s ws h := h
  resetIdle s h := h

end ReadySound

/-- Settles O48: BUILD enters READY only past the checks of R188, no command of READY writes the configuration or a
capacity, and the window loop keeps the cursor. -/
theorem stepKeepsReadySound : Obligations.StepKeepsReadySound := fun _ _ hs h =>
  ReadySound.keepsStep.step_keeps hs h

end Sys2Proof.Machine
end

section
/-! A framed word decodes to a well-formed command (R83, R95). -/

namespace Sys2Proof

theorem formZ_ok {cw : Word} {i j : Instr} (h : formZ cw i = .ok j) : j = i := by
  unfold formZ at h
  split at h <;> cases h
  rfl

theorem formB_ok {cw : Word} {k : BufId → Instr} {j : Instr} (h : formB cw k = .ok j) :
    j = k (BufId.ofBits (bOf cw)) := by
  unfold formB at h
  split at h <;> cases h
  rfl

theorem formBI_ok {cw : Word} {k : BufId → BitVec 24 → Instr} {j : Instr} (h : formBI cw k = .ok j) :
    j = k (BufId.ofBits (bOf cw)) (immOf cw) := by
  cases h
  rfl

theorem formI_ok {cw : Word} {k : BitVec 24 → Instr} {j : Instr} (h : formI cw k = .ok j) : j = k (immOf cw) := by
  unfold formI at h
  split at h <;> cases h
  rfl

theorem formR_ok {cw : Word} {k : CfgReg → Instr} {j : Instr} (h : formR cw k = .ok j) :
    j = k (CfgReg.ofBits (rOf cw)) := by
  unfold formR at h
  split at h <;> cases h
  rfl

/-- The payload of a framed word has the length its command asks for. -/
theorem decodeFrame_wellFormed {cw : Word} {payload : List Word} {i : Instr} (hlen : payload.length = plen cw)
    (h : decodeFrame cw payload = .ok i) : i.wellFormed = true := by
  unfold decodeFrame at h
  split at h
  case h_1 | h_2 | h_8 | h_18 | h_19 | h_20 => rw [formZ_ok h]; rfl
  case h_3 =>
    split at h
    · rw [formR_ok h]; rfl
    · cases h
  case h_4 => rw [formR_ok h]; rfl
  case h_10 =>
    split at h
    · rw [formBI_ok h]; rfl
    · cases h
  case h_9 | h_12 | h_13 | h_15 => rw [formBI_ok h]; rfl
  case h_14 | h_16 | h_17 => rw [formB_ok h]; rfl
  case h_21 => rw [formI_ok h]; rfl
  case h_5 hop | h_6 hop | h_7 hop | h_22 hop =>
    rw [formI_ok h]
    rw [plen, hop] at hlen
    exact beq_iff_eq.2 hlen
  case h_11 hop =>
    rw [formBI_ok h]
    rw [plen, hop] at hlen
    exact beq_iff_eq.2 hlen
  case h_23 => cases h

end Sys2Proof
end

section
/-! The tables, their lengths and their caches (R42, R43, R44, R47), and the bounds of the RAMs (R10, R42 to R45). -/

namespace Sys2Proof.Machine

/-- The length a load leaves in a register is its count (R36, R185 to R187). -/
theorem field24_setWidth (n : BitVec 24) : field24 (n.setWidth 32) = n.toNat := by
  unfold field24
  congr 1
  apply BitVec.eq_of_getLsbD_eq
  intro i hi
  rw [BitVec.getLsbD_extractLsb', BitVec.getLsbD_setWidth, decide_eq_true hi, decide_eq_true (by omega), Nat.zero_add]
  rfl

/-- A reset leaves no trace of the state before it (R230). -/
theorem resetStep_eq_hardReset (s : State) : ∃ u : State, resetStep s = u.hardReset := by
  rw [resetStep]
  split
  · exact ⟨_, rfl⟩
  · exact ⟨_, rfl⟩

/-! ## The lengths -/

theorem LengthsFit.loadHc {s : State} (h : LengthsFit s) {n : BitVec 24} (ws : List Word)
    (hw : n.toNat ≤ s.params.hpWords) : LengthsFit (s.loadHc n ws) := by
  obtain ⟨-, hN, hW⟩ := h
  exact ⟨(field24_setWidth n).trans_le hw, hN, hW⟩

theorem LengthsFit.loadIc {s : State} (h : LengthsFit s) {n : BitVec 24} (ws : List Word)
    (hw : n.toNat ≤ s.params.ipWords) : LengthsFit (s.loadIc n ws) := by
  obtain ⟨hL, -, hW⟩ := h
  exact ⟨hL, (field24_setWidth n).trans_le hw, hW⟩

theorem LengthsFit.loadWin {s : State} (h : LengthsFit s) {n : BitVec 24} (ws : List Word)
    (hw : n.toNat ≤ s.params.winWords) : LengthsFit (s.loadWin n ws) := by
  obtain ⟨hL, hN, -⟩ := h
  exact ⟨hL, hN, (field24_setWidth n).trans_le hw⟩

theorem LengthsFit.writeCfg {s : State} (h : LengthsFit s) (r : CfgReg) (v : Word) : LengthsFit (s.writeCfg r v) := by
  cases r <;> exact h

theorem LengthsFit.toReset (s : State) : LengthsFit s.toReset := ⟨Nat.zero_le _, Nat.zero_le _, Nat.zero_le _⟩

theorem LengthsFit.built {s : State} (h : LengthsFit s) (num : Numerics) : LengthsFit (built num s) :=
  (sameConfiguration_built num s).lengthsFit h

/-! ## The tables -/

/-- `TablesSound` as a step keeps it: with the lengths within the RAMs, and with tables and caches in canonical form, so
that BUILD's reversed copies read as the reversed vectors. -/
structure TablesKept (s : State) : Prop where
  hc : s.hc.wf
  hr : s.hr.wf
  ic : s.ic.wf
  ir : s.ir.wf
  lengths : LengthsFit s
  tables : TablesSound s

namespace TablesKept

theorem of_configuration {s t : State} (hs : TablesKept s) (h : SameConfiguration s t)
    (he : t.eng = .ready → s.eng = .ready) : TablesKept t := by
  obtain ⟨hhp, hip, hwin, hir, hhr⟩ := hs.tables
  have ⟨_, _, ehc, ehr, eic, eir, ewin⟩ := h
  refine ⟨by rw [ehc]; exact hs.hc, by rw [ehr]; exact hs.hr, by rw [eic]; exact hs.ic, by rw [eir]; exact hs.ir,
    h.lengthsFit hs.lengths, ?_⟩
  rw [TablesSound, h.LH_eq, h.N_eq, h.winCount_eq, h.hpEn_eq, ehc, ehr, eic, eir, ewin]
  exact ⟨hhp, hip, hwin, fun hr => hir (he hr), fun hr => hhr (he hr)⟩

theorem keeps : Keeps TablesKept := keeps_of_configurationKept fun _ _ h hs => hs.of_configuration h.same h.ready

theorem toReset (s : State) : TablesKept s.toReset where
  hc := Memory.wf_nil
  hr := Memory.wf_nil
  ic := Memory.wf_nil
  ir := Memory.wf_nil
  lengths := LengthsFit.toReset s
  tables := ⟨fun _ h => absurd h (Nat.not_lt_zero _), fun _ h => absurd h (Nat.not_lt_zero _),
    fun _ h => absurd h (Nat.not_lt_zero _), (nomatch ·), (nomatch ·)⟩

theorem writeCfg {s : State} (hs : TablesKept s) (hu : s.eng = .unconfigured) (r : CfgReg) (v : Word) :
    TablesKept (s.writeCfg r v) := by
  have hne : s.eng ≠ .ready := by rw [hu]; decide
  obtain ⟨hhp, hip, hwin, -, -⟩ := hs.tables
  have tables : TablesSound (s.writeCfg r v) := by
    cases r <;> exact ⟨hhp, hip, hwin, fun h => absurd h hne, fun h => absurd h hne⟩
  cases r <;> exact ⟨hs.hc, hs.hr, hs.ic, hs.ir, hs.lengths.writeCfg _ v, tables⟩

section
variable {s : State} (hs : TablesKept s) (hu : s.eng = .unconfigured) {n : BitVec 24} {ws : List Word}
  (hn : n.toNat ≤ ws.length)
include hs hu hn

theorem loadHc (hw : n.toNat ≤ s.params.hpWords) : TablesKept (s.loadHc n ws) := by
  have hne : s.eng ≠ .ready := by rw [hu]; decide
  have hL : (s.loadHc n ws).LH = n.toNat := field24_setWidth n
  obtain ⟨-, hip, hwin, -, -⟩ := hs.tables
  refine ⟨Memory.wf_fill hs.hc 0 ws, hs.hr, hs.ic, hs.ir, hs.lengths.loadHc ws hw, fun k hk => ?_, hip, hwin,
    fun h => absurd h hne, fun h => absurd h hne⟩
  exact Memory.isSome_read_fill _ (by omega)

theorem loadIc (hw : n.toNat ≤ s.params.ipWords) : TablesKept (s.loadIc n ws) := by
  have hne : s.eng ≠ .ready := by rw [hu]; decide
  have hN : (s.loadIc n ws).N = n.toNat := field24_setWidth n
  obtain ⟨hhp, -, hwin, -, -⟩ := hs.tables
  refine ⟨hs.hc, hs.hr, Memory.wf_fill hs.ic 0 ws, hs.ir, hs.lengths.loadIc ws hw, hhp, fun k hk => ?_, hwin,
    fun h => absurd h hne, fun h => absurd h hne⟩
  exact Memory.isSome_read_fill _ (by omega)

theorem loadWin (hw : n.toNat ≤ s.params.winWords) : TablesKept (s.loadWin n ws) := by
  have hne : s.eng ≠ .ready := by rw [hu]; decide
  have hW : (s.loadWin n ws).winCount = n.toNat := field24_setWidth n
  obtain ⟨hhp, hip, -, -, -⟩ := hs.tables
  refine ⟨hs.hc, hs.hr, hs.ic, hs.ir, hs.lengths.loadWin ws hw, hhp, hip, fun k hk => ?_,
    fun h => absurd h hne, fun h => absurd h hne⟩
  exact Memory.isSome_read_fill _ (by omega)

end

/-- BUILD's caches are the reversed vectors (R42, R43). -/
theorem read_ir_built (num : Numerics) {s : State} (hir : s.ir.wf) (hic : s.ic.wf) {k : Nat} (hk : k < s.N) :
    (Machine.built num s).ir.read k = s.ic.read (s.N - 1 - k) := by
  rw [built_ir, Memory.read_reverseInto hir hic, if_pos hk]

theorem read_hr_built (num : Numerics) {s : State} (hhr : s.hr.wf) (hhc : s.hc.wf) (hp : s.hpEn = true) {k : Nat}
    (hk : k < s.LH) : (Machine.built num s).hr.read k = s.hc.read (s.LH - 1 - k) := by
  rw [built_hr, if_pos hp, Memory.read_reverseInto hhr hhc, if_pos hk]

theorem built {s : State} (num : Numerics) (hs : TablesKept s) : TablesKept (built num s) := by
  have h := sameConfiguration_built num s
  have hL : (Machine.built num s).LH = s.LH := h.LH_eq
  have hN : (Machine.built num s).N = s.N := h.N_eq
  have hW : (Machine.built num s).winCount = s.winCount := h.winCount_eq
  have hp : (Machine.built num s).hpEn = s.hpEn := h.hpEn_eq
  obtain ⟨hhp, hip, hwin, -, -⟩ := hs.tables
  refine ⟨by rw [built_hc]; exact hs.hc, ?_, by rw [built_ic]; exact hs.ic, ?_, hs.lengths.built num, ?_⟩
  · rw [built_hr]
    split
    · exact Memory.wf_reverseInto hs.hr hs.hc _
    · exact hs.hr
  · rw [built_ir]; exact Memory.wf_reverseInto hs.ir hs.ic _
  · rw [TablesSound, hL, hN, hW, hp, built_hc, built_ic, built_win]
    exact ⟨hhp, hip, hwin, fun _ k hk => read_ir_built num hs.ir hs.ic hk,
      fun _ hen k hk => read_hr_built num hs.hr hs.hc hen hk⟩

/-- A well-formed command loads as many words as the length it sets, so it keeps the tables. -/
theorem exec_keeps {i : Instr} (hi : i.wellFormed = true) {s t : State} (hs : TablesKept s)
    (he : exec i s = .next t) : TablesKept t := by
  have take {n : BitVec 24} {ws : List Word} (h : ws.length = n.toNat) : n.toNat ≤ (ws.take n.toNat).length := by
    rw [List.length_take]; omega
  cases i with
  | reset => cases he; exact keeps.emit _ _ (toReset s)
  | setcfg r v =>
    cases he
    refine keeps.finish_keeps (whenUnconfigured_keeps hs fun hu => ?_)
    split
    · exact hs
    · exact hs.writeCfg hu r v
  | ldhp n ws =>
    cases he
    exact keeps.finish_keeps (loadTable_ends hs fun hu hw => hs.loadHc hu (take (beq_iff_eq.1 hi)) hw)
  | ldip n ws =>
    cases he
    exact keeps.finish_keeps (loadTable_ends hs fun hu hw => hs.loadIc hu (take (beq_iff_eq.1 hi)) hw)
  | ldwin n ws =>
    cases he
    exact keeps.finish_keeps (loadTable_ends hs fun hu hw => hs.loadWin hu (take (beq_iff_eq.1 hi)) hw)
  | build =>
    cases he
    refine keeps.finish_keeps (whenUnconfigured_keeps hs fun _ => ?_)
    obtain ⟨b, k, -, h⟩ | ⟨-, h⟩ := buildRun_cases s.num s <;> rw [h]
    · exact hs
    · exact hs.built s.num
  | _ => exact keeps.exec_keeps rfl hs he

theorem step_keeps {s t : State} (hs : TablesKept s) (h : step s = .next t) : TablesKept t := by
  have port (ws : List Word) : TablesKept { s with port := ws } :=
    hs.of_configuration (sameConfiguration_update s ..) id
  obtain ⟨-, rfl⟩ | ⟨-, f, hf, ⟨i, hi, he⟩ | ⟨-, rfl⟩⟩ := step_next h
  · obtain ⟨u, hu⟩ := resetStep_eq_hardReset s
    rw [hu]
    exact (toReset u).of_configuration (sameConfiguration_update u.toReset ..) id
  · exact (port f.rest).exec_keeps (decodeFrame_wellFormed (frame_ok hf).2 hi) he
  · exact keeps.fault _ _ _ (port f.rest)

end TablesKept

/-- Settles O49: a load defines the words below the length it sets, BUILD reverses them into the caches, and READY
changes neither. -/
theorem stepKeepsTablesSound : Obligations.StepKeepsTablesSound := by
  intro s t hcan hlen htab h
  obtain ⟨-, hhc, hhr, hic, hir, -, -⟩ := hcan
  have kept := TablesKept.step_keeps ⟨hhc, hhr, hic, hir, hlen, htab⟩ h
  exact ⟨kept.tables, kept.lengths⟩

/-! ## The bounds of the RAMs -/

/-- What bounds the words of every RAM from step to step: what READY means bounds the accumulator, and the lengths bound
the caches. -/
structure RamBounds (s : State) : Prop where
  ready : ReadySound s
  lengths : LengthsFit s
  within : WithinRams s

namespace RamBounds

theorem of_configuration {s t : State} (hs : RamBounds s) (hr : ReadySound t) (h : SameConfiguration s t)
    (hacc : t.acc.within s.params.accWords) : RamBounds t := by
  obtain ⟨hhc, hhr, hic, hir, hwin, -⟩ := hs.within
  have ⟨ep, _, ehc, ehr, eic, eir, ewin⟩ := h
  refine ⟨hr, h.lengthsFit hs.lengths, ?_⟩
  rw [WithinRams, ep, ehc, ehr, eic, eir, ewin]
  exact ⟨hhc, hhr, hic, hir, hwin, hacc⟩

theorem acc {s : State} (hs : RamBounds s) : s.acc.within s.params.accWords := by
  obtain ⟨-, -, -, -, -, h⟩ := hs.within
  exact h

theorem setBuf {s : State} (hs : RamBounds s) (b : BufId) {q : Buf} (hq : q.cap = (s.buf b).cap) :
    RamBounds (s.setBuf b q) :=
  hs.of_configuration (hs.ready.setBuf b hq) (sameConfiguration_setBuf s b q) (by rw [State.setBuf_acc]; exact hs.acc)

theorem olaUpdate {s : State} (num : Numerics) (hs : RamBounds s) (hr : s.eng = .ready) :
    RamBounds (olaUpdate num s) := by
  obtain ⟨hA, hfits⟩ := (hs.ready hr).1.acc_fits
  refine hs.of_configuration (hs.ready.olaUpdate num) (sameConfiguration_update s ..) ?_
  exact olaWindows_keeps (Q := fun o => o.acc.within s.params.accWords) num hA
    (fun _ _ _ ha ho => Memory.within_write ho (ha.trans_le hfits)) (fun _ ho => ho) hs.acc (olaCount s)

theorem toReset (s : State) : RamBounds s.toReset where
  ready := ReadySound.of_unconfigured rfl
  lengths := LengthsFit.toReset s
  within := ⟨Memory.within_nil _, Memory.within_nil _, Memory.within_nil _, Memory.within_nil _, Memory.within_nil _,
    Memory.within_nil _⟩

/-- What BUILD writes lies within the RAMs: the accumulator by its check 6, the caches by the lengths (R188). -/
theorem built {s : State} (num : Numerics) (hs : RamBounds s) (hl : ConfigLegal s) : RamBounds (built num s) := by
  obtain ⟨hL, hN, -⟩ := hs.lengths
  obtain ⟨hhc, hhr, hic, hir, hwin, hacc⟩ := hs.within
  refine ⟨ReadySound.built num hl, hs.lengths.built num, ?_⟩
  rw [WithinRams, built_params, built_hc, built_hr, built_ic, built_ir, built_win, built_acc]
  refine ⟨hhc, ?_, hic, Memory.within_reverseInto hir hN, hwin, Memory.within_fill hacc (.inl ?_)⟩
  · split
    · exact Memory.within_reverseInto hhr hL
    · exact hhr
  · rw [List.length_replicate, Nat.zero_add]; exact hl.acc_fits.2

theorem writeCfg {s : State} (hs : RamBounds s) (hu : s.eng = .unconfigured) (r : CfgReg) (v : Word) :
    RamBounds (s.writeCfg r v) where
  ready := ReadySound.keepsStep.writeCfg s r v hs.ready hu
  lengths := hs.lengths.writeCfg r v
  within := by cases r <;> exact hs.within

section
variable {s : State} (hs : RamBounds s) (hu : s.eng = .unconfigured) {n : BitVec 24} {ws : List Word}
  (hn : ws.length ≤ n.toNat)
include hs hu hn

theorem loadHc (hw : n.toNat ≤ s.params.hpWords) : RamBounds (s.loadHc n ws) := by
  obtain ⟨hhc, hrest⟩ := hs.within
  exact ⟨ReadySound.of_unconfigured hu, hs.lengths.loadHc ws hw,
    Memory.within_fill hhc (.inl ((Nat.zero_add _).trans_le (hn.trans hw))), hrest⟩

theorem loadIc (hw : n.toNat ≤ s.params.ipWords) : RamBounds (s.loadIc n ws) := by
  obtain ⟨hhc, hhr, hic, hrest⟩ := hs.within
  exact ⟨ReadySound.of_unconfigured hu, hs.lengths.loadIc ws hw, hhc, hhr,
    Memory.within_fill hic (.inl ((Nat.zero_add _).trans_le (hn.trans hw))), hrest⟩

theorem loadWin (hw : n.toNat ≤ s.params.winWords) : RamBounds (s.loadWin n ws) := by
  obtain ⟨hhc, hhr, hic, hir, hwin, hacc⟩ := hs.within
  exact ⟨ReadySound.of_unconfigured hu, hs.lengths.loadWin ws hw, hhc, hhr, hic, hir,
    Memory.within_fill hwin (.inl ((Nat.zero_add _).trans_le (hn.trans hw))), hacc⟩

end

theorem keepsStep : KeepsStep RamBounds where
  append s b n v hs _ _ := hs.setBuf b (by simp)
  extend s b n hs _ _ := hs.setBuf b (by simp)
  poke s b off v hs _ _ := hs.setBuf b (by simp)
  discard s b n hs _ _ := hs.setBuf b (by simp)
  ola num s hs hr := hs.olaUpdate num hr
  advance s n hs _ := ⟨hs.ready, hs.lengths, hs.within⟩
  primed s hs _ := ⟨hs.ready, hs.lengths, hs.within⟩
  oversize s hs _ := ⟨hs.ready, hs.lengths, hs.within⟩
  short s n hs _ _ := ⟨hs.ready, hs.lengths, hs.within⟩
  emit s ws hs := ⟨hs.ready, hs.lengths, hs.within⟩
  fault s op t hs := hs.of_configuration (ReadySound.takeFault s op t) (sameConfiguration_takeFault s op t)
    (by rw [State.takeFault_acc]; exact hs.acc)
  toReset s _ := toReset s
  writeCfg s r v hs hu := hs.writeCfg hu r v
  loadHc s n ws hs hu hw hn := hs.loadHc hu hn hw
  loadIc s n ws hs hu hw hn := hs.loadIc hu hn hw
  loadWin s n ws hs hu hw hn := hs.loadWin hu hn hw
  built num s hs _ hl := hs.built num hl
  port s ws hs := ⟨hs.ready, hs.lengths, hs.within⟩
  resetIdle s hs := ⟨hs.ready, hs.lengths, hs.within⟩

end RamBounds

/-- Settles O50: a load and BUILD check what they write against the RAM, and the window loop writes below `A`. -/
theorem stepKeepsRamBounds : Obligations.StepKeepsRamBounds := fun _ _ hw hl hr h =>
  (RamBounds.keepsStep.step_keeps ⟨hr, hl, hw⟩ h).within

end Sys2Proof.Machine
end

section
/-! Every command is one run and its end (R86): what the run may write where the accumulator is not its business, and
what the end makes of `ENG` (R27, R162, R210). -/

namespace Sys2Proof.Machine

/-- The run of a command before its end: what `exec` gives to `finish`. -/
def body (i : Instr) (s : State) : Run Answer :=
  match i with
  | .nop => respond 0 s
  | .reset => respond 0 s.toReset
  | .setcfg r v => whenUnconfigured (regNum r) s
    (if 8 ≤ regNum r then .raised { cause := .config, buf := .b0, info := regNum r } s else respond 0 (s.writeCfg r v))
  | .getcfg r => .done { result := 0, data := [s.readCfg r] } s
  | .ldhp n ws => loadTable n s.params.hpWords s (s.loadHc n (ws.take n.toNat))
  | .ldip n ws => loadTable n s.params.ipWords s (s.loadIc n (ws.take n.toNat))
  | .ldwin n ws => loadTable n s.params.winWords s (s.loadWin n (ws.take n.toNat))
  | .build => whenUnconfigured 0 s (buildRun s.num s)
  | .extend b n => whenReady s ((extend s b n.toNat).bind fun p s' => respond (p - (s'.buf b).ds) s')
  | .poke b off v => whenReady s (inRange s b off.toNat
    (respond 0 (s.setBuf b ((s.buf b).fill ((s.buf b).ds + off.toNat) [v]))))
  | .append b n v => whenReady s ((append s b n.toNat v).bind fun _ s' => respond 0 s')
  | .appendz b n => whenReady s ((appendZeros s.num s b n.toNat).bind fun _ s' => respond 0 s')
  | .discard b n => whenReady s ((discard s b n.toNat).bind fun _ s' => respond 0 s')
  | .size b => whenReady s (respond (s.size b) s)
  | .peek b off => whenReady s (inRange s b off.toNat (peekRun s b off.toNat))
  | .startidx b => whenReady s (.done { result := 0, data := indexWords (s.buf b).startIndex } s)
  | .endidx b => whenReady s (.done { result := 0, data := indexWords (s.buf b).endIndex } s)
  | .firrun => whenReady s
    (if s.hpEn then (firRun s.num s).bind respond else .raised { cause := .state, buf := .b0, info := 0 } s)
  | .intrun => whenReady s ((intRun s.num s).bind respond)
  | .olarun => whenReady s ((olaRun s.num s).bind respond)
  | .prime n => whenReady s ((appendZeros s.num s .b0 n.toNat).bind fun _ s' => respond 0 s'.setPrimed)
  | .process n x => whenReady s (processRun s.num n.toNat x s)

theorem exec_eq_finish (i : Instr) (s : State) : exec i s = .next (finish i.opcode (body i s)) := by
  cases i <;> rfl

theorem inRange_ends {P : State → Prop} {s : State} (hs : P s) (b : BufId) (off : Nat) {x : Run Answer}
    (hx : x.Ends P) : (inRange s b off x).Ends P := by
  rw [inRange]
  split
  · exact hs
  · exact hx

/-! ## A property that neither the buffers nor the configuration enter -/

/-- What the updates other than those of reset, BUILD and the window loop have to keep. -/
structure KeepsApart (P : State → Prop) : Prop where
  setBuf : ∀ s b q, P s → P (s.setBuf b q)
  advance : ∀ s n, P s → P (s.advance n)
  primed : ∀ s, P s → P s.setPrimed
  writeCfg : ∀ s r v, P s → P (s.writeCfg r v)
  loadHc : ∀ s n ws, P s → P (s.loadHc n ws)
  loadIc : ∀ s n ws, P s → P (s.loadIc n ws)
  loadWin : ∀ s n ws, P s → P (s.loadWin n ws)

namespace KeepsApart

variable {P : State → Prop} (K : KeepsApart P) {s : State} (hs : P s)
include K hs

theorem extend_ends (b : BufId) (n : Nat) : (Machine.extend s b n).Ends P := by
  rw [Machine.extend]
  split
  · exact hs
  · exact K.setBuf _ _ _ hs

theorem append_ends (b : BufId) (n : Nat) (v : List Word) : (Machine.append s b n v).Ends P := by
  rw [append_eq]
  split
  · exact hs
  · exact K.setBuf _ _ _ hs

theorem discard_ends (b : BufId) (n : Nat) : (Machine.discard s b n).Ends P := by
  rw [discard_eq]
  split
  · exact hs
  · exact K.setBuf _ _ _ hs

/-- A stage but the Overlap-Adder is an append and a discard. -/
theorem append_discard_ends {α : Type} (a : α) (b b' : BufId) (n m d : Nat) (v : List Word) :
    ((Machine.append s b n v).bind fun _ s1 =>
      (Machine.discard (s1.advance d) b' m).bind fun _ s2 => .done a s2).Ends P :=
  (K.append_ends hs b n v).bind
    (fun _ s1 h1 => (K.discard_ends (K.advance s1 d h1) b' m).bind (fun _ _ h => h) fun _ h => h) fun _ h => h

theorem firRun_ends (num : Numerics) : (firRun num s).Ends P := by
  rw [firRun_eq]
  split
  · exact hs
  · exact K.append_discard_ends hs ..

theorem intRun_ends (num : Numerics) : (intRun num s).Ends P := by
  rw [intRun_eq]
  split
  · exact hs
  · exact K.append_discard_ends hs ..

theorem peekRun_ends (b : BufId) (off : Nat) : (peekRun s b off).Ends P := by
  rw [peekRun]
  split
  · exact hs
  · exact K.advance s 1 hs

/-- Every command but BUILD, RESET, OLARUN and PROCESS keeps such a property until its end. -/
theorem body_ends {i : Instr} (hb : i ≠ .build) (hr : i ≠ .reset) (ho : i ≠ .olarun)
    (hp : ∀ n x, i ≠ .process n x) : (body i s).Ends P := by
  have answer {α : Type} {x : Run α} {f : α → State → Run Answer} (hx : x.Ends P)
      (hf : ∀ a u, P u → (f a u).Ends P) : (x.bind f).Ends P := hx.bind hf fun _ h => h
  cases i with
  | nop => exact hs
  | reset => exact absurd rfl hr
  | setcfg r v =>
    refine whenUnconfigured_keeps hs fun _ => ?_
    split
    · exact hs
    · exact K.writeCfg s r v hs
  | getcfg r => exact hs
  | ldhp n ws => exact loadTable_ends hs fun _ _ => K.loadHc s n _ hs
  | ldip n ws => exact loadTable_ends hs fun _ _ => K.loadIc s n _ hs
  | ldwin n ws => exact loadTable_ends hs fun _ _ => K.loadWin s n _ hs
  | build => exact absurd rfl hb
  | extend b n => exact whenReady_keeps hs fun _ => answer (K.extend_ends hs b _) fun _ _ h => h
  | poke b off v => exact whenReady_keeps hs fun _ => inRange_ends hs b _ (K.setBuf s b _ hs)
  | append b n v => exact whenReady_keeps hs fun _ => answer (K.append_ends hs b _ v) fun _ _ h => h
  | appendz b n => exact whenReady_keeps hs fun _ => answer (K.append_ends hs b _ _) fun _ _ h => h
  | discard b n => exact whenReady_keeps hs fun _ => answer (K.discard_ends hs b _) fun _ _ h => h
  | size b => exact whenReady_keeps hs fun _ => hs
  | peek b off => exact whenReady_keeps hs fun _ => inRange_ends hs b _ (K.peekRun_ends hs b _)
  | startidx b => exact whenReady_keeps hs fun _ => hs
  | endidx b => exact whenReady_keeps hs fun _ => hs
  | firrun =>
    refine whenReady_keeps hs fun _ => ?_
    split
    · exact answer (K.firRun_ends hs _) fun _ _ h => h
    · exact hs
  | intrun => exact whenReady_keeps hs fun _ => answer (K.intRun_ends hs _) fun _ _ h => h
  | olarun => exact absurd rfl ho
  | prime n => exact whenReady_keeps hs fun _ => answer (K.append_ends hs _ _ _) fun _ u h => K.primed u h
  | process n x => exact absurd rfl (hp n x)

end KeepsApart

/-! ## The accumulator and its cursor -/

theorem keepsApart_acc (m : Memory) (pos : Nat) : KeepsApart fun s => s.acc = m ∧ s.accPos = pos where
  setBuf s b q h := by simpa using h
  advance s n h := h
  primed s h := h
  writeCfg s r v h := by cases r <;> exact h
  loadHc s n ws h := h
  loadIc s n ws h := h
  loadWin s n ws h := h

/-- Settles O15: the runs of the other commands leave the accumulator and its cursor, and so does every end. -/
theorem onlyTheOverlapAdderMovesTheCursor : Obligations.OnlyTheOverlapAdderMovesTheCursor := by
  intro i s t he hb hr ho hp
  rw [exec_eq_finish] at he
  cases he
  exact finish_keeps (P := fun u => u.acc = s.acc ∧ u.accPos = s.accPos)
    ((keepsApart_acc s.acc s.accPos).body_ends ⟨rfl, rfl⟩ hb hr ho hp) (fun _ _ h => h) fun u t h => by simpa using h

/-! ## `ENG` -/

/-- `ENG` and the response stream are as in `s`: no run of a command but RESET and BUILD writes them. -/
def SameEngine (s u : State) : Prop := u.eng = s.eng ∧ u.resp = s.resp

theorem keepsApart_sameEngine (s : State) : KeepsApart (SameEngine s) where
  setBuf u b q h := by simpa [SameEngine] using h
  advance u n h := h
  primed u h := h
  writeCfg u r v h := by cases r <;> exact h
  loadHc u n ws h := h
  loadIc u n ws h := h
  loadWin u n ws h := h

theorem keepsRun_sameEngine (s : State) : KeepsRun (SameEngine s) where
  append _ _ _ _ h _ _ := (keepsApart_sameEngine s).setBuf _ _ _ h
  extend _ _ _ h _ _ := (keepsApart_sameEngine s).setBuf _ _ _ h
  poke _ _ _ _ h _ _ := (keepsApart_sameEngine s).setBuf _ _ _ h
  discard _ _ _ h _ _ := (keepsApart_sameEngine s).setBuf _ _ _ h
  ola _ _ h _ := h
  advance _ _ h _ := h
  primed _ h _ := h
  oversize _ h _ := h
  short _ _ h _ _ := h

theorem body_ends_sameEngine {i : Instr} {s : State} (hb : i ≠ .build) (hr : i ≠ .reset) :
    (body i s).Ends (SameEngine s) := by
  by_cases ho : i = .olarun
  · subst ho
    refine whenReady_keeps ⟨rfl, rfl⟩ fun h => ?_
    exact ((keepsRun_sameEngine s).olaRun_ends s.num ⟨⟨rfl, rfl⟩, h⟩).bind (fun _ _ h => h.1) fun _ h => h.1
  · by_cases hp : ∃ n x, i = .process n x
    · obtain ⟨n, x, rfl⟩ := hp
      refine whenReady_keeps ⟨rfl, rfl⟩ fun h => ?_
      exact ((keepsRun_sameEngine s).processRun_ends s.num ⟨⟨rfl, rfl⟩, h⟩ n.isLt x).mono fun _ h => h.1
    · exact (keepsApart_sameEngine s).body_ends ⟨rfl, rfl⟩ hb hr ho fun n x e => hp ⟨n, x, e⟩

/-- How a command's run ends: a fault in the engine state it began in, or an answer in that state, in UNCONFIGURED after
RESET, or in READY after BUILD in UNCONFIGURED (R27). -/
theorem body_cases (i : Instr) (s : State) :
    (∃ t u, body i s = .raised t u ∧ SameEngine s u) ∨
    (∃ a u, body i s = .done a u ∧ u.resp = s.resp ∧
      ((i ≠ .reset ∧ u.eng = s.eng) ∨ (i = .reset ∧ u.eng = .unconfigured) ∨
        (i = .build ∧ s.eng = .unconfigured ∧ u.eng = .ready))) := by
  by_cases hr : i = .reset
  · subst hr
    exact .inr ⟨_, _, rfl, rfl, .inr (.inl ⟨rfl, rfl⟩)⟩
  by_cases hb : i = .build
  · subst hb
    rw [body]
    by_cases hu : s.eng = .unconfigured
    · rw [whenUnconfigured_of_unconfigured _ _ hu]
      obtain ⟨b, k, -, h⟩ | ⟨-, h⟩ := buildRun_cases s.num s
      · exact .inl ⟨_, _, h, rfl, rfl⟩
      · exact .inr ⟨_, _, h, by simp, .inr (.inr ⟨rfl, hu, by simp⟩)⟩
    · exact .inl ⟨_, _, whenUnconfigured_of_ne _ _ hu, rfl, rfl⟩
  · have h := body_ends_sameEngine (s := s) hb hr
    cases hx : body i s with
    | done a u => rw [hx] at h; exact .inr ⟨a, u, rfl, h.2, .inl ⟨hr, h.1⟩⟩
    | raised t u => rw [hx] at h; exact .inl ⟨t, u, rfl, h⟩

/-- Settles O13: by how the run ends; a fault entered outside FAULTED latches the cause it answers. -/
theorem engineStateTransitions : Obligations.EngineStateTransitions := by
  intro i s t he
  rw [exec_eq_finish] at he
  cases he
  obtain ⟨trap, u, hx, heng, hresp⟩ | ⟨a, u, hx, hresp, heng⟩ := body_cases i s <;> rw [hx]
  · rw [finish_raised]
    refine ⟨fun hr => ?_, fun _ => .inr (.inl (State.takeFault_eng _ _ _)), fun ⟨_, hne⟩ => ⟨trap.cause, ?_, ?_⟩⟩
    · subst hr; cases hx
    · rw [State.takeFault_of_not_faulted _ _ _ (heng ▸ hne), State.emit_fault, State.latchFault_fault,
        faultCause_faultWord]
    · rw [State.takeFault_resp, hresp]
  · rw [finish_done, State.emit_eng]
    obtain ⟨hr, heng⟩ | ⟨rfl, heng⟩ | ⟨rfl, hu, heng⟩ := heng <;> rw [heng]
    · exact ⟨fun h => absurd h hr, fun _ => .inl rfl, fun ⟨hf, hne⟩ => absurd hf hne⟩
    · exact ⟨fun _ => rfl, fun h => absurd rfl h, fun ⟨hf, _⟩ => nomatch hf⟩
    · exact ⟨(nomatch ·), fun _ => .inr (.inr ⟨rfl, hu, rfl⟩), fun ⟨hf, _⟩ => nomatch hf⟩

end Sys2Proof.Machine
end

section
/-! BUILD of a legal configuration and RESET (R49, R50, R181, R188), and the invariants at reset (R231). -/

namespace Sys2Proof.Machine

/-- BUILD in UNCONFIGURED of a legal configuration (R188). -/
theorem exec_build_of_legal {s : State} (hu : s.eng = .unconfigured) (hl : ConfigLegal s) :
    exec .build s = .next ((built s.num s).emit [0x00000000]) := by
  rw [exec_eq_finish, body, whenUnconfigured_of_unconfigured _ _ hu, buildRun_of_legal hl, finish_done, okWord_zero]

/-- Priming starts at slot 0 with logical index 0 (R188). -/
theorem primedBuf_origin (num : Numerics) (s : State) (b : BufId) (n : Nat) :
    (primedBuf num s b n).bsi = 0 ∧ (primedBuf num s b n).ds = 0 := by
  rw [primedBuf, Buf.appended, Buf.bsi_fill, Buf.ds_fill, Buf.bsi_reserve, Buf.ds_reserve, Buf.makeRoom]
  split
  · exact ⟨by simp [Buf.compact], rfl⟩
  · exact ⟨rfl, rfl⟩

theorem buf_built_origin (num : Numerics) {s : State} (h : ConfigLegal s) (b : BufId) :
    ((built num s).buf b).bsi = 0 ∧ ((built num s).buf b).ds = 0 := by
  obtain hq | ⟨n, -, hq⟩ := buf_built_cases num h b <;> rw [hq]
  · exact ⟨rfl, rfl⟩
  · exact primedBuf_origin num s b n

theorem size_b1_built (num : Numerics) (s : State) :
    (built num s).size .b1 = if s.hpEn then s.LH - 1 else s.R - 1 := by
  rw [State.size, State.buf, built_buf1, primedBuf_size]

theorem size_b2_built (num : Numerics) (s : State) : (built num s).size .b2 = if s.hpEn then s.R - 1 else 0 := by
  rw [State.size, State.buf, built_buf2]
  split
  · exact primedBuf_size ..
  · rfl

/-- The histories BUILD primes are zeros, in buffers 1 and 2 alike (R112, R188). -/
theorem data?_built (num : Numerics) {s : State} (h : ConfigLegal s) (b : BufId) {k : Nat}
    (hk : k < (built num s).size b) : ((built num s).buf b).data? k = some num.fzero := by
  rw [State.size] at hk
  obtain hq | ⟨n, -, hq⟩ := buf_built_cases num h b <;> rw [hq] at hk ⊢
  · exact absurd hk (Nat.not_lt_zero k)
  · rw [primedBuf_size] at hk; exact primedBuf_data? num s b hk

theorem read_acc_built (num : Numerics) (s : State) {k : Nat} (hk : k < s.A) :
    (built num s).acc.read k = some num.fzero := by
  rw [built_acc, Memory.read_fill, List.length_replicate, if_pos ⟨Nat.zero_le k, by omega⟩, Nat.sub_zero,
    List.getElem?_replicate, if_pos hk]

/-- Settles O23: BUILD answers from the state `built`, whose fields are read off one by one. -/
theorem buildConstructsTheEngine : Obligations.BuildConstructsTheEngine := by
  intro s hu hl hcan
  obtain ⟨-, hhc, hhr, hic, hir, -, -⟩ := hcan
  refine ⟨_, exec_build_of_legal hu hl, built_eng _ _, fun b => ?_, ?_, ?_, ?_, ?_, fun k hk => ?_, fun k hk => ?_,
    built_accPos _ _, fun k hk => read_acc_built s.num s hk, fun k hk => TablesKept.read_ir_built s.num hir hic hk,
    fun hp k hk => TablesKept.read_hr_built s.num hhr hhc hp hk, built_primed _ _, built_oversize _ _, built_short _ _,
    built_shortfall _ _, ?_, ?_⟩
  · rw [State.buf_emit]; exact ⟨cap_built _ hl b, buf_built_origin _ hl b⟩
  · rw [size_emit, State.size, State.buf, built_buf0, sizedBuf_size]
  · rw [size_emit, State.size, State.buf, built_buf3, sizedBuf_size]
  · rw [size_emit, size_b1_built]
  · rw [size_emit, size_b2_built]
  · exact data?_built s.num hl .b1 hk
  · exact data?_built s.num hl .b2 hk
  · rw [State.emit_resp, built_resp]
  · exact congrArg (fun u : State => { u with resp := s.resp }) (built_frame s.num s)

/-! ## RESET -/

/-- Settles O16: RESET answers from the reset state, in which every field is read off. -/
theorem resetCommandGivesTheResetState : Obligations.ResetCommandGivesTheResetState := by
  refine ⟨by decide, fun s => ?_, rfl, readCfg_toReset State.reset, rfl, fun b => ?_, fun k => ?_⟩
  · rw [exec_eq_finish, body, finish_respond, okWord_zero]
    rfl
  · rw [State.buf_reset]; exact ⟨rfl, rfl, rfl, rfl⟩
  · exact ⟨fun b => by rw [State.buf_reset]; rfl, rfl, rfl, rfl, rfl, rfl, rfl⟩

/-- Settles O53: each invariant holds after any reset; the parameters there are those R10 suggests. -/
theorem resetMeetsTheInvariants : Obligations.ResetMeetsTheInvariants := by
  refine ⟨reset_memories_wf, SoundBuffers.toReset State.reset, ReservedBitsZero.toReset State.reset,
    FaultLatch.toReset State.reset, ReadySound.of_unconfigured rfl, (TablesKept.toReset State.reset).tables,
    LengthsFit.toReset State.reset, (RamBounds.toReset State.reset).within, fun _ => ⟨rfl, rfl, rfl, rfl, rfl⟩, ?_⟩
  refine ⟨by decide, fun b => ?_, Nat.two_pow_pos 24⟩
  rw [State.buf_reset]
  exact ⟨Nat.two_pow_pos 24, Nat.two_pow_pos 24, Nat.two_pow_pos 24⟩

end Sys2Proof.Machine
end

section
/-! The canonical form of the memories (R60, log entry 9): every operation that writes a memory keeps its indices
strictly rising, so every step does. -/

namespace Sys2Proof.Machine

/-! ## The store of a buffer -/

theorem Buf.wf_makeRoom {q : Buf} (h : q.store.wf) (n : Nat) : (q.makeRoom n).store.wf := by
  unfold Buf.makeRoom
  split
  · exact Memory.wf_shiftDown h _ _
  · exact h

theorem Buf.wf_extended {q : Buf} (h : q.store.wf) (n : Nat) : ((q.makeRoom n).reserve n).store.wf :=
  Memory.wf_forget (Buf.wf_makeRoom h n) _ _

theorem Buf.wf_fill {q : Buf} (h : q.store.wf) (p : Nat) (ws : List Word) : (q.fill p ws).store.wf :=
  Memory.wf_fill h p ws

theorem Buf.wf_appended {q : Buf} (h : q.store.wf) (n : Nat) (v : List Word) : (q.appended n v).store.wf :=
  Buf.wf_fill (Buf.wf_extended h n) _ _

/-- BUILD keeps the store of a buffer or primes it by an append (R188). -/
theorem wf_built (num : Numerics) {s : State} (hl : ConfigLegal s) {b : BufId} (h : (s.buf b).store.wf) :
    ((built num s).buf b).store.wf := by
  have hsized : (sizedBuf s b).store.wf := by rw [sizedBuf_store]; exact h
  obtain hq | ⟨n, -, hq⟩ := buf_built_cases num hl b <;> rw [hq]
  · exact hsized
  · exact Buf.wf_appended hsized n _

/-! ## The accumulator -/

/-- The window loop only writes words to the accumulator; unlike `olaWindows_keeps` this asks nothing of its length. -/
theorem olaWindows_wf (num : Numerics) (s : State) {o : Ola} (ho : o.acc.wf) (wc : Nat) :
    (olaWindows num s o wc).2.acc.wf := by
  induction wc with
  | zero => exact ho
  | succ wc ih =>
    refine List.foldlRecOn (motive := fun o : Ola => o.acc.wf) _ _
      (List.foldlRecOn (motive := fun o : Ola => o.acc.wf) _ _ ih ?_) ?_ <;>
    exact fun _ h _ _ => Memory.wf_write h _ _

/-! ## The invariant -/

namespace CanonicalMemories

/-- The buffers and the accumulator are all that a change which keeps the configuration can write. -/
theorem of_configuration {s t : State} (h : CanonicalMemories s) (hc : SameConfiguration s t)
    (hbufs : ∀ b, (t.buf b).store.wf) (hacc : t.acc.wf) : CanonicalMemories t := by
  obtain ⟨-, hhc, hhr, hic, hir, hwin, -⟩ := h
  obtain ⟨-, -, ehc, ehr, eic, eir, ewin⟩ := hc
  rw [CanonicalMemories, ehc, ehr, eic, eir, ewin]
  exact ⟨hbufs, hhc, hhr, hic, hir, hwin, hacc⟩

theorem store {s : State} (h : CanonicalMemories s) (b : BufId) : (s.buf b).store.wf := by
  obtain ⟨hbufs, -⟩ := h
  exact hbufs b

theorem acc {s : State} (h : CanonicalMemories s) : s.acc.wf := by
  obtain ⟨-, -, -, -, -, -, hacc⟩ := h
  exact hacc

theorem setBuf {s : State} (h : CanonicalMemories s) (b : BufId) {q : Buf} (hq : q.store.wf) :
    CanonicalMemories (s.setBuf b q) := by
  refine h.of_configuration (sameConfiguration_setBuf s b q) (fun b' => ?_) (by rw [State.setBuf_acc]; exact h.acc)
  rw [State.buf_setBuf]
  split
  · exact hq
  · exact h.store b'

theorem olaUpdate {s : State} (num : Numerics) (h : CanonicalMemories s) : CanonicalMemories (olaUpdate num s) := by
  refine h.of_configuration (sameConfiguration_update s ..) (fun b => ?_) (olaWindows_wf num s h.acc (olaCount s))
  rw [buf_olaUpdate]; exact h.store b

theorem takeFault {s : State} (h : CanonicalMemories s) (op : BitVec 6) (t : Trap) :
    CanonicalMemories (s.takeFault op t) :=
  h.of_configuration (sameConfiguration_takeFault s op t) (fun b => by simpa using h.store b) (by simpa using h.acc)

theorem toReset (s : State) : CanonicalMemories s.toReset := reset_memories_wf

theorem writeCfg {s : State} (h : CanonicalMemories s) (r : CfgReg) (v : Word) :
    CanonicalMemories (s.writeCfg r v) := by
  cases r <;> exact h

section
variable {s : State} (h : CanonicalMemories s) (n : BitVec 24) (ws : List Word)
include h

theorem loadHc : CanonicalMemories (s.loadHc n ws) := by
  obtain ⟨hbufs, hhc, hrest⟩ := h
  exact ⟨hbufs, Memory.wf_fill hhc 0 ws, hrest⟩

theorem loadIc : CanonicalMemories (s.loadIc n ws) := by
  obtain ⟨hbufs, hhc, hhr, hic, hrest⟩ := h
  exact ⟨hbufs, hhc, hhr, Memory.wf_fill hic 0 ws, hrest⟩

theorem loadWin : CanonicalMemories (s.loadWin n ws) := by
  obtain ⟨hbufs, hhc, hhr, hic, hir, hwin, hacc⟩ := h
  exact ⟨hbufs, hhc, hhr, hic, hir, Memory.wf_fill hwin 0 ws, hacc⟩

end

/-- BUILD writes the buffers, the reversed caches and the accumulator (R188). -/
theorem built {s : State} (num : Numerics) (h : CanonicalMemories s) (hl : ConfigLegal s) :
    CanonicalMemories (built num s) := by
  obtain ⟨hbufs, hhc, hhr, hic, hir, hwin, hacc⟩ := h
  rw [CanonicalMemories, built_hc, built_hr, built_ic, built_ir, built_win, built_acc]
  refine ⟨fun b => wf_built num hl (hbufs b), hhc, ?_, hic, Memory.wf_reverseInto hir hic _, hwin,
    Memory.wf_fill hacc _ _⟩
  split
  · exact Memory.wf_reverseInto hhr hhc _
  · exact hhr

theorem keepsStep : KeepsStep CanonicalMemories where
  append _ b n v h _ _ := h.setBuf b (Buf.wf_appended (h.store b) n v)
  extend _ b n h _ _ := h.setBuf b (Buf.wf_extended (h.store b) n)
  poke _ b _ v h _ _ := h.setBuf b (Buf.wf_fill (h.store b) _ [v])
  discard _ b _ h _ _ := h.setBuf b (h.store b)
  ola num _ h _ := h.olaUpdate num
  advance _ _ h _ := h
  primed _ h _ := h
  oversize _ h _ := h
  short _ _ h _ _ := h
  emit _ _ h := h
  fault _ op t h := h.takeFault op t
  toReset s _ := toReset s
  writeCfg _ r v h _ := h.writeCfg r v
  loadHc _ n ws h _ _ _ := h.loadHc n ws
  loadIc _ n ws h _ _ _ := h.loadIc n ws
  loadWin _ n ws h _ _ _ := h.loadWin n ws
  built num _ h _ hl := h.built num hl
  port _ _ h := h
  resetIdle _ h := h

end CanonicalMemories

/-- Settles O44: each memory operation keeps the indices strictly rising, and a step changes memories by these only. -/
theorem stepKeepsMemoriesCanonical : Obligations.StepKeepsMemoriesCanonical := fun _ _ hs h =>
  CanonicalMemories.keepsStep.step_keeps hs h

end Sys2Proof.Machine
end

section
/-! Decoding and encoding are inverse to each other on well-formed commands (R80 to R85, R88, R91). -/

namespace Sys2Proof

/-! ## The formats on a written command word (R81, R82) -/

@[simp] theorem formZ_cmdWord (op : BitVec 6) (i : Instr) : formZ (cmdWord op 0#2 0#24) i = .ok i := by simp [formZ]

@[simp] theorem formB_cmdWord (op : BitVec 6) (b : BufId) (k : BufId → Instr) :
    formB (cmdWord op b.bits 0#24) k = .ok (k b) := by
  simp [formB]

@[simp] theorem formBI_cmdWord (op : BitVec 6) (b : BufId) (n : BitVec 24) (k : BufId → BitVec 24 → Instr) :
    formBI (cmdWord op b.bits n) k = .ok (k b n) := by
  simp [formBI]

@[simp] theorem formI_cmdWord (op : BitVec 6) (n : BitVec 24) (k : BitVec 24 → Instr) :
    formI (cmdWord op 0#2 n) k = .ok (k n) := by
  simp [formI]

@[simp] theorem formR_cmdWord (op : BitVec 6) (r : CfgReg) (k : CfgReg → Instr) :
    formR (cmdWord op 0#2 (0#20 ++ r.bits)) k = .ok (k r) := by
  simp [formR]

/-- The decoder reads a command's own word and payload as that command, whatever the payload's length: the opcode field
selects the command's arm, and its format reads the operands back. -/
theorem decodeFrame_commandWord (i : Instr) : decodeFrame i.commandWord i.payload = .ok i := by
  cases i <;> simp [Instr.commandWord, Instr.payload, decodeFrame]

theorem Instr.payload_length {i : Instr} (h : i.wellFormed = true) : i.payload.length = plen i.commandWord := by
  cases i with
  | nop => exact Laws.PayloadLength.nop h
  | reset => exact Laws.PayloadLength.reset h
  | setcfg r v => exact Laws.PayloadLength.setcfg r v h
  | getcfg r => exact Laws.PayloadLength.getcfg r h
  | ldhp n ws => exact Laws.PayloadLength.ldhp n ws h
  | ldip n ws => exact Laws.PayloadLength.ldip n ws h
  | ldwin n ws => exact Laws.PayloadLength.ldwin n ws h
  | build => exact Laws.PayloadLength.build h
  | extend b n => exact Laws.PayloadLength.extend b n h
  | poke b off v => exact Laws.PayloadLength.poke b off v h
  | append b n v => exact Laws.PayloadLength.append b n v h
  | appendz b n => exact Laws.PayloadLength.appendz b n h
  | discard b n => exact Laws.PayloadLength.discard b n h
  | size b => exact Laws.PayloadLength.size b h
  | peek b off => exact Laws.PayloadLength.peek b off h
  | startidx b => exact Laws.PayloadLength.startidx b h
  | endidx b => exact Laws.PayloadLength.endidx b h
  | firrun => exact Laws.PayloadLength.firrun h
  | intrun => exact Laws.PayloadLength.intrun h
  | olarun => exact Laws.PayloadLength.olarun h
  | prime n => exact Laws.PayloadLength.prime n h
  | process n x => exact Laws.PayloadLength.process n x h

/-- Settles O1: the framing takes exactly the payload, and the decoder reads the command's own word and payload back. -/
theorem decodeOfEncodeGivesTheCommand : Obligations.DecodeOfEncodeGivesTheCommand := fun i rest h =>
  decode_of_frame (frame_cons_append i.commandWord i.payload rest (Instr.payload_length h)) (decodeFrame_commandWord i)

/-! ## The command word of a format that decodes (R82, R84) -/

section
variable {cw : Word} {op : BitVec 6} (hop : (opOf cw).toNat = op.toNat) {j : Instr}
include hop

theorem cmdWord_opcode : cmdWord op (bOf cw) (immOf cw) = cw := by
  rw [← BitVec.eq_of_toNat_eq hop, cmdWord_fields]

theorem cmdWord_of_formZ {i : Instr} (h : formZ cw i = .ok j) : cmdWord op 0 0 = cw := by
  rw [formZ] at h
  split at h
  next hz =>
    obtain ⟨hb, himm⟩ := hz
    rw [← hb, ← himm, cmdWord_opcode hop]
  next => cases h

theorem cmdWord_of_formB {k : BufId → Instr} (h : formB cw k = .ok j) :
    cmdWord op (BufId.ofBits (bOf cw)).bits 0 = cw := by
  rw [formB] at h
  split at h
  next hz => rw [BufId.bits_ofBits, ← hz, cmdWord_opcode hop]
  next => cases h

theorem cmdWord_of_formBI : cmdWord op (BufId.ofBits (bOf cw)).bits (immOf cw) = cw := by
  rw [BufId.bits_ofBits, cmdWord_opcode hop]

theorem cmdWord_of_formI {k : BitVec 24 → Instr} (h : formI cw k = .ok j) : cmdWord op 0 (immOf cw) = cw := by
  rw [formI] at h
  split at h
  next hz => rw [← hz, cmdWord_opcode hop]
  next => cases h

theorem cmdWord_of_formR {k : CfgReg → Instr} (h : formR cw k = .ok j) :
    cmdWord op 0 (0#20 ++ (CfgReg.ofBits (rOf cw)).bits) = cw := by
  rw [formR] at h
  split at h
  next hz =>
    obtain ⟨hb, hr⟩ := hz
    rw [CfgReg.bits_ofBits, ← show rHighOf cw = 0#20 from hr, ← immOf_eq_rHighOf_append_rOf, ← hb,
      cmdWord_opcode hop]
  next => cases h

end

/-- A framed word that decodes is the word of its command, and the payload is the command's. -/
theorem decodeFrame_ok {cw : Word} {payload : List Word} {i : Instr} (hlen : payload.length = plen cw)
    (h : decodeFrame cw payload = .ok i) : i.commandWord = cw ∧ i.payload = payload := by
  have nil (h0 : plen cw = 0) : [] = payload := (List.eq_nil_of_length_eq_zero (hlen.trans h0)).symm
  unfold decodeFrame at h
  split at h
  case h_1 hop | h_2 hop | h_8 hop | h_18 hop | h_19 hop | h_20 hop =>
    rw [formZ_ok h]; exact ⟨cmdWord_of_formZ hop h, nil (by simp [plen, hop])⟩
  case h_3 hop =>
    split at h
    · rw [formR_ok h]; exact ⟨cmdWord_of_formR hop h, rfl⟩
    · cases h
  case h_4 hop => rw [formR_ok h]; exact ⟨cmdWord_of_formR hop h, nil (by simp [plen, hop])⟩
  case h_5 hop | h_6 hop | h_7 hop | h_22 hop => rw [formI_ok h]; exact ⟨cmdWord_of_formI hop h, rfl⟩
  case h_21 hop => rw [formI_ok h]; exact ⟨cmdWord_of_formI hop h, nil (by simp [plen, hop])⟩
  case h_10 hop =>
    split at h
    · rw [formBI_ok h]; exact ⟨cmdWord_of_formBI hop, rfl⟩
    · cases h
  case h_11 hop => rw [formBI_ok h]; exact ⟨cmdWord_of_formBI hop, rfl⟩
  case h_9 hop | h_12 hop | h_13 hop | h_15 hop =>
    rw [formBI_ok h]; exact ⟨cmdWord_of_formBI hop, nil (by simp [plen, hop])⟩
  case h_14 hop | h_16 hop | h_17 hop =>
    rw [formB_ok h]; exact ⟨cmdWord_of_formB hop h, nil (by simp [plen, hop])⟩
  case h_23 => cases h

/-- Settles O2: the frame is the stream cut in three, and its word and payload are those of the decoded command. -/
theorem decodedWordsAreTheEncoding : Obligations.DecodedWordsAreTheEncoding := by
  intro ws rest i h
  obtain ⟨f, hf, hi, rfl⟩ := decode_ok h
  obtain ⟨hws, hlen⟩ := frame_ok hf
  obtain ⟨hcw, hpayload⟩ := decodeFrame_ok hlen hi
  refine ⟨decodeFrame_wellFormed hlen hi, ?_⟩
  rw [hws, encode, hcw, hpayload, List.cons_append]

/-- Settles O4: each word's opcode selects its command, and its fields are the operands. -/
theorem writtenOutWordsDecode : Obligations.WrittenOutWordsDecode :=
  ⟨rfl, rfl, rfl, rfl, rfl, rfl, rfl, rfl, rfl, rfl⟩

end Sys2Proof
end

section
/-! The opcode table decides which words are legal (R82, R84, R85, R89). -/

namespace Sys2Proof

/-! ## The formats (R81, R82) -/

/-- The five formats of a command word (R81). -/
inductive WordFormat where
  | z | b | bi | i | r

/-- The bits a format fixes: the opcode, and those it requires to be zero (R82). -/
def WordFormat.mask : WordFormat → Word
  | .z => 0xFFFFFFFF
  | .b => 0xFCFFFFFF
  | .bi => 0xFC000000
  | .i => 0xFF000000
  | .r => 0xFFFFFFF0

/-- The fields a format requires to be zero are zero (R84). -/
def WordFormat.zeros (cw : Word) : WordFormat → Prop
  | .z => bOf cw = 0 ∧ immOf cw = 0
  | .b => immOf cw = 0
  | .bi => True
  | .i => bOf cw = 0
  | .r => bOf cw = 0 ∧ rHighOf cw = 0

/-- The format of an assigned opcode (R85). -/
def formatOf : Nat → Option WordFormat
  | 0x00 | 0x01 | 0x07 | 0x20 | 0x21 | 0x22 => some .z
  | 0x02 | 0x03 => some .r
  | 0x04 | 0x05 | 0x06 | 0x30 | 0x31 => some .i
  | 0x10 | 0x11 | 0x12 | 0x13 | 0x14 | 0x16 => some .bi
  | 0x15 | 0x17 | 0x18 => some .b
  | _ => none

theorem cmdWord_and (op op' : BitVec 6) (b b' : BitVec 2) (imm imm' : BitVec 24) :
    cmdWord op b imm &&& cmdWord op' b' imm' = cmdWord (op &&& op') (b &&& b') (imm &&& imm') := by
  rw [cmdWord, cmdWord, cmdWord, BitVec.and_append, BitVec.and_append]

theorem cmdWord_inj {op op' : BitVec 6} {b b' : BitVec 2} {imm imm' : BitVec 24} :
    cmdWord op b imm = cmdWord op' b' imm' ↔ op = op' ∧ b = b' ∧ imm = imm' := by
  refine ⟨fun h => ⟨?_, ?_, ?_⟩, fun ⟨ho, hb, hi⟩ => by rw [ho, hb, hi]⟩
  · simpa using congrArg opOf h
  · simpa using congrArg bOf h
  · simpa using congrArg immOf h

/-- Format R fixes the high part of the immediate. -/
theorem immOf_and_eq_zero_iff (cw : Word) : immOf cw &&& 0xFFFFF0 = 0 ↔ rHighOf cw = 0 := by
  have hmask : (0xFFFFF0 : BitVec 24) = BitVec.allOnes 20 ++ 0#4 := by decide
  have hzero : (0 : BitVec 24) = 0#20 ++ 0#4 := by decide
  rw [immOf_eq_rHighOf_append_rOf, hmask, hzero, BitVec.and_append, BitVec.and_allOnes, BitVec.and_zero,
    BitVec.append_left_inj]
  rfl

/-- A word agrees with a bare opcode on the bits a format fixes when it has the opcode and the fields required zero. -/
theorem WordFormat.and_mask_eq_iff (f : WordFormat) (cw : Word) (op : BitVec 6) :
    cw &&& f.mask = cmdWord op 0 0 ↔ opOf cw = op ∧ f.zeros cw := by
  have key {b : BitVec 2} {imm : BitVec 24} (hm : f.mask = cmdWord (BitVec.allOnes 6) b imm) :
      cw &&& f.mask = cmdWord op 0 0 ↔ opOf cw = op ∧ bOf cw &&& b = 0 ∧ immOf cw &&& imm = 0 := by
    rw [hm, ← cmdWord_inj]
    nth_rw 1 [← cmdWord_fields cw]
    rw [cmdWord_and, BitVec.and_allOnes]
  cases f with
  | z =>
    rw [key (b := BitVec.allOnes 2) (imm := BitVec.allOnes 24) (by decide), BitVec.and_allOnes, BitVec.and_allOnes,
      zeros]
  | b =>
    rw [key (b := 0) (imm := BitVec.allOnes 24) (by decide), BitVec.and_allOnes]
    simp [zeros]
  | bi =>
    rw [key (b := 0) (imm := 0) (by decide)]
    simp [zeros]
  | i =>
    rw [key (b := BitVec.allOnes 2) (imm := 0) (by decide), BitVec.and_allOnes]
    simp [zeros]
  | r =>
    rw [key (b := BitVec.allOnes 2) (imm := 0xFFFFF0) (by decide), BitVec.and_allOnes, immOf_and_eq_zero_iff, zeros]

/-! ## The decoder and the formats -/

theorem ite_isOk {c : Prop} [Decidable c] (i : Instr) (e : Reject) :
    (∃ j, (if c then .ok i else .error e : Except Reject Instr) = .ok j) ↔ c := by
  split
  case isTrue h => exact ⟨fun _ => h, fun _ => ⟨i, rfl⟩⟩
  case isFalse h => exact ⟨fun ⟨_, hj⟩ => (nomatch hj), fun hc => absurd hc h⟩

theorem formZ_isOk (cw : Word) (i : Instr) : (∃ j, formZ cw i = .ok j) ↔ WordFormat.z.zeros cw := ite_isOk ..

theorem formB_isOk (cw : Word) (k : BufId → Instr) : (∃ j, formB cw k = .ok j) ↔ WordFormat.b.zeros cw := ite_isOk ..

theorem formBI_isOk (cw : Word) (k : BufId → BitVec 24 → Instr) :
    (∃ j, formBI cw k = .ok j) ↔ WordFormat.bi.zeros cw :=
  ⟨fun _ => trivial, fun _ => ⟨_, rfl⟩⟩

theorem formI_isOk (cw : Word) (k : BitVec 24 → Instr) : (∃ j, formI cw k = .ok j) ↔ WordFormat.i.zeros cw :=
  ite_isOk ..

theorem formR_isOk (cw : Word) (k : CfgReg → Instr) : (∃ j, formR cw k = .ok j) ↔ WordFormat.r.zeros cw := ite_isOk ..

/-- The word is legal: its opcode is assigned, and the fields its format requires to be zero are zero (R84, R89). -/
def LegalWord (cw : Word) : Prop := ∃ f, formatOf (opOf cw).toNat = some f ∧ f.zeros cw

theorem decodeFrame_isOk {cw : Word} {payload : List Word} (hlen : payload.length = plen cw) :
    (∃ i, decodeFrame cw payload = .ok i) ↔ LegalWord cw := by
  have fmt {n : Nat} {f : WordFormat} (hop : (opOf cw).toNat = n) (hf : formatOf n = some f) :
      LegalWord cw ↔ f.zeros cw := by
    rw [LegalWord, hop, hf]; simp
  have one (h1 : plen cw = 1) : ∃ v, payload = [v] := List.length_eq_one_iff.1 (hlen.trans h1)
  unfold decodeFrame
  split
  case h_1 hop | h_2 hop | h_8 hop | h_18 hop | h_19 hop | h_20 hop => rw [fmt hop rfl, formZ_isOk]
  case h_3 hop =>
    obtain ⟨v, rfl⟩ := one (by simp [plen, hop])
    rw [fmt hop rfl, formR_isOk]
  case h_4 hop => rw [fmt hop rfl, formR_isOk]
  case h_5 hop | h_6 hop | h_7 hop | h_21 hop | h_22 hop => rw [fmt hop rfl, formI_isOk]
  case h_10 hop =>
    obtain ⟨v, rfl⟩ := one (by simp [plen, hop])
    rw [fmt hop rfl, formBI_isOk]
  case h_9 hop | h_11 hop | h_12 hop | h_13 hop | h_15 hop => rw [fmt hop rfl, formBI_isOk]
  case h_14 hop | h_16 hop | h_17 hop => rw [fmt hop rfl, formB_isOk]
  case h_23 => simp [LegalWord, formatOf, *]

/-! ## The table -/

/-- Every row fixes an assigned opcode and the bits of its format. -/
theorem row_format : ∀ row ∈ opcodeTable,
    row.word = cmdWord (opOf row.word) 0 0 ∧
      (formatOf (opOf row.word).toNat).map WordFormat.mask = some row.mask := by
  decide

/-- Every assigned opcode has its row. -/
theorem row_of_format : ∀ op : BitVec 6, ∀ f ∈ formatOf op.toNat,
    ∃ row ∈ opcodeTable, row.word = cmdWord op 0 0 := by
  decide

/-- No two rows have the same opcode. -/
theorem opcodes_nodup : (opcodeTable.map fun row => opOf row.word).Nodup := by decide

/-- What it takes to select a row: its opcode, in a legal word. -/
theorem selects_iff {row : OpcodeRow} (hrow : row ∈ opcodeTable) (cw : Word) :
    row.selects cw = true ↔ opOf cw = opOf row.word ∧ LegalWord cw := by
  obtain ⟨hword, hformat⟩ := row_format row hrow
  obtain ⟨f, hf, hmask⟩ := Option.map_eq_some_iff.1 hformat
  have hzeros (ho : opOf cw = opOf row.word) : f.zeros cw ↔ LegalWord cw := by rw [LegalWord, ho, hf]; simp
  calc row.selects cw = true
    _ ↔ cw &&& f.mask = cmdWord (opOf row.word) 0 0 := by rw [OpcodeRow.selects, beq_iff_eq, hmask, ← hword]
    _ ↔ opOf cw = opOf row.word ∧ f.zeros cw := f.and_mask_eq_iff cw _
    _ ↔ opOf cw = opOf row.word ∧ LegalWord cw := and_congr_right hzeros

/-- A word is legal exactly when a row matches it. -/
theorem legal_iff_selected (cw : Word) : LegalWord cw ↔ ∃ row ∈ opcodeTable, row.selects cw = true := by
  constructor
  · intro hlegal
    obtain ⟨f, hf, -⟩ := id hlegal
    obtain ⟨row, hrow, hword⟩ := row_of_format (opOf cw) f hf
    exact ⟨row, hrow, (selects_iff hrow cw).2 ⟨by rw [hword, opOf_cmdWord], hlegal⟩⟩
  · rintro ⟨row, hrow, h⟩
    exact ((selects_iff hrow cw).1 h).2

/-- A filter keeps at most one element when all it keeps agree on a key that no two elements share. -/
theorem length_filter_le_one {α β : Type} {l : List α} {key : α → β} {p : α → Bool} {c : β}
    (hl : (l.map key).Nodup) (hp : ∀ x ∈ l, p x = true → key x = c) : (l.filter p).length ≤ 1 := by
  have hkeys : (l.filter p).map key = List.replicate (l.filter p).length c := by
    refine List.eq_replicate_iff.2 ⟨List.length_map .., fun k hk => ?_⟩
    obtain ⟨x, hx, rfl⟩ := List.mem_map.1 hk
    obtain ⟨hmem, hpx⟩ := List.mem_filter.1 hx
    exact hp x hmem hpx
  have hnodup : ((l.filter p).map key).Nodup := hl.sublist (List.filter_sublist.map key)
  rw [hkeys] at hnodup
  exact List.nodup_replicate.1 hnodup

/-- Settles O3: a row fixes an opcode of its own and the zero fields of its format, which is what the decoder checks. -/
theorem opcodeTableDecidesLegality : Obligations.OpcodeTableDecidesLegality :=
  ⟨fun cw => length_filter_le_one opcodes_nodup fun _ hrow hsel => ((selects_iff hrow cw).1 hsel).1.symm,
    fun cw _ hlen => (decodeFrame_isOk hlen).trans (legal_iff_selected cw)⟩

end Sys2Proof
end

section
/-! A step with the reset input idle: the command that waits, an illegal word, or no whole command (R89, R95,
R203, U9). -/

namespace Sys2Proof.Machine

/-! ## The step by what the port offers -/

section
variable {s : State} (hidle : s.resetIn = .idle)
include hidle

theorem step_of_fetch_command {i : Instr} {t : State} (h : fetch s = .command i t) : step s = exec i t := by
  rw [step, hidle]
  simp only [h]

theorem step_of_fetch_illegal {cw : Word} {t : State} (h : fetch s = .illegal cw t) :
    step s = .next (answerIllegal cw t) := by
  rw [step, hidle]
  simp only [h]

theorem step_of_command {f : Frame} {i : Instr} (hf : frame s.port = .ok f)
    (hi : decodeFrame f.cw f.payload = .ok i) : step s = exec i { s with port := f.rest } :=
  step_of_fetch_command hidle (by simp only [fetch, hf, hi])

theorem step_of_illegal {f : Frame} {e : Reject} (hf : frame s.port = .ok f)
    (he : decodeFrame f.cw f.payload = .error e) : step s = .next (answerIllegal f.cw { s with port := f.rest }) :=
  step_of_fetch_illegal hidle (by simp only [fetch, hf, he])

theorem step_of_empty (hf : frame s.port = .error .emptyStream) : step s = .fault .portEmpty := by
  rw [step, hidle]
  simp only [fetch, hf]

theorem step_of_truncated (hf : frame s.port = .error .truncatedPayload) : step s = .fault .portTruncated := by
  rw [step, hidle]
  simp only [fetch, hf]

end

/-- Settles O5: the frame that decodes is the one the step takes. -/
theorem stepRunsTheDecodedCommand : Obligations.StepRunsTheDecodedCommand := by
  intro s i rest hidle h
  obtain ⟨f, hf, hi, rfl⟩ := decode_ok h
  exact step_of_command hidle hf hi

/-- Settles O7: an empty port and a port that ends inside a payload give no frame. -/
theorem noStepWithoutAWholeCommand : Obligations.NoStepWithoutAWholeCommand := by
  constructor
  · intro s hidle hport
    exact step_of_empty hidle (by rw [hport, frame])
  · intro s cw ws hidle hport hshort
    exact step_of_truncated hidle (by rw [hport, frame_cons_of_short cw ws hshort])

/-! ## Illegal words (R89, R203, R211) -/

/-- A framed word that no row matches is rejected (R85). -/
theorem decodeFrame_of_unselected {cw : Word} {payload : List Word} (hlen : payload.length = plen cw)
    (hrows : ∀ row ∈ opcodeTable, row.selects cw = false) : ∃ e, decodeFrame cw payload = .error e := by
  cases h : decodeFrame cw payload with
  | error e => exact ⟨e, rfl⟩
  | ok i =>
    obtain ⟨row, hrow, hsel⟩ := (legal_iff_selected cw).1 ((decodeFrame_isOk hlen).1 ⟨i, h⟩)
    rw [hrows row hrow] at hsel
    cases hsel

theorem errWord_illegal : errWord .illegal = 0x83000000 := by decide

theorem answerIllegal_of_not_faulted (cw : Word) {s : State} (h : s.eng ≠ .faulted) :
    answerIllegal cw s = (s.latchFault (faultWord (opOf cw) 0 .illegal) cw).emit [0x83000000] := by
  rw [answerIllegal, State.takeFault_of_not_faulted _ _ _ h, errWord_illegal, BitVec.ofNat_toNat, BitVec.setWidth_eq]
  rfl

theorem answerIllegal_of_faulted (cw : Word) {s : State} (h : s.eng = .faulted) :
    answerIllegal cw s = s.emit [0x83000000] := by
  rw [answerIllegal, State.takeFault_of_faulted _ _ _ h, errWord_illegal]

/-- Settles O6: the word is framed with its payload, no row makes it a command, and outside FAULTED only the
answer enters a fault. -/
theorem illegalWordTakesTheIllegalFault : Obligations.IllegalWordTakesTheIllegalFault := by
  intro s cw payload rest hidle hport hlen hrows
  obtain ⟨e, he⟩ := decodeFrame_of_unselected hlen hrows
  have hframe : frame s.port = .ok { cw, payload, rest } := by rw [hport, frame_cons_append cw payload rest hlen]
  have hstep : step s = .next (answerIllegal cw { s with port := rest }) := step_of_illegal hidle hframe he
  rw [hstep]
  constructor
  · intro heng
    rw [answerIllegal_of_not_faulted cw (s := { s with port := rest }) heng]
    rfl
  · intro heng
    rw [answerIllegal_of_faulted cw (s := { s with port := rest }) heng]
    rfl

end Sys2Proof.Machine
end

section
/-! Every command adds exactly one response, with the data words R87 gives it (R86, R87). -/

namespace Sys2Proof.Machine

/-! ## The data words of a run -/

/-- If the run completes, it answers with `k` data words. -/
def Run.Answers (k : Nat) : Run Answer → Prop
  | .done a _ => a.data.length = k
  | .raised _ _ => True

theorem respond_answers (result : Nat) (s : State) : (respond result s).Answers 0 := rfl

theorem Run.Answers.bind {α : Type} {k : Nat} {x : Run α} {f : α → State → Run Answer}
    (h : ∀ a s, (f a s).Answers k) : (x.bind f).Answers k := by
  cases x with
  | done a s => exact h a s
  | raised t s => trivial

theorem ite_answers {k : Nat} {c : Prop} [Decidable c] {x y : Run Answer} (hx : x.Answers k) (hy : y.Answers k) :
    (if c then x else y).Answers k := by
  split
  · exact hx
  · exact hy

theorem whenReady_answers {k : Nat} (s : State) {x : Run Answer} (hx : x.Answers k) : (whenReady s x).Answers k := by
  rw [whenReady]
  split
  · exact hx
  · trivial

theorem whenUnconfigured_answers {k : Nat} (info : Nat) (s : State) {x : Run Answer} (hx : x.Answers k) :
    (whenUnconfigured info s x).Answers k := by
  rw [whenUnconfigured]
  split
  · exact hx
  · trivial

theorem inRange_answers {k : Nat} (s : State) (b : BufId) (off : Nat) {x : Run Answer} (hx : x.Answers k) :
    (inRange s b off x).Answers k := ite_answers trivial hx

theorem loadTable_answers (n : BitVec 24) (words : Nat) (s s' : State) : (loadTable n words s s').Answers 0 :=
  whenUnconfigured_answers _ s (ite_answers trivial (respond_answers 0 s'))

theorem buildRun_answers (num : Numerics) (s : State) : (buildRun num s).Answers 0 := by
  obtain ⟨b, k, -, h⟩ | ⟨-, h⟩ := buildRun_cases num s <;> rw [h]
  · trivial
  · rfl

theorem peekRun_answers (s : State) (b : BufId) (off : Nat) : (peekRun s b off).Answers 1 := by
  rw [peekRun]
  split <;> rfl

/-- A delivery answers with the whole block: what buffer 3 has, and zeros for the rest (R172). -/
theorem deliver_answers (num : Numerics) (count : Nat) (s : State) : (deliver num count s).Answers count := by
  have hk : deliverCount count s ≤ count := Nat.min_le_left ..
  rw [deliver_eq, Run.Answers, List.length_append, List.length_map, List.length_range, List.length_replicate]
  omega

theorem processRun_answers (num : Numerics) (count : Nat) (x : List Word) (s : State) :
    (processRun num count x s).Answers count :=
  ite_answers List.length_replicate
    (Run.Answers.bind fun _ _ => Run.Answers.bind fun _ _ => deliver_answers num count _)

/-- A command that completes answers with the data words R87 gives it. -/
theorem body_answers (i : Instr) (s : State) : (body i s).Answers (dataWords i) := by
  cases i with
  | nop | reset => exact respond_answers 0 _
  | setcfg r v => exact whenUnconfigured_answers _ s (ite_answers trivial (respond_answers 0 _))
  | getcfg r => rfl
  | ldhp n ws | ldip n ws | ldwin n ws => exact loadTable_answers ..
  | build => exact whenUnconfigured_answers _ s (buildRun_answers ..)
  | extend b n | appendz b n | discard b n => exact whenReady_answers s (.bind fun _ _ => respond_answers ..)
  | append b n v => exact whenReady_answers s (.bind fun _ _ => respond_answers ..)
  | poke b off v => exact whenReady_answers s (inRange_answers s b _ (respond_answers 0 _))
  | size b => exact whenReady_answers s (respond_answers _ s)
  | peek b off => exact whenReady_answers s (inRange_answers s b _ (peekRun_answers s b _))
  | startidx b | endidx b => exact whenReady_answers s rfl
  | firrun => exact whenReady_answers s (ite_answers (.bind fun _ _ => respond_answers ..) trivial)
  | intrun | olarun | prime => exact whenReady_answers s (.bind fun _ _ => respond_answers ..)
  | process n x => exact whenReady_answers s (processRun_answers ..)

/-! ## The response of a command and of a step -/

/-- Every command has its step and adds one response (R86). -/
theorem exec_response (i : Instr) (s : State) : ∃ (t : State) (sw : Word) (data : List Word),
    exec i s = .next t ∧ t.resp = s.resp ++ sw :: data ∧ IsResponse (dataWords i) sw data := by
  rw [exec_eq_finish]
  obtain ⟨trap, u, hx, -, hresp⟩ | ⟨a, u, hx, hresp, -⟩ := body_cases i s <;> rw [hx]
  · refine ⟨_, errWord trap.cause, [], rfl, ?_, isResponse_errWord _ trap.cause⟩
    rw [finish_raised, State.takeFault_resp, hresp]
  · have hdata : a.data.length = dataWords i := by
      have h := body_answers i s
      rwa [hx] at h
    refine ⟨_, okWord a.result, a.data, rfl, ?_, hdata ▸ isResponse_okWord a.result a.data⟩
    rw [finish_done, State.emit_resp, hresp]

/-- Settles O9: the end of a command emits its one response, and so does the answer to an illegal word. -/
theorem exactlyOneResponse : Obligations.ExactlyOneResponse := by
  refine ⟨exec_response, fun s t hidle h => ?_⟩
  obtain ⟨hnot, -⟩ | ⟨-, f, hf, ⟨i, hi, he⟩ | ⟨⟨e, he⟩, rfl⟩⟩ := step_next h
  · exact absurd hidle hnot
  · have hdecode := decode_of_frame hf hi
    obtain ⟨t', sw, data, hexec, hresp, hshape⟩ := exec_response i { s with port := f.rest }
    rw [he] at hexec
    cases hexec
    refine ⟨sw, data, hresp, fun j rest hj => ?_, fun hnone => absurd hdecode (hnone i f.rest)⟩
    rw [hdecode] at hj
    cases hj
    exact hshape
  · refine ⟨0x83000000, [], ?_, fun i rest hi => ?_, fun _ => ⟨rfl, rfl⟩⟩
    · rw [answerIllegal, State.takeFault_resp, errWord_illegal]
    · obtain ⟨f', hf', hi', -⟩ := decode_ok hi
      rw [hf] at hf'
      cases hf'
      rw [he] at hi'
      cases hi'

end Sys2Proof.Machine
end

section
/-! The buffer commands in READY (R116 to R124): each one's equation when it completes and when it faults, and from
these its statement. -/

namespace Sys2Proof.Machine

/-! ## The end of a READY command -/

section
variable {i : Instr} {s : State} {x : Run Answer}

/-- A READY command that completes with a result answers from the state its run leaves (R86). -/
theorem exec_of_respond {k : Nat} {u : State} (hr : s.eng = .ready) (hb : body i s = whenReady s x)
    (hx : x = respond k u) : exec i s = .next (u.emit [okWord k]) := by
  rw [exec_eq_finish, hb, whenReady_of_ready _ hr, hx, finish_respond]

/-- A READY command that completes with data words answers from the state its run leaves (R86). -/
theorem exec_of_data {data : List Word} {u : State} (hr : s.eng = .ready) (hb : body i s = whenReady s x)
    (hx : x = .done { result := 0, data := data } u) : exec i s = .next (u.emit (0x00000000 :: data)) := by
  rw [exec_eq_finish, hb, whenReady_of_ready _ hr, hx, finish_done, okWord_zero]

/-- Fault entry outside FAULTED writes the latch, `ENG` and the error response (R210). -/
theorem takeFault_eq_faultedBy (hr : s.eng = .ready) (op : BitVec 6) (c : Cause) (b : BufId) (info : Nat) :
    s.takeFault op { cause := c, buf := b, info := info } = faultedBy s op b c info := by
  rw [State.takeFault_of_not_faulted _ _ _ (by rw [hr]; decide)]
  rfl

/-- A READY command that raises before it changed anything only takes the fault (R210). -/
theorem exec_of_raised {c : Cause} {b : BufId} {info : Nat} (hr : s.eng = .ready) (hb : body i s = whenReady s x)
    (hx : x = .raised { cause := c, buf := b, info := info } s) :
    exec i s = .next (faultedBy s i.opcode b c info) := by
  rw [exec_eq_finish, hb, whenReady_of_ready _ hr, hx, finish_raised, takeFault_eq_faultedBy hr]

end

/-- The frame of a command that replaces one buffer and answers. -/
theorem setBuf_emit_frame (s : State) (b : BufId) (q : Buf) (ws : List Word) :
    OnlyBuffersDiffer s ((s.setBuf b q).emit ws) ∧ OnlyBufferDiffers b s ((s.setBuf b q).emit ws) ∧
    ((s.setBuf b q).emit ws).draws = s.draws := by
  refine ⟨?_, fun b' h => ?_, ?_⟩
  · cases b <;> rfl
  · rw [State.buf_emit, State.buf_setBuf_of_ne _ _ h]
  · rw [State.emit_draws, State.setBuf_draws]

@[simp] theorem size_setBuf_self (s : State) (b : BufId) (q : Buf) : (s.setBuf b q).size b = q.size := by
  rw [State.size, State.buf_setBuf_self]

/-! ## EXTEND (R110, R116) -/

/-- A buffer after `n` trailing slots were reserved (R110). -/
abbrev Buf.extended (q : Buf) (n : Nat) : Buf := (q.makeRoom n).reserve n

theorem Buf.makeRoom_of_le {q : Buf} {n : Nat} (h : q.de + n ≤ q.cap) : q.makeRoom n = q := by
  rw [Buf.makeRoom, if_neg (by omega)]

theorem Buf.makeRoom_of_lt {q : Buf} {n : Nat} (h : q.cap < q.de + n) : q.makeRoom n = q.compact := by
  rw [Buf.makeRoom, if_pos h]

/-- A fill moves no offset, so the indices after reserving are those after an append. -/
theorem Buf.extended_extended {q : Buf} (h : q.ds ≤ q.de) (n : Nat) : Extended n q (q.extended n) :=
  Buf.extended_appended h n []

section
variable {b : BufId} {n : BitVec 24} {s : State} (hr : s.eng = .ready)
include hr

/-- EXTEND within the capacity: the reserved region begins behind the old samples (R110, R116). -/
theorem exec_extend_of_le (h : s.size b + n.toNat ≤ (s.buf b).cap) :
    exec (.extend b n) s = .next ((s.setBuf b ((s.buf b).extended n.toNat)).emit [okWord (s.size b)]) := by
  have hoff : ((s.buf b).makeRoom n.toNat).de - ((s.buf b).makeRoom n.toNat).ds = s.size b := Buf.size_makeRoom _ _
  refine exec_of_respond hr rfl ?_
  rw [extend_of_le h, Run.bind_done, State.buf_setBuf_self, Buf.ds_reserve, hoff]

theorem exec_extend_of_lt (h : (s.buf b).cap < s.size b + n.toNat) :
    exec (.extend b n) s = .next (faultedBy s 0x10 b .overflow n.toNat) :=
  exec_of_raised hr rfl (by rw [extend_of_lt h, Run.bind_raised])

end

/-- Settles O25: the clauses are facts about the extended buffer, on either side of the compaction boundary. -/
theorem extendReservesSlots : Obligations.ExtendReservesSlots := by
  intro b n s
  refine ⟨rfl, fun hr hord hfit => ⟨_, exec_extend_of_le hr hfit, ?_⟩, exec_extend_of_lt⟩
  obtain ⟨hcap, hstart, hend⟩ := Buf.extended_extended hord n.toNat
  rw [size_emit, size_setBuf_self, State.buf_emit, State.buf_setBuf_self]
  refine ⟨by simp, Buf.size_extended hord _, hcap, ?_, fun k _ => Buf.data?_extended hord _ k, fun k hk => ?_, hstart,
    hend, fun hroom => ?_, fun hfull => ?_, setBuf_emit_frame ..⟩
  · rw [hcap]; exact Buf.makeRoom_fits hfit
  · rw [Buf.data?_extended hord, Buf.data?_eq_none hk]
  · rw [Buf.extended, Buf.makeRoom_of_le hroom]
    refine ⟨rfl, rfl, rfl, fun a ha => ?_⟩
    rw [Buf.reserve, Memory.read_forget, if_neg (by omega)]
  · rw [Buf.extended, Buf.makeRoom_of_lt hfull]
    exact ⟨rfl, rfl, rfl⟩

/-! ## POKE (R117) -/

theorem inRange_of_lt {s : State} {b : BufId} {off : Nat} (h : off < s.size b) (x : Run Answer) :
    inRange s b off x = x := by
  rw [inRange, if_neg (by omega)]

theorem inRange_of_le {s : State} {b : BufId} {off : Nat} (h : s.size b ≤ off) (x : Run Answer) :
    inRange s b off x = .raised { cause := .range, buf := b, info := off } s := by
  rw [inRange, if_pos h]

/-- Settles O26: a poke is a fill of one slot. -/
theorem pokeStoresOneWord : Obligations.PokeStoresOneWord := by
  intro b off v s
  refine ⟨rfl, fun hr hlive => ⟨_, exec_of_data hr rfl (inRange_of_lt hlive _), ?_⟩,
    fun hr hout => exec_of_raised hr rfl (inRange_of_le hout _)⟩
  have hread (a : Nat) : ((s.buf b).fill ((s.buf b).ds + off.toNat) [v]).store.read a =
      if a = (s.buf b).ds + off.toNat then some v else (s.buf b).store.read a := Memory.read_write ..
  rw [State.buf_emit, State.buf_setBuf_self]
  refine ⟨by simp, ?_, fun a ha => ?_, rfl, setBuf_emit_frame ..⟩
  · rw [hread, if_pos rfl]
  · rw [hread, if_neg ha]

/-! ## APPEND and APPENDZ (R111, R112, R118, R119) -/

section
variable {b : BufId} {n : BitVec 24} {s : State} (hr : s.eng = .ready)
include hr

theorem exec_append_of_le (v : List Word) (h : s.size b + n.toNat ≤ (s.buf b).cap) :
    exec (.append b n v) s = .next ((s.setBuf b ((s.buf b).appended n.toNat v)).emit [0x00000000]) :=
  exec_of_data hr rfl (by rw [append_of_le v h, Run.bind_done]; rfl)

theorem exec_append_of_lt (v : List Word) (h : (s.buf b).cap < s.size b + n.toNat) :
    exec (.append b n v) s = .next (faultedBy s 0x12 b .overflow n.toNat) :=
  exec_of_raised hr rfl (by rw [append_of_lt v h, Run.bind_raised])

/-- APPENDZ within the capacity is an APPEND of zeros (R112). -/
theorem exec_appendz_of_le (h : s.size b + n.toNat ≤ (s.buf b).cap) :
    exec (.appendz b n) s = exec (.append b n (List.replicate n.toNat s.num.fzero)) s := by
  rw [exec_append_of_le hr _ h]
  exact exec_of_data hr rfl (by rw [appendZeros, append_of_le _ h, Run.bind_done]; rfl)

theorem exec_appendz_of_lt (h : (s.buf b).cap < s.size b + n.toNat) :
    exec (.appendz b n) s = .next (faultedBy s 0x13 b .overflow n.toNat) :=
  exec_of_raised hr rfl (by rw [appendZeros, append_of_lt _ h, Run.bind_raised])

end

/-- Settles O27: an append extends the buffer as EXTEND does and fills the new slots. -/
theorem appendStoresThePayload : Obligations.AppendStoresThePayload := by
  intro b n v s hlen
  refine ⟨rfl, fun hr hord hfit => ⟨_, exec_append_of_le hr v hfit, ?_⟩, fun hr => exec_append_of_lt hr v⟩
  obtain ⟨hcap, hstart, hend⟩ := Buf.extended_appended hord n.toNat v
  rw [size_emit, size_setBuf_self, State.buf_emit, State.buf_setBuf_self]
  refine ⟨by simp, Buf.size_appended hord _ v, hcap, fun k hk => ?_, fun k hk => ?_, fun u hu => ?_, hstart, hend,
    setBuf_emit_frame ..⟩
  · rw [State.size] at hk
    rw [Buf.data?_appended hord, if_neg (by omega)]
  · rw [State.size, Buf.data?_appended hord, if_pos (by omega), Nat.add_sub_cancel_left]
  · rw [exec_extend_of_le hr hfit] at hu
    cases hu
    rw [State.buf_emit, State.buf_setBuf_self]
    exact ⟨rfl, rfl, rfl⟩

/-- Settles O28: within the capacity the answer is that of an APPEND whose payload is zeros. -/
theorem appendzAppendsZeros : Obligations.AppendzAppendsZeros := by
  intro b n s
  refine ⟨rfl, fun h => by rw [State.num, h]; rfl, fun hr hord hfit => ?_, exec_appendz_of_lt⟩
  obtain ⟨-, hok, -⟩ :=
    appendStoresThePayload b n (List.replicate n.toNat s.num.fzero) s List.length_replicate
  obtain ⟨t, ht, hresp, hsize, hcap, hold, hnew, hrest⟩ := hok hr hord hfit
  refine ⟨t, (exec_appendz_of_le hr hfit).trans ht, hresp, hsize, hcap, hold, fun k hk => ?_, hrest⟩
  rw [hnew k hk, List.getElem?_replicate, if_pos hk]

/-! ## DISCARD (R113, R120) -/

/-- Settles O29: the clauses are facts about the consumed buffer. -/
theorem discardAdvancesTheStart : Obligations.DiscardAdvancesTheStart := by
  intro b n s
  refine ⟨rfl, fun hr hle => ⟨_, exec_of_data hr rfl (by rw [discard_of_le hle, Run.bind_done]; rfl), ?_⟩,
    fun hr hlt => exec_of_raised hr rfl (by rw [discard_of_lt hlt, Run.bind_raised])⟩
  obtain ⟨hq, hstart, hend⟩ := Buf.discarded_consume (s.buf b) n.toNat
  rw [size_emit, size_setBuf_self, State.buf_emit, State.buf_setBuf_self]
  exact ⟨by simp, hq, Buf.size_consume .., Buf.data?_consume _ _, hstart, hend, setBuf_emit_frame ..⟩

/-! ## SIZE, STARTIDX and ENDIDX (R121, R123, R124) -/

/-- The two response words of an index are its low and its high half (R87). -/
theorem indexWords_halves (v : BitVec 64) : ∃ lo hi : Word, hi ++ lo = v ∧ indexWords v = [lo, hi] :=
  ⟨_, _, (BitVec.extractLsb'_append_extractLsb'_eq_extractLsb' rfl).trans BitVec.extractLsb'_eq_self, rfl⟩

/-- Settles O30: the three commands answer from the descriptor and run no operation. -/
theorem queriesAnswerAndChangeNothing : Obligations.QueriesAnswerAndChangeNothing := by
  intro b s
  refine ⟨rfl, rfl, rfl, fun hr hsize => ⟨_, okWord_toNat hsize, exec_of_respond hr rfl rfl⟩, fun hr => ?_,
    fun hr => ?_⟩
  · obtain ⟨lo, hi, hv, hwords⟩ := indexWords_halves (s.buf b).startIndex
    exact ⟨lo, hi, hv, hwords ▸ exec_of_data hr rfl rfl⟩
  · obtain ⟨lo, hi, hv, hwords⟩ := indexWords_halves (s.buf b).endIndex
    exact ⟨lo, hi, hv, hwords ▸ exec_of_data hr rfl rfl⟩

/-! ## PEEK (R122) -/

theorem peekRun_of_some {s : State} {b : BufId} {off : Nat} {w : Word} (h : (s.buf b).data? off = some w) :
    peekRun s b off = .done { result := 0, data := [w] } s := by
  rw [peekRun, h]

/-- PEEK of a reserved slot answers with a draw (R25, R122). -/
theorem peekRun_of_none {s : State} {b : BufId} {off : Nat} (h : (s.buf b).data? off = none) :
    peekRun s b off = .done { result := 0, data := [Config.freeWord s.draws] } (s.advance 1) := by
  rw [peekRun, h]

/-- Settles O31: the live slot's sample is the stored word, if one was stored. -/
theorem peekAnswersTheSample : Obligations.PeekAnswersTheSample := by
  intro b off s
  refine ⟨rfl, fun hr hlive w hw => ?_, fun hr hlive hnone => ?_,
    fun hr hout => exec_of_raised hr rfl (inRange_of_le hout _)⟩
  · have hdata : (s.buf b).data? off.toNat = some w := (Buf.data?_of_lt hlive).trans hw
    exact exec_of_data hr rfl ((inRange_of_lt hlive _).trans (peekRun_of_some hdata))
  · have hdata : (s.buf b).data? off.toNat = none := (Buf.data?_of_lt hlive).trans hnone
    exact ⟨_, _, exec_of_data hr rfl ((inRange_of_lt hlive _).trans (peekRun_of_none hdata)), rfl, rfl⟩

end Sys2Proof.Machine
end

section
/-! The accounting law (R26, R115): what one buffer command that completes appends and discards, and the induction over
a sequence of them. -/

namespace Sys2Proof.Machine

/-! ## One buffer -/

/-- `e` slots were added to a buffer and `g` samples discarded from it (R115), and its offsets stay ordered (R23). -/
structure Accounted (e g : Nat) (q q' : Buf) : Prop where
  ordered : q'.ds ≤ q'.de
  size : q'.size + g = q.size + e
  startIndex : q'.startIndex = q.startIndex + BitVec.ofNat 64 g
  endIndex : q'.endIndex = q.endIndex + BitVec.ofNat 64 e

namespace Accounted

variable {q q' q'' : Buf}

/-- Nothing is added or discarded where the descriptor stays, whatever happens to the store. -/
theorem of_store (h : q.ds ≤ q.de) (m : Memory) : Accounted 0 0 q { q with store := m } :=
  ⟨h, rfl, (BitVec.add_zero _).symm, (BitVec.add_zero _).symm⟩

theorem refl (h : q.ds ≤ q.de) : Accounted 0 0 q q := of_store h q.store

theorem trans {e g e' g' : Nat} (h : Accounted e g q q') (h' : Accounted e' g' q' q'') :
    Accounted (e + e') (g + g') q q'' where
  ordered := h'.ordered
  size := by have := h.size; have := h'.size; omega
  startIndex := by rw [h'.startIndex, h.startIndex, BitVec.add_assoc, BitVec.ofNat_add]
  endIndex := by rw [h'.endIndex, h.endIndex, BitVec.add_assoc, BitVec.ofNat_add]

theorem extended (h : q.ds ≤ q.de) (n : Nat) : Accounted n 0 q (q.extended n) := by
  obtain ⟨-, hstart, hend⟩ := Buf.extended_extended h n
  refine ⟨?_, Buf.size_extended h n, hstart.trans (BitVec.add_zero _).symm, hend⟩
  exact (Buf.ds_le_makeRoom h n).trans (Nat.le_add_right ..)

/-- An append counts as the EXTEND it fills. -/
theorem appended (h : q.ds ≤ q.de) (n : Nat) (v : List Word) : Accounted n 0 q (q.appended n v) :=
  have hx := extended h n
  hx.trans (of_store hx.ordered _)

theorem consumed {n : Nat} (h : q.ds ≤ q.de) (hn : n ≤ q.size) : Accounted 0 n q (q.consume n) := by
  refine ⟨?_, ?_, Buf.startIndex_consume q n, (BitVec.add_zero _).symm⟩
  · rw [Buf.size] at hn
    rw [Buf.ds_consume, Buf.de_consume]; omega
  · rw [Buf.size_consume]; omega

end Accounted

/-! ## One command -/

/-- Every buffer's changes from `s` to `u` are those the command `i` counts (R115). -/
def AccountedBy (i : Instr) (s u : State) : Prop :=
  ∀ b, Accounted (appendedTo b i) (discardedFrom b i) (s.buf b) (u.buf b)

/-- Every buffer has its offsets in order (R23). -/
abbrev OrderedBuffers (s : State) : Prop := ∀ b, (s.buf b).ds ≤ (s.buf b).de

section
variable {i : Instr} {s : State} (hord : OrderedBuffers s)
include hord

/-- A command that counts nothing and leaves every buffer. -/
theorem accountedBy_of_buf_eq {u : State} (hi : ∀ b, appendedTo b i = 0 ∧ discardedFrom b i = 0)
    (hu : ∀ b, u.buf b = s.buf b) : AccountedBy i s u := by
  intro b
  obtain ⟨happ, hdis⟩ := hi b
  rw [happ, hdis, hu]
  exact .refl (hord b)

/-- A command that replaces one buffer and counts for that one only. -/
theorem accountedBy_setBuf {b : BufId} {q : Buf} {e g : Nat} (happ : ∀ b', appendedTo b' i = if b = b' then e else 0)
    (hdis : ∀ b', discardedFrom b' i = if b = b' then g else 0) (hq : Accounted e g (s.buf b) q) :
    AccountedBy i s (s.setBuf b q) := by
  intro b'
  rw [happ, hdis]
  by_cases hb : b = b'
  · subst hb
    rw [if_pos rfl, if_pos rfl, State.buf_setBuf_self]; exact hq
  · rw [if_neg hb, if_neg hb, State.buf_setBuf_of_ne _ _ (Ne.symm hb)]
    exact .refl (hord b')

end

/-- If the piece completes, `P` holds of the state it ends in. -/
def Run.Completes {α : Type} (P : State → Prop) : Run α → Prop
  | .done _ u => P u
  | .raised _ _ => True

theorem Run.Completes.bind {α β : Type} {P Q : State → Prop} {x : Run α} {f : α → State → Run β} (hx : x.Completes P)
    (hf : ∀ a u, P u → (f a u).Completes Q) : (x.bind f).Completes Q := by
  cases x with
  | done a u => exact hf a u hx
  | raised t u => trivial

section
variable {P : State → Prop} {s : State} {b : BufId} {n : Nat}

theorem extend_completes (h : P (s.setBuf b ((s.buf b).extended n))) : (extend s b n).Completes P := by
  rw [extend]
  split
  · trivial
  · exact h

theorem append_completes {v : List Word} (h : P (s.setBuf b ((s.buf b).appended n v))) :
    (append s b n v).Completes P := by
  rw [append_eq]
  split
  · trivial
  · exact h

theorem discard_completes (h : n ≤ s.size b → P (s.setBuf b ((s.buf b).consume n))) : (discard s b n).Completes P := by
  rw [discard_eq]
  split
  · trivial
  · exact h (by omega)

theorem inRange_completes {x : Run Answer} (h : x.Completes P) : (inRange s b n x).Completes P := by
  rw [inRange]
  split
  · trivial
  · exact h

theorem whenReady_completes {x : Run Answer} (h : x.Completes P) : (whenReady s x).Completes P := by
  rw [whenReady]
  split
  · exact h
  · trivial

end

/-- A buffer command that completes changes the buffers by what it counts (R115). -/
theorem body_accounted {i : Instr} {s : State} (hi : isBufferCommand i = true) (hord : OrderedBuffers s) :
    (body i s).Completes (AccountedBy i s) := by
  have uncounted {b : BufId} (b' : BufId) : 0 = if b = b' then 0 else 0 := (ite_self 0).symm
  cases i with
  | nop | getcfg => exact accountedBy_of_buf_eq hord (fun _ => ⟨rfl, rfl⟩) fun _ => rfl
  | size b | startidx b | endidx b =>
    exact whenReady_completes (accountedBy_of_buf_eq hord (fun _ => ⟨rfl, rfl⟩) fun _ => rfl)
  | peek b off =>
    refine whenReady_completes (inRange_completes ?_)
    rw [peekRun]
    split <;> exact accountedBy_of_buf_eq hord (fun _ => ⟨rfl, rfl⟩) (by simp)
  | poke b off v =>
    exact whenReady_completes (inRange_completes (accountedBy_setBuf hord uncounted uncounted (.of_store (hord b) _)))
  | extend b n =>
    have h := accountedBy_setBuf (i := .extend b n) hord (fun _ => rfl) uncounted (.extended (hord b) _)
    exact whenReady_completes (.bind (extend_completes h) fun _ _ h => h)
  | append b n v =>
    have h := accountedBy_setBuf (i := .append b n v) hord (fun _ => rfl) uncounted (.appended (hord b) _ v)
    exact whenReady_completes (.bind (append_completes h) fun _ _ h => h)
  | appendz b n =>
    have h v := accountedBy_setBuf (i := .appendz b n) hord (fun _ => rfl) uncounted (.appended (hord b) _ v)
    exact whenReady_completes (.bind (append_completes (h _)) fun _ _ h => h)
  | discard b n =>
    have h hn := accountedBy_setBuf (i := .discard b n) hord uncounted (fun _ => rfl) (.consumed (hord b) hn)
    exact whenReady_completes (.bind (discard_completes h) fun _ _ h => h)
  | prime n =>
    have h v := accountedBy_setBuf (i := .prime n) hord (fun _ => rfl) uncounted (.appended (hord .b0) _ v)
    exact whenReady_completes (.bind (append_completes (h _)) fun _ _ h => h)
  | reset | setcfg | ldhp | ldip | ldwin | build | firrun | intrun | olarun | process => cases hi

/-- A command that leaves the engine READY raised no fault. -/
theorem exec_completes {P : State → Prop} {i : Instr} {s t : State} (h : (body i s).Completes P)
    (he : exec i s = .next t) (ht : t.eng = .ready) : ∃ u ws, t = u.emit ws ∧ P u := by
  rw [exec_eq_finish] at he
  cases he
  cases hx : body i s with
  | done a u => rw [hx] at h; exact ⟨u, _, rfl, h⟩
  | raised trap u => rw [hx, finish_raised, State.takeFault_eng] at ht; cases ht

theorem exec_accounted {i : Instr} {s t : State} (hi : isBufferCommand i = true) (hord : OrderedBuffers s)
    (he : exec i s = .next t) (ht : t.eng = .ready) : AccountedBy i s t := by
  obtain ⟨u, ws, rfl, hu⟩ := exec_completes (body_accounted hi hord) he ht
  exact fun b => by rw [State.buf_emit]; exact hu b

/-! ## A sequence of commands -/

/-- A buffer command keeps `ENG` or enters FAULTED (R27), so one that leaves the engine READY found it so. -/
theorem ready_of_exec {i : Instr} {s t : State} (hi : isBufferCommand i = true) (he : exec i s = .next t)
    (ht : t.eng = .ready) : s.eng = .ready := by
  obtain ⟨-, hother, -⟩ := engineStateTransitions i s t he
  obtain h | h | ⟨rfl, -⟩ := hother (by rintro rfl; cases hi)
  · rw [← h, ht]
  · rw [ht] at h; cases h
  · cases hi

theorem ready_of_runsTo {cmds : List Instr} {s t : State} (hc : ∀ i ∈ cmds, isBufferCommand i = true)
    (h : runsTo cmds s t) (ht : t.eng = .ready) : s.eng = .ready := by
  induction cmds generalizing s with
  | nil => subst h; exact ht
  | cons i is ih =>
    obtain ⟨u, he, hrest⟩ := h
    exact ready_of_exec (hc i (List.mem_cons_self ..)) he (ih (fun j hj => hc j (List.mem_cons_of_mem _ hj)) hrest)

/-- The counts of a sequence add up, command by command (R115). -/
theorem runsTo_accounted {cmds : List Instr} {s t : State} (hc : ∀ i ∈ cmds, isBufferCommand i = true)
    (hord : OrderedBuffers s) (h : runsTo cmds s t) (ht : t.eng = .ready) (b : BufId) :
    Accounted (cmds.map (appendedTo b)).sum (cmds.map (discardedFrom b)).sum (s.buf b) (t.buf b) := by
  induction cmds generalizing s with
  | nil => subst h; exact .refl (hord b)
  | cons i is ih =>
    obtain ⟨u, he, hrest⟩ := h
    obtain ⟨hi, his⟩ := List.forall_mem_cons.mp hc
    have hstep := exec_accounted hi hord he (ready_of_runsTo his hrest ht)
    rw [List.map_cons, List.map_cons, List.sum_cons, List.sum_cons]
    exact (hstep b).trans (ih his (fun b' => (hstep b').ordered) hrest)

/-- Settles O32: the counts of the whole sequence are those of the buffer. -/
theorem accountingLaw : Obligations.AccountingLaw := by
  intro cmds b s t hord _ hc h ht
  obtain ⟨-, hsize, hstart, hend⟩ := runsTo_accounted hc hord h ht b
  exact ⟨hsize, hstart, hend⟩

end Sys2Proof.Machine
end

section
/-! The FIR run (R141, R142): its answer and its faults, what one of its outputs is where its inputs are written, and
the impulse response. -/

namespace Sys2Proof.Machine

/-! ## A READY command in the other engine states -/

section
variable {i : Instr} {s : State} {x : Run Answer}

/-- A READY command before BUILD takes `State(0, 0)` (R189, R204). -/
theorem exec_ready_of_unconfigured (hu : s.eng = .unconfigured) (hb : body i s = whenReady s x) :
    exec i s = .next (faultedBy s i.opcode .b0 .state 0) := by
  rw [exec_eq_finish, hb, whenReady_of_ne _ (by rw [hu]; decide), finish_raised,
    State.takeFault_of_not_faulted _ _ _ (by rw [hu]; decide)]
  rfl

/-- A READY command is refused in FAULTED (R211). -/
theorem exec_ready_of_faulted (hf : s.eng = .faulted) (hb : body i s = whenReady s x) :
    exec i s = .next (refusedIn s) := by
  rw [exec_eq_finish, hb, whenReady_of_ne _ (by rw [hf]; decide), finish_raised, State.takeFault_of_faulted _ _ _ hf]
  rfl

end

/-! ## The command -/

section
variable {s : State}

theorem body_firrun_of_hpEn (hp : s.hpEn = true) : body .firrun s = whenReady s ((firRun s.num s).bind respond) := by
  rw [body, if_pos hp]

/-- FIRRUN without the highpass takes the `State` fault (R141, R204). -/
theorem exec_firrun_of_no_highpass (hr : s.eng = .ready) (hp : s.hpEn = false) :
    exec .firrun s = .next (faultedBy s 0x20 .b0 .state 0) :=
  exec_of_raised hr rfl (by rw [hp]; rfl)

variable (hr : s.eng = .ready) (hp : s.hpEn = true)
include hr hp

/-- FIRRUN with its history and with room for its outputs answers with their count (R141). -/
theorem exec_firrun_of_ok (hL : 1 ≤ s.LH) (hin : s.LH - 1 ≤ s.size .b1) (hroom : s.size .b2 + firCount s ≤ s.buf2.cap) :
    exec .firrun s = .next ((firDone s.num s).emit [okWord (firCount s)]) :=
  exec_of_respond hr (body_firrun_of_hpEn hp) (by rw [firRun_of_ok hL hin hroom, Run.bind_done])

theorem exec_firrun_of_history (hin : s.size .b1 < s.LH - 1) :
    exec .firrun s = .next (faultedBy s 0x20 .b1 .history (s.size .b1)) :=
  exec_of_raised hr (body_firrun_of_hpEn hp) (by rw [firRun_of_history hin, Run.bind_raised])

theorem exec_firrun_of_overflow (hin : s.LH - 1 ≤ s.size .b1) (hfull : s.buf2.cap < s.size .b2 + firCount s) :
    exec .firrun s = .next (faultedBy s 0x20 .b2 .overflow (firCount s)) :=
  exec_of_raised hr (body_firrun_of_hpEn hp) (by rw [firRun_of_overflow hin hfull, Run.bind_raised])

end

/-! ## The state a completed run leaves -/

section
variable (num : Numerics) (s : State)

theorem firDone_buf0 : (firDone num s).buf0 = s.buf0 := rfl

theorem firDone_buf1 : (firDone num s).buf1 = s.buf1.consume (firCount s) := rfl

theorem firDone_buf2 :
    (firDone num s).buf2 = s.buf2.appended (firCount s) ((List.range (firCount s)).map (firOut num s)) := rfl

theorem firDone_buf3 : (firDone num s).buf3 = s.buf3 := rfl

theorem firDone_emit_frame (ws : List Word) : OnlyBuffersDiffer s ((firDone num s).emit ws) := by
  cases s
  rfl

/-- A run leaves exactly its history in buffer 1 (R142). -/
theorem size_b1_firDone (hL : 1 ≤ s.LH) (hin : s.LH - 1 ≤ s.size .b1) : (firDone num s).size .b1 = s.LH - 1 := by
  have hsize : (firDone num s).size .b1 = s.size .b1 - firCount s := Buf.size_consume ..
  rw [hsize, firCount]; omega

variable {s} (hord : s.buf2.ds ≤ s.buf2.de)
include hord

theorem size_b2_firDone : (firDone num s).size .b2 = s.size .b2 + firCount s := Buf.size_appended hord ..

/-- The samples that waited in buffer 2 stay. -/
theorem firDone_keeps_outputs {k : Nat} (hk : k < s.size .b2) : (firDone num s).buf2.data? k = s.buf2.data? k := by
  have hk : k < s.buf2.size := hk
  rw [firDone_buf2, Buf.data?_appended hord, if_neg (by omega)]

/-- The new samples of buffer 2 are the run's outputs, in order (R141). -/
theorem firDone_output {i : Nat} (hi : i < firCount s) :
    (firDone num s).buf2.data? (s.size .b2 + i) = some (firOut num s i) := by
  have hb2 : s.size .b2 = s.buf2.size := rfl
  rw [firDone_buf2, Buf.data?_appended hord, hb2, if_pos (by omega), Nat.add_sub_cancel_left, List.getElem?_map,
    List.getElem?_range hi, Option.map_some]

end

/-! ## One output -/

theorem data_of_data? {s : State} {b : BufId} {k : Nat} {w : Word} (h : (s.buf b).data? k = some w) (d : Nat) :
    s.data b k d = w := by
  rw [State.data, h, Option.getD_some]

theorem Memory.get_of_read {m : Memory} {k : Nat} {w : Word} (h : m.read k = some w) (d : Nat) : m.get k d = w := by
  rw [Memory.get, h, Option.getD_some]

/-- Where the inputs and the taps are written, no draw enters an output but through a NaN result (R141). -/
theorem firOut_of_written (num : Numerics) {s : State} {x h : Nat → Word} {i : Nat}
    (hw : ∀ k, k < s.LH → s.buf1.data? (i + k) = some (x (i + k)) ∧ s.hr.read k = some (h k)) :
    firOut num s i = dot num (tapDraw s.draws (i * s.LH)) s.LH (fun k _ => x (i + k)) (fun k _ => h k) :=
  dot_congr (fun k d hk => data_of_data? (b := .b1) (hw k hk).1 d) (fun k d hk => Memory.get_of_read (hw k hk).2 d)

/-- Settles O33: a run that completes leaves `firDone`, and every other outcome is one fault. -/
theorem firrunWritesTheInnerProducts : Obligations.FirrunWritesTheInnerProducts := by
  refine ⟨rfl, fun s hr hp hL hin _ hord2 hroom => ⟨_, exec_firrun_of_ok hr hp hL hin hroom, ?_⟩,
    fun s hr hp _ => ⟨exec_firrun_of_history hr hp, exec_firrun_of_overflow hr hp⟩, fun s h => ?_,
    fun s hf => exec_ready_of_faulted hf rfl⟩
  · rw [size_emit, size_emit, State.emit_buf0, State.emit_buf1, State.emit_buf2, State.emit_buf3]
    refine ⟨rfl, Buf.discarded_consume .., Buf.extended_appended hord2 .., size_b1_firDone _ _ hL hin,
      Buf.data?_consume _ _, size_b2_firDone _ hord2, fun _ => firDone_keeps_outputs _ hord2,
      fun x h i hi hw => ⟨tapDraw s.draws (i * s.LH), ?_⟩, firDone_buf0 .., firDone_buf3 .., firDone_emit_frame ..⟩
    rw [firDone_output _ hord2 hi, firOut_of_written _ hw]
  · obtain hu | ⟨hr, hp⟩ := h
    · exact exec_ready_of_unconfigured hu rfl
    · exact exec_firrun_of_no_highpass hr hp

/-! ## The impulse response (R142) -/

/-- In an arithmetic exact on 0 and 1, the inner product with a unit impulse at `p` is the factor at `p`. -/
theorem dot_impulse {num : Numerics} {one : Word} (hone : ∀ d v, num.fmul d one v = v)
    (hzero : ∀ d v, num.fmul d num.fzero v = num.fzero) (hleft : ∀ d v, num.fadd d num.fzero v = v)
    (hright : ∀ d v, num.fadd d v num.fzero = v) (d p : Nat) (h : Nat → Word) (n : Nat) :
    dot num d n (fun k _ => if k = p then one else num.fzero) (fun k _ => h k) = if p < n then h p else num.fzero := by
  induction n with
  | zero => rw [dot_zero, if_neg (Nat.not_lt_zero p)]
  | succ n ih =>
    rw [dot_succ, ih]
    obtain hlt | rfl | hgt := Nat.lt_trichotomy p n
    · rw [if_pos hlt, if_neg (by omega), hzero, hright, if_pos (by omega)]
    · rw [if_neg (by omega), if_pos rfl, hone, hleft, if_pos (by omega)]
    · rw [if_neg (by omega), if_neg (by omega), hzero, hright, if_neg (by omega)]

/-- Settles O34: output `i` meets the impulse at tap `LH − 1 − i`, which holds coefficient `i`. -/
theorem firImpulseResponseIsTheCoefficients : Obligations.FirImpulseResponseIsTheCoefficients := by
  intro num one s c hone hzero hleft hright hL hr hin i hi
  have hw (k : Nat) (hk : k < s.LH) := And.intro (hin (i + k) (by omega)) (hr k hk)
  have hpos (k : Nat) : i + k = s.LH - 1 ↔ k = s.LH - 1 - i := by omega
  rw [firOut_of_written num (x := fun j => if j = s.LH - 1 then one else num.fzero)
    (h := fun k => c (s.LH - 1 - k)) hw]
  simp only [hpos]
  rw [dot_impulse hone hzero hleft hright, if_pos (by omega), Nat.sub_sub_self (by omega)]

end Sys2Proof.Machine
end

section
/-! The Interpolator run (R151): its answer and its faults, the state a completed run leaves, and what one of its
outputs is where its inputs are written. -/

namespace Sys2Proof.Machine

/-! ## The frame of an update of the buffers -/

namespace OnlyBuffersDiffer
variable {s t : State}

theorem refl (s : State) : OnlyBuffersDiffer s s := rfl

theorem setBuf (h : OnlyBuffersDiffer s t) (b : BufId) (q : Buf) : OnlyBuffersDiffer s (t.setBuf b q) := by
  cases b <;> exact h

theorem advance (h : OnlyBuffersDiffer s t) (n : Nat) : OnlyBuffersDiffer s (t.advance n) := h

theorem emit (h : OnlyBuffersDiffer s t) (ws : List Word) : OnlyBuffersDiffer s (t.emit ws) := h

end OnlyBuffersDiffer

/-! ## The command -/

section
variable {s : State} (hr : s.eng = .ready)
include hr

/-- INTRUN with its history and with room for its outputs answers with their count (R151). -/
theorem exec_intrun_of_ok (hR : 1 ≤ s.R) (hin : s.R - 1 ≤ s.size s.intIn)
    (hroom : s.size .b3 + intCount s * s.D ≤ s.buf3.cap) :
    exec .intrun s = .next ((intDone s.num s).emit [okWord (intCount s * s.D)]) :=
  exec_of_respond hr rfl (by rw [intRun_of_ok hR hin hroom, Run.bind_done])

theorem exec_intrun_of_history (hin : s.size s.intIn < s.R - 1) :
    exec .intrun s = .next (faultedBy s 0x21 s.intIn .history (s.size s.intIn)) :=
  exec_of_raised hr rfl (by rw [intRun_of_history hin, Run.bind_raised])

theorem exec_intrun_of_overflow (hin : s.R - 1 ≤ s.size s.intIn)
    (hfull : s.buf3.cap < s.size .b3 + intCount s * s.D) :
    exec .intrun s = .next (faultedBy s 0x21 .b3 .overflow (intCount s * s.D)) :=
  exec_of_raised hr rfl (by rw [intRun_of_overflow hin hfull, Run.bind_raised])

end

/-! ## The state a completed run leaves -/

section
variable (num : Numerics) (s : State)

theorem intDone_buf_intIn : (intDone num s).buf s.intIn = (s.buf s.intIn).consume (intCount s) :=
  State.buf_setBuf_self ..

theorem intDone_buf3 : (intDone num s).buf3 =
    s.buf3.appended (intCount s * s.D) ((List.range (intCount s * s.D)).map (intOut num s)) :=
  (State.buf_setBuf_of_ne _ _ (intIn_ne_b3 s).symm).trans rfl

theorem intDone_buf_of_ne {b : BufId} (hin : b ≠ s.intIn) (hout : b ≠ .b3) : (intDone num s).buf b = s.buf b := by
  rw [intDone, State.buf_setBuf_of_ne _ _ hin, State.buf_advance, State.buf_setBuf_of_ne _ _ hout]

theorem intDone_resp : (intDone num s).resp = s.resp := by
  rw [intDone, State.setBuf_resp, State.advance_resp, State.setBuf_resp]

theorem intDone_frame : OnlyBuffersDiffer s (intDone num s) :=
  (((OnlyBuffersDiffer.refl s).setBuf ..).advance _).setBuf ..

/-- A run leaves exactly its history in its input buffer (R151). -/
theorem size_intIn_intDone (hR : 1 ≤ s.R) (hin : s.R - 1 ≤ s.size s.intIn) :
    (intDone num s).size s.intIn = s.R - 1 := by
  have hsize : (intDone num s).size s.intIn = s.size s.intIn - intCount s := by
    rw [State.size, intDone_buf_intIn, Buf.size_consume, State.size]
  rw [hsize, intCount]; omega

variable {s} (hord : s.buf3.ds ≤ s.buf3.de)
include hord

theorem size_b3_intDone : (intDone num s).size .b3 = s.size .b3 + intCount s * s.D :=
  (congrArg Buf.size (intDone_buf3 num s)).trans (Buf.size_appended hord ..)

/-- The samples that waited in buffer 3 stay. -/
theorem intDone_keeps_outputs {k : Nat} (hk : k < s.size .b3) : (intDone num s).buf3.data? k = s.buf3.data? k := by
  have hk : k < s.buf3.size := hk
  rw [intDone_buf3, Buf.data?_appended hord, if_neg (by omega)]

/-- The new samples of buffer 3 are the run's outputs, in order (R151). -/
theorem intDone_output {o : Nat} (ho : o < intCount s * s.D) :
    (intDone num s).buf3.data? (s.size .b3 + o) = some (intOut num s o) := by
  have hb3 : s.size .b3 = s.buf3.size := rfl
  rw [intDone_buf3, Buf.data?_appended hord, hb3, if_pos (by omega), Nat.add_sub_cancel_left, List.getElem?_map,
    List.getElem?_range ho, Option.map_some]

end

/-! ## One output -/

/-- Record `r` has its `L` phases at the outputs from `r × L` on. -/
theorem phase_index_lt {m L r j : Nat} (hr : r < m) (hj : j < L) : r * L + j < m * L :=
  calc r * L + j < (r + 1) * L := by rw [Nat.succ_mul]; omega
    _ ≤ m * L := Nat.mul_le_mul_right L hr

/-- Every tap a phase uses is one of the `N` taps (R151). -/
theorem tap_lt_of_lt_phaseTaps {N L j q : Nat} (hq : q < phaseTaps N L j) : j + q * L < N := by
  rw [phaseTaps] at hq
  split at hq
  · omega
  · have hle : q * L ≤ N - 1 - j := (Nat.mul_le_mul_right L (by omega)).trans (Nat.div_mul_le_self ..)
    omega

/-- A phase walks back over at most one record of `R = ⌈N / L⌉` samples (R151). -/
theorem lt_ceilDiv_of_lt_phaseTaps {N L j q : Nat} (hL : 1 ≤ L) (hq : q < phaseTaps N L j) : q < ceilDiv N L := by
  have htap := tap_lt_of_lt_phaseTaps hq
  rw [ceilDiv, Nat.lt_iff_add_one_le, Nat.le_div_iff_mul_le hL, Nat.succ_mul]
  omega

/-- Where the record and the taps are written, no draw enters an output but through a NaN result (R151). -/
theorem intOut_of_written (num : Numerics) {s : State} {x g : Nat → Word} {r j : Nat} (hj : j < s.D)
    (hx : ∀ k, k < s.R → (s.buf s.intIn).data? (r + k) = some (x (r + k)))
    (hg : ∀ k, k < s.N → s.ir.read k = some (g k)) :
    intOut num s (r * s.D + j) = dot num (tapDraw s.draws ((r * s.D + j) * s.R)) (phaseTaps s.N s.D j)
      (fun q _ => x (r + s.R - 1 - q)) (fun q _ => g (j + q * s.D)) := by
  have hrecord : (r * s.D + j) / s.D = r := by
    rw [Nat.mul_comm, Nat.mul_add_div (by omega), Nat.div_eq_of_lt hj, Nat.add_zero]
  have hphase : (r * s.D + j) % s.D = j := by rw [Nat.mul_add_mod', Nat.mod_eq_of_lt hj]
  rw [intOut, hrecord, hphase]
  refine dot_congr (fun q d hq => data_of_data? ?_ d) fun q d hq => ?_
  · have hlt : q < s.R := lt_ceilDiv_of_lt_phaseTaps (by omega) hq
    have hback : r + s.R - 1 - q = r + (s.R - 1 - q) := by omega
    rw [hback, hx _ (by omega)]
  · exact Memory.get_of_read (hg _ (tap_lt_of_lt_phaseTaps hq)) d

/-- Settles O35: a run that completes leaves `intDone`, and every other outcome is one fault. -/
theorem intrunWritesThePhases : Obligations.IntrunWritesThePhases := by
  refine ⟨rfl, fun s hr hD hN hin _ hord3 hroom => ⟨_, exec_intrun_of_ok hr (R_pos hD hN) hin hroom, ?_⟩,
    fun s hr => ⟨exec_intrun_of_history hr, exec_intrun_of_overflow hr⟩, fun s hu => exec_ready_of_unconfigured hu rfl,
    fun s hf => exec_ready_of_faulted hf rfl⟩
  rw [size_emit, size_emit, State.buf_emit, State.emit_buf3, State.emit_resp, intDone_resp,
    intDone_buf_intIn]
  refine ⟨rfl, Buf.discarded_consume .., ?_, size_intIn_intDone _ _ (R_pos hD hN) hin, Buf.data?_consume _ _,
    size_b3_intDone _ hord3, fun _ => intDone_keeps_outputs _ hord3, fun x g r j hrec hj hx hg =>
    ⟨tapDraw s.draws ((r * s.D + j) * s.R), ?_⟩, fun b => ?_, (intDone_frame ..).emit _⟩
  · rw [intDone_buf3]
    exact Buf.extended_appended hord3 ..
  · rw [intDone_output _ hord3 (phase_index_lt hrec hj), intOut_of_written _ hj hx hg, phaseTaps]
  · rw [State.buf_emit]
    exact intDone_buf_of_ne _ _

end Sys2Proof.Machine
end

section
/-! The Overlap-Adder run (R161, R163): its answer and its faults, what one window does to each slot of the accumulator,
the state a completed run leaves, and the closed form in an exact arithmetic. -/

namespace Sys2Proof.Machine

/-! ## The command -/

section
variable {s : State} (hr : s.eng = .ready)
include hr

/-- OLARUN with room for its outputs answers with their count (R161). -/
theorem exec_olarun_of_ok (hroom : s.size .b1 + olaCount s * s.S ≤ s.buf1.cap) :
    exec .olarun s = .next ((olaDone s.num s).emit [okWord (olaCount s * s.S)]) :=
  exec_of_respond hr rfl (by rw [olaRun_of_ok hroom, Run.bind_done])

theorem exec_olarun_of_overflow (hfull : s.buf1.cap < s.size .b1 + olaCount s * s.S) :
    exec .olarun s = .next (faultedBy s 0x22 .b1 .overflow (olaCount s * s.S)) :=
  exec_of_raised hr rfl (by rw [olaRun_of_overflow hfull, Run.bind_raised])

end

/-! ## Element after element: each writes the one slot it stands on -/

/-- Fewer than `A` elements apart, two elements of a window stand on different slots (R161). -/
theorem accIndex_ne {s : State} {k k' : Nat} (pos : Nat) (hlt : k < k') (hnear : k' < k + s.A) :
    accIndex s pos k ≠ accIndex s pos k' := by
  intro h
  have hzero : (pos + k' - (pos + k)) % s.A = 0 := Nat.sub_mod_eq_zero_of_mod_eq h.symm
  rw [Nat.mod_eq_of_lt (by omega)] at hzero
  omega

/-- Element `k` of a window replaces the word of its slot by one that `v` makes of that word. -/
def Ola.put (s : State) (v : Nat → Option Word → Word) (o : Ola) (k : Nat) : Ola :=
  { o with acc := o.acc.write (accIndex s o.pos k) (v k (o.acc.read (accIndex s o.pos k))) }

/-- Over at most `A` consecutive elements the cursor stays, every slot stood on is replaced once, and the slots of the
elements behind them are as before. -/
theorem Ola.foldl_put {s : State} (v : Nat → Option Word → Word) (o : Ola) (b : Nat) {n : Nat} (hn : n ≤ s.A) :
    ((List.range' b n).foldl (Ola.put s v) o).pos = o.pos ∧
    ∀ k, b ≤ k → k < b + s.A → ((List.range' b n).foldl (Ola.put s v) o).acc.read (accIndex s o.pos k) =
      if k < b + n then some (v k (o.acc.read (accIndex s o.pos k))) else o.acc.read (accIndex s o.pos k) := by
  induction n with
  | zero => exact ⟨rfl, fun k hk _ => by rw [if_neg (by omega)]; rfl⟩
  | succ n ih =>
    obtain ⟨hpos, hread⟩ := ih (by omega)
    rw [List.range'_1_concat, List.foldl_append, List.foldl_cons, List.foldl_nil]
    refine ⟨hpos, fun k hb hk => ?_⟩
    rw [Ola.put, hpos, Memory.read_write, hread (b + n) (by omega) (by omega), if_neg (Nat.lt_irrefl _)]
    obtain hlt | rfl | hgt := Nat.lt_trichotomy k (b + n)
    · rw [if_neg (accIndex_ne o.pos hlt (by omega)), hread k hb hk, if_pos hlt, if_pos (by omega)]
    · rw [if_pos rfl, if_pos (by omega)]
    · rw [if_neg (accIndex_ne o.pos hgt (by omega)).symm, hread k hb hk, if_neg (by omega), if_neg (by omega)]

/-! ## One window (R161) -/

/-- What element `k` of window `w` leaves in a slot: in an internal segment the slot's word plus the product, in the
final segment the product. -/
def olaLeft (num : Numerics) (s : State) (w k : Nat) (r : Option Word) : Word :=
  if k < (s.D - 1) * s.S then
    num.fadd (tapDraw s.draws (w * s.WS + k) + 1) (r.getD (Config.freeWord (tapDraw s.draws (w * s.WS + k) + 2)))
      (olaProduct num s w k)
  else olaProduct num s w k

theorem olaAdd_eq_put (num : Numerics) {s : State} (w : Nat) (o : Ola) {k : Nat} (hk : k < (s.D - 1) * s.S) :
    olaAdd num s w o k = o.put s (olaLeft num s w) k := by
  rw [Ola.put, olaLeft, if_pos hk]
  rfl

theorem olaOverwrite_eq_put (num : Numerics) {s : State} (w : Nat) (o : Ola) {k : Nat} (hk : (s.D - 1) * s.S ≤ k) :
    olaOverwrite num s w o k = o.put s (olaLeft num s w) k := by
  rw [Ola.put, olaLeft, if_neg (by omega)]
  rfl

theorem A_pos {s : State} (hD : 2 ≤ s.D) (hS : 1 ≤ s.S) : 0 < s.A := Nat.mul_pos (by omega) hS

/-- The first segment and the accumulator's length make a window. -/
theorem WS_eq {s : State} (hD : 2 ≤ s.D) : s.WS = s.S + s.A := by
  rw [State.WS, State.A, Nat.add_comm, ← Nat.succ_mul, Nat.succ_eq_add_one, Nat.sub_add_cancel (by omega)]

/-- The internal segments and the final one are the `A` elements behind the first segment, in order. -/
theorem olaWindow_snd (num : Numerics) {s : State} (hD : 2 ≤ s.D) (w : Nat) (o : Ola) :
    (olaWindow num s w o).2 =
      { acc := ((List.range' s.S s.A).foldl (Ola.put s (olaLeft num s w)) o).acc, pos := (o.pos + s.S) % s.A } := by
  have hint : s.S + (s.D - 2) * s.S = (s.D - 1) * s.S := by
    rw [Nat.add_comm, ← Nat.succ_mul]
    congr 1
    omega
  have hsplit : List.range' s.S s.A = List.range' s.S ((s.D - 2) * s.S) ++ List.range' ((s.D - 1) * s.S) s.S := by
    rw [State.A, ← hint, List.range'_append_1, Nat.add_comm]
  have hadd (o : Ola) : (List.range' s.S ((s.D - 2) * s.S)).foldl (olaAdd num s w) o =
      (List.range' s.S ((s.D - 2) * s.S)).foldl (Ola.put s (olaLeft num s w)) o :=
    List.foldl_ext _ _ _ fun o k hk => olaAdd_eq_put num w o (by have := List.mem_range'_1.1 hk; omega)
  have hover (o : Ola) : (List.range' ((s.D - 1) * s.S) s.S).foldl (olaOverwrite num s w) o =
      (List.range' ((s.D - 1) * s.S) s.S).foldl (Ola.put s (olaLeft num s w)) o :=
    List.foldl_ext _ _ _ fun o k hk => olaOverwrite_eq_put num w o (List.mem_range'_1.1 hk).1
  have hpos := (Ola.foldl_put (s := s) (olaLeft num s w) o s.S (Nat.le_refl s.A)).1
  rw [olaWindow, ← List.range'_eq_map_range, ← List.range'_eq_map_range]
  simp only [hadd, hover, ← List.foldl_append, ← hsplit, hpos]

/-- A window moves the cursor on by one segment and replaces the word under each element behind the first segment. -/
theorem read_olaWindow (num : Numerics) {s : State} (hD : 2 ≤ s.D) (w : Nat) (o : Ola) {k : Nat} (hlo : s.S ≤ k)
    (hhi : k < s.WS) : (olaWindow num s w o).2.acc.read (accIndex s o.pos k) =
      some (olaLeft num s w k (o.acc.read (accIndex s o.pos k))) := by
  rw [WS_eq hD] at hhi
  rw [olaWindow_snd num hD, (Ola.foldl_put _ o s.S (Nat.le_refl s.A)).2 k hlo hhi, if_pos hhi]

/-! ## The window loop from a state -/

/-- The accumulator and the cursor before window `n` of a run. -/
def olaBefore (num : Numerics) (s : State) (n : Nat) : Ola :=
  (olaWindows num s { acc := s.acc, pos := s.accPos } n).2

/-- The word of slot `a` before window `n` of a run. -/
def accWord (num : Numerics) (s : State) (n a : Nat) : Word := (olaBefore num s n).acc.get a 0

section
variable (num : Numerics) {s : State}

/-- After `n` windows every element stands `n` segments further on (R161). -/
theorem accIndex_olaBefore (hD : 2 ≤ s.D) (n k : Nat) :
    accIndex s (olaBefore num s n).pos k = (s.accPos + n * s.S + k) % s.A := by
  induction n generalizing k with
  | zero => rw [Nat.zero_mul]; rfl
  | succ n ih =>
    have hpos : (olaBefore num s (n + 1)).pos = ((olaBefore num s n).pos + s.S) % s.A :=
      congrArg Ola.pos (olaWindow_snd num hD n (olaBefore num s n))
    have hnext := ih (s.S + k)
    rw [accIndex] at hnext
    rw [accIndex, hpos, Nat.mod_add_mod, Nat.add_assoc, hnext, Nat.succ_mul]
    congr 1
    omega

/-- The cursor after `n` windows (R161, R162). -/
theorem pos_olaBefore (hD : 2 ≤ s.D) (hpos : s.accPos < s.A) (n : Nat) :
    (olaBefore num s n).pos = (s.accPos + n * s.S) % s.A := by
  have hlt : (olaBefore num s n).pos < s.A :=
    (olaWindows_pos num s { acc := s.acc, pos := s.accPos } n (by omega)).elim (fun h => h.trans_lt hpos) id
  have hself := accIndex_olaBefore num hD n 0
  rwa [accIndex, Nat.add_zero, Nat.mod_eq_of_lt hlt] at hself

/-- No window writes beyond the accumulator's length. -/
theorem read_olaBefore_of_le (hA : 0 < s.A) (n : Nat) {a : Nat} (ha : s.A ≤ a) :
    (olaBefore num s n).acc.read a = s.acc.read a := by
  refine olaWindows_keeps (Q := fun o => o.acc.read a = s.acc.read a) num hA (fun o a' w ha' ho => ?_) (fun _ ho => ho)
    rfl n
  rw [Memory.read_write, if_neg (by omega)]
  exact ho

/-- A live accumulator stays live, so that its words are those of `accWord`. -/
theorem read_olaBefore (hA : 0 < s.A) (hlive : ∀ k, k < s.A → (s.acc.read k).isSome) (n : Nat) {a : Nat}
    (ha : a < s.A) : (olaBefore num s n).acc.read a = some (accWord num s n a) := by
  have hsome : ((olaBefore num s n).acc.read a).isSome := by
    refine olaWindows_keeps (Q := fun o => (o.acc.read a).isSome) num hA (fun o a' w ha' ho => ?_) (fun _ ho => ho)
      (hlive a ha) n
    rw [Memory.read_write]
    split
    · rfl
    · exact ho
  obtain ⟨w, hw⟩ := Option.isSome_iff_exists.1 hsome
  rw [accWord, Memory.get_of_read hw, hw]

section
variable (hD : 2 ≤ s.D) (hS : 1 ≤ s.S) (hlive : ∀ k, k < s.A → (s.acc.read k).isSome) (n : Nat)
include hD hS hlive

theorem read_olaBefore_slot (m k : Nat) : (olaBefore num s n).acc.read ((s.accPos + m * s.S + k) % s.A) =
    some (accWord num s n ((s.accPos + m * s.S + k) % s.A)) :=
  read_olaBefore num (A_pos hD hS) hlive n (Nat.mod_lt _ (A_pos hD hS))

/-- Every element behind the first segment leaves its word in the slot it stands on (R161). -/
theorem accWord_succ {k : Nat} (hlo : s.S ≤ k) (hhi : k < s.WS) :
    accWord num s (n + 1) ((s.accPos + n * s.S + k) % s.A) =
      olaLeft num s n k (some (accWord num s n ((s.accPos + n * s.S + k) % s.A))) := by
  have hread := read_olaWindow num hD n (olaBefore num s n) hlo hhi
  rw [accIndex_olaBefore num hD, read_olaBefore_slot num hD hS hlive] at hread
  exact Memory.get_of_read hread 0

/-- (b) of R161: an internal segment is added to the accumulator. -/
theorem accWord_succ_of_internal {k : Nat} (hlo : s.S ≤ k) (hhi : k < (s.D - 1) * s.S) :
    accWord num s (n + 1) ((s.accPos + n * s.S + k) % s.A) =
      num.fadd (tapDraw s.draws (n * s.WS + k) + 1) (accWord num s n ((s.accPos + n * s.S + k) % s.A))
        (olaProduct num s n k) := by
  have hWS := WS_eq hD
  rw [accWord_succ num hD hS hlive n hlo (by rw [State.A] at hWS; omega), olaLeft, if_pos hhi, Option.getD_some]

/-- (c) of R161: the final segment overwrites the accumulator. -/
theorem accWord_succ_of_final {k : Nat} (hlo : (s.D - 1) * s.S ≤ k) (hhi : k < s.WS) :
    accWord num s (n + 1) ((s.accPos + n * s.S + k) % s.A) = olaProduct num s n k := by
  have hseg : 1 * s.S ≤ (s.D - 1) * s.S := Nat.mul_le_mul_right _ (by omega)
  rw [accWord_succ num hD hS hlive n (by omega) hhi, olaLeft, if_neg (by omega)]

/-- (a) of R161: the first segment's products and the accumulator are emitted. -/
theorem olaEmit_olaBefore (i : Nat) : olaEmit num s n (olaBefore num s n) i =
    num.fadd (tapDraw s.draws (n * s.WS + i) + 1) (olaProduct num s n i)
      (accWord num s n ((s.accPos + n * s.S + i) % s.A)) := by
  simp only [olaEmit]
  rw [accIndex_olaBefore num hD, Memory.get_of_read (read_olaBefore_slot num hD hS hlive n n i)]

end

/-- The samples a run emits are those of its windows, in order (R161). -/
theorem olaWindows_output (o : Ola) {wc n i : Nat} (hn : n < wc) (hi : i < s.S) :
    (olaWindows num s o wc).1[n * s.S + i]? = some (olaEmit num s n (olaWindows num s o n).2 i) := by
  induction wc with
  | zero => exact absurd hn (Nat.not_lt_zero n)
  | succ wc ih =>
    rw [olaWindows]
    obtain hlt | rfl := Nat.lt_succ_iff_lt_or_eq.1 hn
    · rw [List.getElem?_append_left (by rw [olaWindows_length]; exact phase_index_lt hlt hi), ih hlt]
    · rw [List.getElem?_append_right (by rw [olaWindows_length]; omega), olaWindows_length, Nat.add_sub_cancel_left,
        olaWindow, List.getElem?_map, List.getElem?_range hi, Option.map_some]

/-- Where the sample and the window coefficient are written, no draw enters a product but as a NaN result (R161). -/
theorem olaProduct_of_written {n k : Nat} {u v : Word} (hu : s.buf0.data? (n * s.WS + k) = some u)
    (hv : s.win.read k = some v) : olaProduct num s n k = num.fmul (tapDraw s.draws (n * s.WS + k)) u v := by
  simp only [olaProduct]
  rw [data_of_data? (b := .b0) hu, Memory.get_of_read hv]

end

/-! ## The state a completed run leaves -/

section
variable (num : Numerics) (s : State)

theorem olaDone_acc : (olaDone num s).acc = (olaBefore num s (olaCount s)).acc := rfl

theorem olaDone_accPos : (olaDone num s).accPos = (olaBefore num s (olaCount s)).pos := rfl

theorem olaDone_buf0 : (olaDone num s).buf0 = s.buf0.consume (olaCount s * s.WS) := rfl

theorem olaDone_buf1 : (olaDone num s).buf1 = s.buf1.appended (olaCount s * s.S) (olaResult num s).1 := rfl

theorem olaDone_buf_of_ne {b : BufId} (hin : b ≠ .b0) (hout : b ≠ .b1) : (olaDone num s).buf b = s.buf b := by
  rw [olaDone, State.buf_setBuf_of_ne _ _ hin, State.buf_advance, State.buf_setAcc, State.buf_setBuf_of_ne _ _ hout]

theorem olaDone_resp : (olaDone num s).resp = s.resp := by
  rw [olaDone, State.setBuf_resp, State.advance_resp, State.setAcc_resp, State.setBuf_resp]

theorem olaDone_emit_frame (ws : List Word) : OnlyBuffersAndAccDiffer s ((olaDone num s).emit ws) := by
  cases s
  rfl

/-- A run leaves less than one window in buffer 0 (R161). -/
theorem size_b0_olaDone : (olaDone num s).size .b0 = s.size .b0 % s.WS := by
  have hsize : (olaDone num s).size .b0 = s.size .b0 - olaCount s * s.WS := Buf.size_consume ..
  rw [hsize, olaCount, Nat.mod_eq_sub_div_mul]

variable {s} (hord : s.buf1.ds ≤ s.buf1.de)
include hord

theorem size_b1_olaDone : (olaDone num s).size .b1 = s.size .b1 + olaCount s * s.S := Buf.size_appended hord ..

/-- The samples that waited in buffer 1 stay. -/
theorem olaDone_keeps_outputs {k : Nat} (hk : k < s.size .b1) : (olaDone num s).buf1.data? k = s.buf1.data? k := by
  have hk : k < s.buf1.size := hk
  rw [olaDone_buf1, Buf.data?_appended hord, if_neg (by omega)]

/-- The new samples of buffer 1 are those the windows emit, in order (R161). -/
theorem olaDone_output {n i : Nat} (hn : n < olaCount s) (hi : i < s.S) :
    (olaDone num s).buf1.data? (s.size .b1 + (n * s.S + i)) = some (olaEmit num s n (olaBefore num s n) i) := by
  have hb1 : s.size .b1 = s.buf1.size := rfl
  have hlt := phase_index_lt hn hi
  rw [olaDone_buf1, Buf.data?_appended hord, hb1, if_pos (by omega), Nat.add_sub_cancel_left]
  exact olaWindows_output num _ hn hi

end

/-- Settles O36: a run that completes leaves `olaDone`, with `accWord` for the accumulator before each window, and every
other outcome is one fault. -/
theorem olarunRunsTheWindows : Obligations.OlarunRunsTheWindows := by
  refine ⟨rfl, fun s hr hD hS hpos _ hord1 hroom => ⟨_, exec_olarun_of_ok hr hroom, ?_⟩,
    fun s hr => exec_olarun_of_overflow hr, fun s hu => exec_ready_of_unconfigured hu rfl,
    fun s hf => exec_ready_of_faulted hf rfl⟩
  have hA := A_pos hD hS
  rw [size_emit, size_emit, State.emit_buf0, State.emit_buf1, State.emit_buf2, State.emit_buf3, State.emit_acc,
    State.emit_accPos, State.emit_resp, olaDone_acc, olaDone_accPos, olaDone_resp]
  refine ⟨rfl, fun a => read_olaBefore_of_le _ hA _, pos_olaBefore _ hD hpos _, Buf.discarded_consume ..,
    Buf.extended_appended hord1 .., size_b1_olaDone _ hord1, fun _ => olaDone_keeps_outputs _ hord1,
    size_b0_olaDone .., Buf.data?_consume _ _, olaDone_buf_of_ne (b := .b2) _ _ nofun nofun,
    olaDone_buf_of_ne (b := .b3) _ _ nofun nofun, olaDone_emit_frame .., fun x w hx hw hlive =>
    ⟨accWord s.num s, fun a ha => ⟨read_olaBefore s.num hA hlive 0 ha, read_olaBefore s.num hA hlive _ ha⟩,
      fun n hn => ?_⟩⟩
  have hproduct {k : Nat} (hk : k < s.WS) :
      olaProduct s.num s n k = s.num.fmul (tapDraw s.draws (n * s.WS + k)) (x (n * s.WS + k)) (w k) :=
    olaProduct_of_written s.num (hx _ ((phase_index_lt hn hk).trans_le (Nat.div_mul_le_self ..))) (hw k hk)
  have hWS : s.WS = s.S + (s.D - 1) * s.S := WS_eq hD
  refine ⟨fun i hi => ⟨tapDraw s.draws (n * s.WS + i) + 1, tapDraw s.draws (n * s.WS + i), ?_⟩,
    fun k hlo hhi => ⟨tapDraw s.draws (n * s.WS + k) + 1, tapDraw s.draws (n * s.WS + k), ?_⟩,
    fun k hlo hhi => ⟨tapDraw s.draws (n * s.WS + k), ?_⟩⟩
  · rw [olaDone_output _ hord1 hn hi, olaEmit_olaBefore s.num hD hS hlive, hproduct (by omega)]
  · rw [accWord_succ_of_internal s.num hD hS hlive n hlo hhi, hproduct (by omega)]
  · rw [accWord_succ_of_final s.num hD hS hlive n hlo hhi, hproduct hhi]

/-! ## The closed form in an exact arithmetic (R163) -/

/-- An arithmetic without draws whose addition is commutative and associative with `fzero` neutral. -/
structure Numerics.Exact (num : Numerics) : Prop where
  fadd_draw : ∀ d d' a b, num.fadd d a b = num.fadd d' a b
  fmul_draw : ∀ d d' a b, num.fmul d a b = num.fmul d' a b
  comm : ∀ d a b, num.fadd d a b = num.fadd d b a
  assoc : ∀ d a b c, num.fadd d (num.fadd d a b) c = num.fadd d a (num.fadd d b c)
  zero : ∀ d a, num.fadd d num.fzero a = a

/-- What the window `q` before window `n` adds to sample `i` of window `n`: element `i` of its segment `q`. -/
def grain (num : Numerics) (s : State) (x w : Nat → Word) (n i q : Nat) : Word :=
  num.fmul 0 (x ((n - q) * s.WS + (q * s.S + i))) (w (q * s.S + i))

/-- The sum of the last `m` windows' shares of sample `i` of window `n`, the newest first. -/
def grainSum (num : Numerics) (s : State) (x w : Nat → Word) (n i m : Nat) : Word :=
  (List.range m).foldl (fun a q => num.fadd 0 a (grain num s x w n i q)) num.fzero

theorem grainSum_succ (num : Numerics) (s : State) (x w : Nat → Word) (n i m : Nat) :
    grainSum num s x w n i (m + 1) = num.fadd 0 (grainSum num s x w n i m) (grain num s x w n i m) := by
  rw [grainSum, List.range_succ, List.foldl_append]
  rfl

/-- Segment `q` of the window `q` before window `n` stands on the slots of window `n`'s first segment. -/
theorem slot_of_earlier (s : State) {n q : Nat} (i : Nat) (hq : q ≤ n) :
    s.accPos + (n - q) * s.S + (q * s.S + i) = s.accPos + n * s.S + i := by
  have hsum : (n - q) * s.S + q * s.S = n * s.S := by rw [← Nat.add_mul, Nat.sub_add_cancel hq]
  omega

section
variable {num : Numerics} (he : num.Exact) {s : State} {x w : Nat → Word} (hD : 2 ≤ s.D) (hS : 1 ≤ s.S)
  (hlive : ∀ k, k < s.A → (s.acc.read k).isSome) {n i : Nat} (hi : i < s.S)
  (hprod : ∀ q, q ≤ n → q < s.D → olaProduct num s (n - q) (q * s.S + i) = grain num s x w n i q)
include he hD hS hlive hi hprod

/-- Going back over the windows that only added to the slot, the sample is what the newer ones added and the slot's word
before them. -/
theorem olaEmit_eq_partial {q : Nat} (hqn : q ≤ n) (hq : q < s.D - 1) :
    olaEmit num s n (olaBefore num s n) i =
      num.fadd 0 (grainSum num s x w n i (q + 1)) (accWord num s (n - q) ((s.accPos + n * s.S + i) % s.A)) := by
  induction q with
  | zero =>
    have hfirst := hprod 0 (Nat.zero_le n) (by omega)
    rw [Nat.sub_zero, Nat.zero_mul, Nat.zero_add] at hfirst
    rw [olaEmit_olaBefore num hD hS hlive, hfirst, he.fadd_draw _ 0, grainSum_succ, Nat.sub_zero]
    exact congrArg (num.fadd 0 · _) (he.zero 0 _).symm
  | succ q ih =>
    have hadded := accWord_succ_of_internal num hD hS hlive (n - (q + 1)) (k := (q + 1) * s.S + i)
      (by rw [Nat.succ_mul]; omega) (phase_index_lt hq hi)
    rw [slot_of_earlier s i hqn, hprod (q + 1) hqn (by omega), he.fadd_draw _ 0,
      show n - (q + 1) + 1 = n - q by omega] at hadded
    rw [ih (by omega) (by omega), hadded, he.comm 0 (accWord ..), ← he.assoc, ← grainSum_succ]

omit hlive in
/-- The oldest share is the word of a zero accumulator or the one that overwrote the slot. -/
theorem olaEmit_eq_grainSum (hzero : ∀ k, k < s.A → s.acc.read k = some num.fzero) :
    olaEmit num s n (olaBefore num s n) i = grainSum num s x w n i (min n (s.D - 1) + 1) := by
  have hlive (k : Nat) (hk : k < s.A) : (s.acc.read k).isSome := by rw [hzero k hk]; rfl
  obtain hlt | hle := Nat.lt_or_ge n (s.D - 1)
  · have hstart : accWord num s 0 ((s.accPos + n * s.S + i) % s.A) = num.fzero :=
      Memory.get_of_read (hzero _ (Nat.mod_lt _ (A_pos hD hS))) 0
    rw [olaEmit_eq_partial he hD hS hlive hi hprod (Nat.le_refl n) hlt, Nat.sub_self, hstart, he.comm, he.zero,
      Nat.min_eq_left (by omega)]
  · have hover := accWord_succ_of_final num hD hS hlive (n - (s.D - 1)) (k := (s.D - 1) * s.S + i)
      (Nat.le_add_right ..) (phase_index_lt (by omega) hi)
    rw [slot_of_earlier s i hle, hprod _ hle (by omega), show n - (s.D - 1) + 1 = n - (s.D - 2) by omega] at hover
    rw [olaEmit_eq_partial he hD hS hlive hi hprod (q := s.D - 2) (by omega) (by omega), hover,
      show s.D - 2 + 1 = s.D - 1 by omega, ← grainSum_succ, Nat.min_eq_right hle]

end

/-- Settles O37: followed back from its emission to its overwriting, a slot of the accumulator collects one share of
each window. -/
theorem overlapAddClosedForm : Obligations.OverlapAddClosedForm := by
  intro num s x w wc hadd hmul hcomm hassoc hzero hD hS _ hacc hx hw n i hn hi
  rw [olaWindows_output num _ hn hi]
  refine congrArg some (olaEmit_eq_grainSum (x := x) (w := w) ⟨hadd, hmul, hcomm, hassoc, hzero⟩ hD hS
    hi (fun q hqn hq => ?_) hacc)
  have hk : q * s.S + i < s.WS := phase_index_lt hq hi
  rw [olaProduct_of_written num (hx _ (phase_index_lt (by omega) hk)) (hw _ hk), hmul _ 0]
  rfl

end Sys2Proof.Machine
end

section
/-! PRIME, the oversize PROCESS, and PROCESS as its stage commands one after another (R170 to R172, R210, R218). -/

namespace Sys2Proof.Machine

/-! ## PRIME (R171) -/

section
variable {n : BitVec 24} {s : State} (hr : s.eng = .ready)
include hr

theorem exec_prime_of_le (h : s.size .b0 + n.toNat ≤ s.buf0.cap) : exec (.prime n) s =
    .next ((s.setBuf .b0 (s.buf0.appended n.toNat (List.replicate n.toNat s.num.fzero))).setPrimed.emit [0x00000000]) :=
  exec_of_data hr rfl (by rw [appendZeros, append_of_le _ h, Run.bind_done]; rfl)

theorem exec_prime_of_lt (h : s.buf0.cap < s.size .b0 + n.toNat) :
    exec (.prime n) s = .next (faultedBy s 0x30 .b0 .overflow n.toNat) :=
  exec_of_raised hr rfl (by rw [appendZeros, append_of_lt _ h, Run.bind_raised])

end

/-- Settles O38: PRIME is an append of zeros to buffer 0 that sets `PRIMED` at its end. -/
theorem primeAppendsZeros : Obligations.PrimeAppendsZeros := by
  intro n s
  refine ⟨rfl, fun hr hord hfit => ⟨_, exec_prime_of_le hr hfit, ?_⟩, exec_prime_of_lt,
    fun hu => exec_ready_of_unconfigured hu rfl, fun hf => exec_ready_of_faulted hf rfl⟩
  have hb0 : s.size .b0 = s.buf0.size := rfl
  refine ⟨rfl, rfl, Buf.size_appended hord .., Buf.extended_appended hord .., fun k hk => ?_, fun k hk => ?_, rfl, rfl,
    rfl, rfl⟩
  · exact (Buf.data?_appended hord ..).trans (if_neg (by omega))
  · refine (Buf.data?_appended hord ..).trans ?_
    rw [hb0, if_pos (by omega), Nat.add_sub_cancel_left, List.getElem?_replicate, if_pos hk]

/-! ## The run of a PROCESS -/

/-- The degraded path touches no buffer (R172 step 1). -/
theorem processRun_of_lt {num : Numerics} {count : Nat} {x : List Word} {s : State} (h : s.maxInCount < count) :
    processRun num count x s = .done { result := 0, data := List.replicate count num.fzero } s.setOversize := if_pos h

/-- Settles O39: the degraded path completes, with `OVERSIZE` set. -/
theorem oversizeProcessIsSilence : Obligations.OversizeProcessIsSilence := by
  intro n x s hr hlt
  have h := exec_of_data (i := .process n x) hr rfl (processRun_of_lt hlt)
  exact h

/-- The FIR's place in a PROCESS: its run with the highpass, nothing without it (R170). -/
def firStage (num : Numerics) (s : State) : Run Nat := if s.hpEn then firRun num s else .done 0 s

theorem firStage_of_hpEn {num : Numerics} {s : State} (hp : s.hpEn = true) : firStage num s = firRun num s := if_pos hp

theorem firStage_of_no_highpass {num : Numerics} {s : State} (hp : s.hpEn = false) : firStage num s = .done 0 s := by
  rw [firStage, hp]; rfl

theorem stagesRun_eq (num : Numerics) (s : State) : stagesRun num s =
    (olaRun num s).bind fun _ s1 => (firStage num s1).bind fun _ s2 => intRun num s2 := rfl

/-- The part of a PROCESS before its delivery: the append and the stages (R172 steps 1 and 2). -/
def chainRun (num : Numerics) (count : Nat) (x : List Word) (s : State) : Run Nat :=
  (append s .b0 count x).bind fun _ s1 => stagesRun num s1

theorem processRun_of_le {num : Numerics} {count : Nat} {x : List Word} {s : State} (h : count ≤ s.maxInCount) :
    processRun num count x s = (chainRun num count x s).bind fun _ s' => deliver num count s' := by
  rw [processRun, if_neg (by omega), chainRun]
  cases append s .b0 count x <;> rfl

/-! ## The delivery (R172 steps 3 and 4) -/

/-- The samples a delivery copies out of buffer 3, a draw for each slot that nothing has written. -/
def delivery (count : Nat) (s : State) : List Word :=
  (List.range (deliverCount count s)).map fun i => s.data .b3 i (s.draws + i)

/-- The data words of a PROCESS whose stages ended in `s`: the samples delivered, and `fzero` up to the count. -/
def outBlock (num : Numerics) (count : Nat) (s : State) : List Word :=
  delivery count s ++ List.replicate (count - deliverCount count s) num.fzero

section
variable (count : Nat) (s : State)

theorem delivery_length : (delivery count s).length = deliverCount count s := by
  rw [delivery, List.length_map, List.length_range]

theorem delivery_of_written {i : Nat} {w : Word} (hi : i < deliverCount count s) (hw : s.buf3.data? i = some w) :
    (delivery count s)[i]? = some w := by
  rw [delivery, List.getElem?_map, List.getElem?_range hi, Option.map_some, data_of_data? (b := .b3) hw]

theorem outBlock_length (num : Numerics) : (outBlock num count s).length = count := by
  have hk : deliverCount count s ≤ count := Nat.min_le_left ..
  rw [outBlock, List.length_append, delivery_length, List.length_replicate]; omega

theorem outBlock_zeros (num : Numerics) {j : Nat} (hk : deliverCount count s ≤ j) (hj : j < count) :
    (outBlock num count s)[j]? = some num.fzero := by
  rw [outBlock, List.getElem?_append_right (by rwa [delivery_length]), delivery_length, List.getElem?_replicate,
    if_pos (by omega)]

theorem delivered_buf3 : (delivered count s).buf3 = s.buf3.consume (deliverCount count s) := rfl

theorem delivered_buf_of_ne {b : BufId} (hb : b ≠ .b3) : (delivered count s).buf b = s.buf b := by
  rw [delivered, State.buf_setBuf_of_ne _ _ hb, State.buf_advance]
  split
  · rw [State.buf_setShort]
  · rfl

theorem delivered_resp : (delivered count s).resp = s.resp := by
  rw [delivered, State.setBuf_resp, State.advance_resp]
  split <;> rfl

/-- A delivery and its answer write nothing but buffer 3, the draw number, `SHORT`, `SHORTFALL` and the response. -/
theorem delivered_frame : { delivered count s with
    resp := s.resp, buf3 := s.buf3, short := s.short, shortfall := s.shortfall, draws := s.draws } = s := by
  unfold delivered
  split <;> rfl

theorem delivered_short_of_lt (hcount : count < 2 ^ 24) (h : deliverCount count s < count) :
    (delivered count s).short = true ∧ (delivered count s).shortfall.toNat = count - deliverCount count s := by
  rw [delivered, if_pos h]
  refine ⟨rfl, (BitVec.toNat_ofNat ..).trans ?_⟩
  omega

theorem delivered_short_of_eq (h : deliverCount count s = count) :
    (delivered count s).short = s.short ∧ (delivered count s).shortfall = s.shortfall := by
  rw [delivered, if_neg (by omega)]
  exact ⟨rfl, rfl⟩

end

section
variable {n : BitVec 24} {x : List Word} {s : State} (hr : s.eng = .ready) (hn : n.toNat ≤ s.maxInCount)
include hr hn

/-- A PROCESS whose stages complete answers with their output block, zeros behind it (R172). -/
theorem exec_process_of_done {a : Nat} {u : State} (hx : chainRun s.num n.toNat x s = .done a u) :
    exec (.process n x) s = .next ((delivered n.toNat u).emit
      (okWord (deliverCount n.toNat u) :: outBlock s.num n.toNat u)) := by
  rw [exec_eq_finish, body, whenReady_of_ready _ hr, processRun_of_le hn, hx, Run.bind_done, deliver_eq, finish_done]
  rfl

/-- A PROCESS one of whose stages raises takes that fault (R172, R210). -/
theorem exec_process_of_raised {trap : Trap} {u : State} (hx : chainRun s.num n.toNat x s = .raised trap u) :
    exec (.process n x) s = .next (u.takeFault 0x31 trap) := by
  rw [exec_eq_finish, body, whenReady_of_ready _ hr, processRun_of_le hn, hx, Run.bind_raised, finish_raised]
  rfl

end

/-! ## A stage inside PROCESS and the command that runs it alone -/

/-- `v` is met inside a command that began in `s`: still READY, nothing answered, the interface and the parameters as
they were. -/
abbrev Underway (s : State) : State → Prop :=
  KeepsRun.At fun v => v.resp = s.resp ∧ v.port = s.port ∧ v.params = s.params ∧ v.resetIn = s.resetIn

/-- A command that runs the piece `x` alone, behind the responses `ws` of the commands before it, ends in `t`: where the
piece ends, and with an answer or with the piece's fault taken. -/
inductive EndsAs {α : Type} (x : Run α) (ws : List Word) (t : State) : Prop
  | done {a : α} {v : State} {ws' : List Word} (hx : x = .done a v) (ht : t = v.emit ws')
  | raised {trap : Trap} {v : State} {op : BitVec 6} (hx : x = .raised trap v) (ht : t = (v.emit ws).takeFault op trap)

theorem Underway.ready {s v : State} (h : Underway s v) : v.eng = .ready := h.2

section
variable {α : Type} {x : Run α} {ws : List Word} {s u t : State}

theorem State.emit_nil (s : State) : s.emit [] = s := by rw [State.emit, List.append_nil]

theorem State.emit_emit (s : State) (ws ws' : List Word) : (s.emit ws).emit ws' = s.emit (ws ++ ws') := by
  rw [State.emit, State.emit, State.emit, List.append_assoc]

/-- A READY command whose body is the piece `x`, which writes no response, and an answer. -/
theorem endsAs_of_exec {i : Instr} {result : α → Nat} (hr : u.eng = .ready)
    (hb : body i (u.emit ws) = whenReady (u.emit ws) ((x.over (·.emit ws)).bind fun a => respond (result a)))
    (he : exec i (u.emit ws) = .next t) : EndsAs x ws t := by
  rw [exec_eq_finish, hb, whenReady_of_ready (s := u.emit ws) _ hr] at he
  cases x with
  | done a v => cases he; exact .done rfl (State.emit_emit ..)
  | raised trap v => cases he; exact .raised rfl rfl

theorem EndsAs.ready (h : EndsAs x ws t) (hx : x.Ends (Underway s)) (ht : t.eng = .ready) :
    ∃ a v ws', x = .done a v ∧ Underway s v ∧ t = v.emit ws' := by
  cases h with
  | done hd ht' => rw [hd] at hx; exact ⟨_, _, _, hd, hx, ht'⟩
  | raised _ ht' => rw [ht', State.takeFault_eng] at ht; cases ht

theorem EndsAs.faulted (h : EndsAs x ws t) (hx : x.Ends (Underway s)) (ht : t.eng = .faulted) :
    ∃ trap v op, x = .raised trap v ∧ Underway s v ∧ t = (v.emit ws).takeFault op trap := by
  cases h with
  | done hd ht' =>
    rw [hd] at hx
    rw [ht', State.emit_eng, Underway.ready hx] at ht; cases ht
  | raised hd ht' => rw [hd] at hx; exact ⟨_, _, _, hd, hx, ht'⟩

end

namespace Underway
variable {s v t : State} {ws : List Word}

theorem refl (hr : s.eng = .ready) : Underway s s := ⟨⟨rfl, rfl, rfl, rfl⟩, hr⟩

theorem resp_eq (h : Underway s v) : v.resp = s.resp := by
  obtain ⟨⟨hresp, -⟩, -⟩ := h
  exact hresp

theorem num_eq (h : Underway s v) : v.num = s.num := by
  obtain ⟨⟨-, -, hparams, -⟩, -⟩ := h
  rw [State.num, State.num, hparams]

variable (h : Underway s v)
include h

/-! Each piece of a PROCESS keeps `Underway`, and the command that runs it alone ends as it does. -/

theorem append_ends (n : Nat) (x : List Word) : (append v .b0 n x).Ends (Underway s) :=
  (keepsRun_interface s).append_ends h ..

theorem olaRun_ends : (olaRun s.num v).Ends (Underway s) := (keepsRun_interface s).olaRun_ends _ h

theorem firStage_ends : (firStage s.num v).Ends (Underway s) := by
  rw [firStage]
  split
  · exact (keepsRun_interface s).firRun_ends _ h
  · exact h

theorem intRun_ends : (intRun s.num v).Ends (Underway s) := (keepsRun_interface s).intRun_ends _ h

theorem append_endsAs {n : BitVec 24} {x : List Word} (he : exec (.append .b0 n x) v = .next t) :
    EndsAs (append v .b0 n.toNat x) [] t := by
  refine endsAs_of_exec (i := .append .b0 n x) (result := fun _ => 0) h.ready ?_ (by rwa [State.emit_nil])
  rw [body, append_emit]

theorem olarun_endsAs (he : exec .olarun (v.emit ws) = .next t) : EndsAs (olaRun s.num v) ws t := by
  refine endsAs_of_exec (result := id) h.ready ?_ he
  rw [body, olaRun_emit, State.num_emit, h.num_eq]
  rfl

/-- Without the highpass the stage is no command and leaves the state as it is. -/
theorem firrun_endsAs (he : if (v.emit ws).hpEn then exec .firrun (v.emit ws) = .next t else t = v.emit ws) :
    EndsAs (firStage s.num v) ws t := by
  rw [State.hpEn_emit] at he
  cases hp : v.hpEn with
  | true =>
    rw [hp, if_pos rfl] at he
    refine endsAs_of_exec (result := id) h.ready ?_ he
    rw [body_firrun_of_hpEn (by exact hp), firRun_emit, State.num_emit, h.num_eq, firStage_of_hpEn hp]
    rfl
  | false =>
    rw [hp, if_neg (by decide)] at he
    exact .done (firStage_of_no_highpass hp) he

theorem intrun_endsAs (he : exec .intrun (v.emit ws) = .next t) : EndsAs (intRun s.num v) ws t := by
  refine endsAs_of_exec (result := id) h.ready ?_ he
  rw [body, intRun_emit, State.num_emit, h.num_eq]
  rfl

end Underway

/-- Settles O40: each command leaves what the stage leaves inside PROCESS but for its response, and the delivery is read
off `delivered`. -/
theorem processRunsItsStages : Obligations.ProcessRunsItsStages := by
  intro n x s s1 s2 s3 s4 hr hn he1 hr1 he2 hr2 he3 hr3 he4 hr4
  have hu := Underway.refl hr
  obtain ⟨_, v1, ws1, hx1, hu1, rfl⟩ := (hu.append_endsAs he1).ready (hu.append_ends ..) hr1
  obtain ⟨_, v2, ws2, hx2, hu2, rfl⟩ := (hu1.olarun_endsAs he2).ready hu1.olaRun_ends hr2
  obtain ⟨_, v3, ws3, hx3, hu3, rfl⟩ := (hu2.firrun_endsAs he3).ready hu2.firStage_ends hr3
  obtain ⟨a, v4, ws4, hx4, hu4, rfl⟩ := (hu3.intrun_endsAs he4).ready hu3.intRun_ends hr4
  have hchain : chainRun s.num n.toNat x s = .done a v4 := by
    rw [chainRun, hx1, Run.bind_done, stagesRun_eq, hx2, Run.bind_done, hx3, Run.bind_done, hx4]
  refine ⟨_, delivery n.toNat v4, exec_process_of_done hr hn hchain, ?_⟩
  rw [delivery_length, size_emit]
  refine ⟨rfl, fun i w hi => delivery_of_written _ _ hi, ?_, delivered_buf3 .., delivered_short_of_lt _ _ n.isLt,
    delivered_short_of_eq _ _, ?_⟩
  · rw [State.emit_resp, delivered_resp, hu4.resp_eq, outBlock]
  · exact congrArg (State.emit · ws4) (delivered_frame n.toNat v4)

theorem takeFault_fault {v : State} (hr : v.eng = .ready) (op : BitVec 6) (trap : Trap) :
    (v.takeFault op trap).fault = faultWord op trap.buf.bits trap.cause := by
  rw [State.takeFault_of_not_faulted _ _ _ (by rw [hr]; decide), State.emit_fault, State.latchFault_fault]

/-- The same fault, taken by PROCESS and by the command of the stage behind the responses `ws` (R210). -/
theorem faultedAs_of_raised {n : BitVec 24} {x : List Word} {s u v t : State} {trap : Trap} {ws : List Word}
    {op : BitVec 6} (hr : s.eng = .ready) (hn : n.toNat ≤ s.maxInCount) (hu : Underway s u) (hv : Underway s v)
    (hx : chainRun s.num n.toNat x s = .raised trap v) (he : exec (.process n x) s = .next t) :
    FaultedAs s (u.emit ws) ((v.emit ws).takeFault op trap) t := by
  rw [exec_process_of_raised hr hn hx] at he
  cases he
  have hready := hv.ready
  have hfaulted : v.eng ≠ .faulted := by rw [hready]; decide
  refine ⟨State.takeFault_eng .., ?_, ?_, ?_, ?_, errWord trap.cause, ?_, ?_⟩
  · rw [takeFault_fault hready, faultOp_faultWord]
  · rw [takeFault_fault hready, takeFault_fault (v := v.emit ws) hready, faultBuf_faultWord, faultBuf_faultWord]
  · rw [takeFault_fault hready, takeFault_fault (v := v.emit ws) hready, faultCause_faultWord, faultCause_faultWord]
  · rw [State.takeFault_of_not_faulted _ _ _ hfaulted, State.takeFault_of_not_faulted (v.emit ws) _ _ hfaulted]
    rfl
  · rw [State.takeFault_resp, State.emit_resp, State.emit_resp, hu.resp_eq, hv.resp_eq]
  · rw [State.takeFault_resp, hv.resp_eq]

/-- Settles O41: up to the faulting stage the commands and PROCESS go through the same states, and the stage raises in
the same one. -/
theorem processEndsAtTheFaultingStage : Obligations.ProcessEndsAtTheFaultingStage := by
  intro n x s s1 s2 s3 s4 t hr hn he he1
  have hu := Underway.refl hr
  have hend1 := hu.append_endsAs he1
  refine ⟨fun hf => ?_, fun hr1 he2 => ?_⟩
  · obtain ⟨trap, v, op, hx, hv, rfl⟩ := hend1.faulted (hu.append_ends ..) hf
    have h := faultedAs_of_raised (ws := []) (op := op) hr hn hu hv (by rw [chainRun, hx, Run.bind_raised]) he
    rwa [State.emit_nil s] at h
  obtain ⟨_, v1, ws1, hx1, hu1, rfl⟩ := hend1.ready (hu.append_ends ..) hr1
  have hend2 := hu1.olarun_endsAs he2
  refine ⟨fun hf => ?_, fun hr2 he3 => ?_⟩
  · obtain ⟨trap, v, op, hx, hv, rfl⟩ := hend2.faulted hu1.olaRun_ends hf
    refine faultedAs_of_raised hr hn hu1 hv ?_ he
    rw [chainRun, hx1, Run.bind_done, stagesRun_eq, hx, Run.bind_raised]
  obtain ⟨_, v2, ws2, hx2, hu2, rfl⟩ := hend2.ready hu1.olaRun_ends hr2
  have hend3 := hu2.firrun_endsAs he3
  refine ⟨fun hf => ?_, fun hr3 he4 hf => ?_⟩
  · obtain ⟨trap, v, op, hx, hv, rfl⟩ := hend3.faulted hu2.firStage_ends hf
    refine faultedAs_of_raised hr hn hu2 hv ?_ he
    rw [chainRun, hx1, Run.bind_done, stagesRun_eq, hx2, Run.bind_done, hx, Run.bind_raised]
  obtain ⟨_, v3, ws3, hx3, hu3, rfl⟩ := hend3.ready hu2.firStage_ends hr3
  obtain ⟨trap, v, op, hx, hv, rfl⟩ := (hu3.intrun_endsAs he4).faulted hu3.intRun_ends hf
  refine faultedAs_of_raised hr hn hu3 hv ?_ he
  rw [chainRun, hx1, Run.bind_done, stagesRun_eq, hx2, Run.bind_done, hx3, Run.bind_done, hx]

end Sys2Proof.Machine
end

section
/-! PROCESS while streaming (R173, R233): with every history full, how many samples each stage moves, what room that
takes, and how many samples stay in the chain. -/

namespace Sys2Proof.Machine

/-! ## The frame of the stages -/

namespace OnlyBuffersAndAccDiffer
variable {s t u : State}

theorem trans (h : OnlyBuffersAndAccDiffer s t) (h' : OnlyBuffersAndAccDiffer t u) : OnlyBuffersAndAccDiffer s u := by
  have hback := congrArg (fun v : State => ({ v with
    buf0 := s.buf0, buf1 := s.buf1, buf2 := s.buf2, buf3 := s.buf3, resp := s.resp, draws := s.draws,
    acc := s.acc, accPos := s.accPos } : State)) h'
  exact hback.trans h

theorem of_buffers (h : OnlyBuffersDiffer s t) : OnlyBuffersAndAccDiffer s t := by
  have hback := congrArg (fun v : State => ({ v with acc := s.acc, accPos := s.accPos } : State)) h
  exact hback

theorem engine_eq (h : OnlyBuffersAndAccDiffer s t) : t.eng = s.eng ∧ t.primed = s.primed ∧ t.oversize = s.oversize :=
  have heng := congrArg State.eng h
  have hprimed := congrArg State.primed h
  have hoversize := congrArg State.oversize h
  ⟨heng, hprimed, hoversize⟩

theorem short_eq (h : OnlyBuffersAndAccDiffer s t) : t.short = s.short ∧ t.shortfall = s.shortfall :=
  have hshort := congrArg State.short h
  have hfall := congrArg State.shortfall h
  ⟨hshort, hfall⟩

theorem sameConfiguration (h : OnlyBuffersAndAccDiffer s t) : SameConfiguration s t := by
  have hback : SameConfiguration t s := by
    conv => rhs; rw [← h]
    exact sameConfiguration_update ..
  exact hback.symm

end OnlyBuffersAndAccDiffer

namespace SameConfiguration
variable {s t u : State}

theorem trans (h : SameConfiguration s t) (h' : SameConfiguration t u) : SameConfiguration s u := by
  obtain ⟨hp, hr, hhc, hhr, hic, hir, hwin⟩ := h
  obtain ⟨hp', hr', hhc', hhr', hic', hir', hwin'⟩ := h'
  exact ⟨hp'.trans hp, fun r hlt => (hr' r hlt).trans (hr r hlt), hhc'.trans hhc, hhr'.trans hhr, hic'.trans hic,
    hir'.trans hir, hwin'.trans hwin⟩

theorem WS_eq (h : SameConfiguration s t) : t.WS = s.WS := by rw [State.WS, State.WS, h.D_eq, h.S_eq]

end SameConfiguration

/-- No command of the READY state changes the configuration (R184). -/
theorem sameConfiguration_of_exec {i : Instr} {s t : State} (hi : Keeps.constructs i = false) (he : exec i s = .next t) :
    SameConfiguration s t :=
  (keeps_of_configurationKept (P := SameConfiguration s) fun _ _ hkept hs => hs.trans hkept.same).exec_keeps hi
    ⟨rfl, fun _ _ => rfl, rfl, rfl, rfl, rfl, rfl⟩ he

theorem SoundBuffers.orderedBuffers {s : State} (h : SoundBuffers s) : OrderedBuffers s := fun b => by
  obtain ⟨hsound, -⟩ := h
  exact (hsound b).ordered.1

/-! ## A piece that completes where there is room -/

/-- The piece raises only where `room` fails, and if it completes, `P` holds of the state it ends in. -/
def Run.CompletesIf {α : Type} (room : Prop) (P : State → Prop) : Run α → Prop
  | .done _ u => P u
  | .raised _ _ => ¬ room

theorem Run.CompletesIf.bind {α β : Type} {room : Prop} {P Q : State → Prop} {x : Run α} {f : α → State → Run β}
    (hx : x.CompletesIf room P) (hf : ∀ a u, P u → (f a u).CompletesIf room Q) : (x.bind f).CompletesIf room Q := by
  cases x with
  | done a u => exact hf a u hx
  | raised t u => exact hx

/-! ## The stages of one block -/

/-- The samples the Overlap-Adder emits once `n` more samples wait in buffer 0. -/
def emitted (n : Nat) (s : State) : Nat := (s.size .b0 + n) / s.WS * s.S

/-- The samples the windows take from buffer 0 and the rest are all that waited there. -/
theorem emitted_mul_add_mod (n : Nat) (s : State) :
    emitted n s * s.D + (s.size .b0 + n) % s.WS = s.size .b0 + n := by
  have hwindows : emitted n s * s.D = (s.size .b0 + n) / s.WS * s.WS := by
    rw [emitted, State.WS, Nat.mul_assoc, Nat.mul_comm s.S]
  rw [hwindows, Nat.mul_comm, Nat.div_add_mod]

/-- Each buffer takes what a PROCESS of `n` samples appends to it while streaming. -/
structure RoomFor (n : Nat) (s : State) : Prop where
  buf0 : s.size .b0 + n ≤ s.buf0.cap
  buf1 : s.size .b1 + emitted n s ≤ s.buf1.cap
  buf2 : s.hpEn = true → s.size .b2 + emitted n s ≤ s.buf2.cap
  buf3 : s.size .b3 + emitted n s * s.D ≤ s.buf3.cap

/-- The stages have brought `s` to `v`: nothing was answered, and nothing but buffers and the accumulator changed. -/
structure BroughtTo (s v : State) : Prop where
  frame : OnlyBuffersAndAccDiffer s v
  resp : v.resp = s.resp

/-- `v` is `s` with `n` more samples in buffer 0. -/
structure AfterAppend (n : Nat) (s v : State) : Prop extends BroughtTo s v where
  size0 : v.size .b0 = s.size .b0 + n
  buf1 : v.buf1 = s.buf1
  buf2 : v.buf2 = s.buf2
  buf3 : v.buf3 = s.buf3

/-- The Overlap-Adder has moved the whole windows on to buffer 1. -/
structure AfterOla (n : Nat) (s v : State) : Prop extends BroughtTo s v where
  size0 : v.size .b0 = (s.size .b0 + n) % s.WS
  size1 : v.size .b1 = s.size .b1 + emitted n s
  buf2 : v.buf2 = s.buf2
  buf3 : v.buf3 = s.buf3

/-- What the Overlap-Adder emitted lies behind the Interpolator's history, and the FIR's history is full. -/
structure AfterFir (n : Nat) (s v : State) : Prop extends BroughtTo s v where
  size0 : v.size .b0 = (s.size .b0 + n) % s.WS
  size1 : s.hpEn = true → v.size .b1 = s.LH - 1
  sizeIn : v.size s.intIn = s.R - 1 + emitted n s
  buf3 : v.buf3 = s.buf3

/-- The histories are full again, and `L` samples for each one the Overlap-Adder emitted lie ready in buffer 3. -/
structure AfterInt (n : Nat) (s v : State) : Prop extends BroughtTo s v where
  size0 : v.size .b0 = (s.size .b0 + n) % s.WS
  histories : HistoriesFull v
  size3 : v.size .b3 = s.size .b3 + emitted n s * s.D

section
variable (num : Numerics) {n : Nat} {s v : State} (hord : OrderedBuffers s)
include hord

theorem append_completesIf (x : List Word) : (append s .b0 n x).CompletesIf (RoomFor n s) (AfterAppend n s) := by
  by_cases hc : s.size .b0 + n ≤ s.buf0.cap
  · rw [append_of_le x hc]
    exact ⟨⟨rfl, rfl⟩, Buf.size_appended (hord .b0) .., rfl, rfl, rfl⟩
  · rw [append_of_lt x (Nat.lt_of_not_le hc)]
    exact fun hroom => hc hroom.buf0

theorem olaRun_completesIf (h : AfterAppend n s v) : (olaRun num v).CompletesIf (RoomFor n s) (AfterOla n s) := by
  have hc := h.frame.sameConfiguration
  have hcount : olaCount v * v.S = emitted n s := by rw [olaCount, h.size0, hc.WS_eq, hc.S_eq, emitted]
  have hsize1 : v.size .b1 = s.size .b1 := congrArg Buf.size h.buf1
  by_cases hroom : v.size .b1 + olaCount v * v.S ≤ v.buf1.cap
  · rw [olaRun_of_ok hroom]
    refine ⟨⟨h.frame.trans (olaDone_emit_frame num v []), (olaDone_resp ..).trans h.resp⟩, ?_, ?_,
      (olaDone_buf_of_ne (b := .b2) _ _ nofun nofun).trans h.buf2,
      (olaDone_buf_of_ne (b := .b3) _ _ nofun nofun).trans h.buf3⟩
    · rw [size_b0_olaDone, h.size0, hc.WS_eq]
    · rw [size_b1_olaDone _ (h.buf1 ▸ hord .b1), hsize1, hcount]
  · rw [olaRun_of_overflow (by omega)]
    rw [hsize1, hcount, h.buf1] at hroom
    exact fun hall => hroom hall.buf1

variable (hl : ConfigLegal s) (hh : HistoriesFull s)
include hl hh

theorem firStage_completesIf (h : AfterOla n s v) : (firStage num v).CompletesIf (RoomFor n s) (AfterFir n s) := by
  have hc := h.frame.sameConfiguration
  obtain ⟨-, -, -, -, -, -, -, hfir, -⟩ := hl
  obtain ⟨hin, hfirst⟩ := hh
  cases hp : s.hpEn with
  | false =>
    rw [firStage_of_no_highpass (hc.hpEn_eq.trans hp)]
    rw [State.intIn, hp] at hin
    refine ⟨h.toBroughtTo, h.size0, fun hp' => (by rw [hp] at hp'; cases hp'), ?_, h.buf3⟩
    rw [State.intIn, hp]
    exact h.size1.trans (congrArg (· + emitted n s) hin)
  | true =>
    rw [State.intIn, hp] at hin
    have hL : 1 ≤ v.LH := hc.LH_eq ▸ (hfir hp).1
    have hsize1 : v.size .b1 = v.LH - 1 + emitted n s := by rw [h.size1, hfirst hp, hc.LH_eq]
    have hsize2 : v.size .b2 = s.size .b2 := congrArg Buf.size h.buf2
    have hcount : firCount v = emitted n s := by rw [firCount, hsize1]; omega
    rw [firStage_of_hpEn (hc.hpEn_eq.trans hp)]
    by_cases hroom : v.size .b2 + firCount v ≤ v.buf2.cap
    · rw [firRun_of_ok hL (by omega) hroom]
      refine ⟨⟨h.frame.trans (.of_buffers (firDone_emit_frame num v [])), h.resp⟩, h.size0, fun _ => ?_, ?_, h.buf3⟩
      · rw [size_b1_firDone _ _ hL (by omega), hc.LH_eq]
      · rw [State.intIn, hp, if_pos rfl, size_b2_firDone _ (h.buf2 ▸ hord .b2), hsize2, hcount]
        exact congrArg (· + emitted n s) hin
    · rw [firRun_of_overflow (by omega) (by omega)]
      rw [hsize2, hcount, h.buf2] at hroom
      exact fun hall => hroom (hall.buf2 hp)

omit hh in
theorem intRun_completesIf (h : AfterFir n s v) : (intRun num v).CompletesIf (RoomFor n s) (AfterInt n s) := by
  have hc := h.frame.sameConfiguration
  obtain ⟨hD, -, -, -, -, -, hN, -⟩ := hl
  have hR : 1 ≤ v.R := hc.R_eq ▸ R_pos (by omega) hN
  have hsizeIn : v.size v.intIn = v.R - 1 + emitted n s := by rw [hc.intIn_eq, hc.R_eq, h.sizeIn]
  have hsize3 : v.size .b3 = s.size .b3 := congrArg Buf.size h.buf3
  have hcount : intCount v * v.D = emitted n s * s.D := by
    rw [hc.D_eq, show intCount v = emitted n s by rw [intCount, hsizeIn]; omega]
  by_cases hroom : v.size .b3 + intCount v * v.D ≤ v.buf3.cap
  · rw [intRun_of_ok hR (by omega) hroom]
    have hdone := (OnlyBuffersAndAccDiffer.of_buffers (intDone_frame num v)).sameConfiguration
    refine ⟨⟨h.frame.trans (.of_buffers (intDone_frame num v)), (intDone_resp ..).trans h.resp⟩, ?_, ⟨?_, fun hp => ?_⟩, ?_⟩
    · rw [State.size, intDone_buf_of_ne _ _ (intIn_ne_b0 v).symm (by decide)]
      exact h.size0
    · rw [hdone.intIn_eq, size_intIn_intDone _ _ hR (by omega), hdone.R_eq]
    · rw [hdone.hpEn_eq] at hp
      have hne : BufId.b1 ≠ v.intIn := by rw [State.intIn, hp]; decide
      rw [State.size, intDone_buf_of_ne _ _ hne (by decide), hdone.LH_eq, hc.LH_eq]
      exact h.size1 (hc.hpEn_eq ▸ hp)
    · rw [size_b3_intDone _ (h.buf3 ▸ hord .b3), hsize3, hcount]
  · rw [intRun_of_overflow (by omega) (by omega)]
    rw [hsize3, hcount, h.buf3] at hroom
    exact fun hall => hroom hall.buf3

/-- While streaming, the append and the stages complete where there is room, and fill the histories again. -/
theorem chainRun_completesIf (x : List Word) :
    (chainRun num n x s).CompletesIf (RoomFor n s) (AfterInt n s) := by
  refine (append_completesIf hord x).bind fun _ s1 h1 => ?_
  refine (olaRun_completesIf num hord h1).bind fun _ s2 h2 => ?_
  exact (firStage_completesIf num hord hl hh h2).bind fun _ s3 h3 => intRun_completesIf num hord hl h3

end

/-! ## After the delivery -/

theorem WS_pos {s : State} (hl : ConfigLegal s) : 0 < s.WS := by
  obtain ⟨hD, -, hS, -⟩ := hl
  exact Nat.mul_pos (by omega) hS

/-- A delivery does not touch a history. -/
theorem HistoriesFull.delivered {u : State} (h : HistoriesFull u) (n : Nat) : HistoriesFull (delivered n u) := by
  have hc : SameConfiguration u (Machine.delivered n u) := by
    unfold Machine.delivered
    split <;> exact sameConfiguration_update u ..
  obtain ⟨hin, hfir⟩ := h
  refine ⟨?_, fun hp => ?_⟩
  · rw [hc.intIn_eq, hc.R_eq, State.size, delivered_buf_of_ne _ _ (intIn_ne_b3 u)]
    exact hin
  · rw [hc.LH_eq, State.size, delivered_buf_of_ne _ _ (by decide)]
    exact hfir (hc.hpEn_eq ▸ hp)

theorem HistoriesFull.emit {u : State} (h : HistoriesFull u) (ws : List Word) : HistoriesFull (u.emit ws) := by
  simpa [HistoriesFull] using h

theorem delivered_engine (n : Nat) (u : State) : (delivered n u).eng = u.eng ∧ (delivered n u).primed = u.primed ∧
    (delivered n u).oversize = u.oversize := by
  have heng := congrArg State.eng (delivered_frame n u)
  have hprimed := congrArg State.primed (delivered_frame n u)
  have hoversize := congrArg State.oversize (delivered_frame n u)
  exact ⟨heng, hprimed, hoversize⟩

section
variable {n : Nat} {s u : State} (h : AfterInt n s u)
include h

/-- The stages lose no sample: what was in the chain and the block are in buffers 0 and 3 (R173). -/
theorem AfterInt.inChain : u.size .b0 + u.size .b3 = s.size .b0 + s.size .b3 + n := by
  have hmoved := emitted_mul_add_mod n s
  rw [h.size0, h.size3]; omega

/-- Less than one window waits in buffer 0. -/
theorem AfterInt.size0_lt (hl : ConfigLegal s) : u.size .b0 < s.WS := by
  rw [h.size0]
  exact Nat.mod_lt _ (WS_pos hl)

/-- What stays in the chain after the delivery. -/
theorem AfterInt.inChain_delivered : (delivered n u).size .b0 + (delivered n u).size .b3 + deliverCount n u =
    s.size .b0 + s.size .b3 + n := by
  have hk : deliverCount n u ≤ u.size .b3 := Nat.min_le_right ..
  have hsize0 : (delivered n u).size .b0 = u.size .b0 := congrArg Buf.size (delivered_buf_of_ne n u (by decide))
  have hsize3 : (delivered n u).size .b3 = u.size .b3 - deliverCount n u := Buf.size_consume ..
  rw [hsize0, hsize3, ← h.inChain]; omega

/-- A whole block leaves as many samples in the chain as it found; a short one empties buffer 3. -/
theorem AfterInt.inChain_delivered_le {z : Nat} (hl : ConfigLegal s) (hz : s.size .b0 + s.size .b3 ≤ z)
    (hWS : s.WS - 1 ≤ z) : (delivered n u).size .b0 + (delivered n u).size .b3 ≤ z := by
  have hlt := h.size0_lt hl
  have hsum := h.inChain
  have hkept := h.inChain_delivered
  have hk : deliverCount n u = min n (u.size .b3) := rfl
  omega

/-- With `WS − 1` samples in the chain the block is never short (R173). -/
theorem AfterInt.deliverCount_eq (hl : ConfigLegal s) (hz : s.WS - 1 ≤ s.size .b0 + s.size .b3) :
    deliverCount n u = n := by
  have hlt := h.size0_lt hl
  have hsum := h.inChain
  exact Nat.min_eq_left (by omega)

end

/-- Settles O43: while streaming, the stages keep the count of the chain and leave less than a window of it in
buffer 0. -/
theorem primedChainIsNeverShort : Obligations.PrimedChainIsNeverShort := by
  intro n x s t z hr hsound hready hn hh hz hWS he ht
  obtain ⟨hl, -, -⟩ := hready hr
  have hchain := chainRun_completesIf s.num hsound.orderedBuffers hl hh (n := n.toNat) x
  cases hx : chainRun s.num n.toNat x s with
  | raised trap u =>
    rw [exec_process_of_raised hr hn hx] at he
    cases he
    rw [State.takeFault_eng] at ht; cases ht
  | done a u =>
    rw [hx] at hchain
    have hu : AfterInt n.toNat s u := hchain
    have hcount : deliverCount n.toNat u = n.toNat := hu.deliverCount_eq hl (hz ▸ hWS)
    have hkept := hu.inChain_delivered
    obtain ⟨hshort, hfall⟩ := delivered_short_of_eq _ _ hcount
    rw [exec_process_of_done hr hn hx, hcount] at he
    cases he
    refine ⟨⟨outBlock s.num n.toNat u, outBlock_length .., ?_⟩, ?_, ?_, (hu.histories.delivered _).emit _, ?_⟩
    · rw [State.emit_resp, delivered_resp, hu.resp]
    · exact hshort.trans hu.frame.short_eq.1
    · exact hfall.trans hu.frame.short_eq.2
    · rw [InChain] at hz ⊢
      rw [size_emit, size_emit]; omega

/-! ## The capacities of R233 -/

theorem emitted_le_mostEmitted {n z : Nat} {s : State} (hn : n ≤ s.maxInCount) (hz : s.size .b0 ≤ z) :
    emitted n s ≤ mostEmitted s z := by
  rw [emitted, mostEmitted, Nat.mul_comm]
  exact Nat.mul_le_mul_left _ (Nat.div_le_div_right (by omega))

/-- The capacities of R233 are room for any block within `MAX_IN`. -/
theorem roomFor_of_capacitiesSuffice {n z : Nat} {s : State} (hh : HistoriesFull s) (hcap : CapacitiesSuffice s z)
    (hn : n ≤ s.maxInCount) (hz : s.size .b0 + s.size .b3 ≤ z) : RoomFor n s := by
  obtain ⟨hin, hfir⟩ := hh
  obtain ⟨hcap0, hcap1, hcap2, hcap3⟩ := hcap
  have hmost := emitted_le_mostEmitted hn (Nat.le_of_add_right_le hz)
  have hmoved := emitted_mul_add_mod n s
  have hsize1 : s.size .b1 = historyOfA s := by
    rw [historyOfA]
    cases hp : s.hpEn with
    | true => exact hfir hp
    | false => rw [State.intIn, hp] at hin; exact hin
  refine ⟨by omega, by omega, fun hp => ?_, by omega⟩
  have hsize2 : s.size .b2 = s.R - 1 := by rw [State.intIn, hp] at hin; exact hin
  have hfits := hcap2 hp
  omega

/-- With the configuration the capacities stay, and with them the premise of R233. -/
theorem CapacitiesSuffice.of_sameConfiguration {s t : State} {z : Nat} (h : CapacitiesSuffice s z)
    (hc : SameConfiguration s t) (hcap : ∀ b, (t.buf b).cap = (s.buf b).cap) : CapacitiesSuffice t z := by
  have h0 : t.buf0.cap = s.buf0.cap := hcap .b0
  have h1 : t.buf1.cap = s.buf1.cap := hcap .b1
  have h2 : t.buf2.cap = s.buf2.cap := hcap .b2
  have h3 : t.buf3.cap = s.buf3.cap := hcap .b3
  simpa only [CapacitiesSuffice, historyOfA, mostEmitted, h0, h1, h2, h3, hc.maxInCount_eq, hc.hpEn_eq, hc.LH_eq,
    hc.R_eq, hc.S_eq, hc.WS_eq] using h

/-- While READY the capacities are those of the configuration (R22). -/
theorem cap_eq_of_readySound {s t : State} (hs : ReadySound s) (ht : ReadySound t) (hrs : s.eng = .ready)
    (hrt : t.eng = .ready) (hc : SameConfiguration s t) (b : BufId) : (t.buf b).cap = (s.buf b).cap := by
  obtain ⟨-, hcaps, -⟩ := hs hrs
  obtain ⟨-, hcapt, -⟩ := ht hrt
  rw [hcaps, hcapt, hc.capMul_eq, hc.maxInCount_eq]

/-- Settles O42: the capacities leave room for every stage, a short block has emptied buffer 3, and the invariants and
the configuration are kept by every command of READY. -/
theorem processWithRoomCompletes : Obligations.ProcessWithRoomCompletes := by
  intro n x s z hr hsound hready _ hn hh hz hWS hcap
  obtain ⟨hl, -, -⟩ := hready hr
  have hroom := roomFor_of_capacitiesSuffice hh hcap hn hz
  have hchain := chainRun_completesIf s.num hsound.orderedBuffers hl hh (n := n.toNat) x
  cases hx : chainRun s.num n.toNat x s with
  | raised trap u => rw [hx] at hchain; exact absurd hroom hchain
  | done a u =>
    rw [hx] at hchain
    have hu : AfterInt n.toNat s u := hchain
    have he := exec_process_of_done hr hn hx
    obtain ⟨heng, hprimed, hoversize⟩ := delivered_engine n.toNat u
    obtain ⟨heng', hprimed', hoversize'⟩ := hu.frame.engine_eq
    obtain ⟨hshort', hfall'⟩ := hu.frame.short_eq
    have hready' := ReadySound.keepsStep.exec_keeps hready he
    have hrt := (heng.trans heng').trans hr
    have hc := sameConfiguration_of_exec rfl he
    refine ⟨_, deliverCount n.toNat u, outBlock s.num n.toNat u, he, hrt, Nat.min_le_left .., ?_, outBlock_length ..,
      fun _ => outBlock_zeros _ _ _, SoundBuffers.keepsStep.exec_keeps hsound he, hready',
      (hu.histories.delivered _).emit _, ?_, hcap.of_sameConfiguration hc (cap_eq_of_readySound hready hready' hr hrt hc),
      hc, delivered_short_of_lt _ _ n.isLt, fun heq => ?_, hprimed.trans hprimed', hoversize.trans hoversize'⟩
    · rw [State.emit_resp, delivered_resp, hu.resp]
    · rw [size_emit, size_emit]
      exact hu.inChain_delivered_le hl hz hWS
    · obtain ⟨hshort, hfall⟩ := delivered_short_of_eq _ _ heq
      exact ⟨hshort.trans hshort', hfall.trans hfall'⟩

end Sys2Proof.Machine
end

section
/-! The control commands (R180 to R188): a command of UNCONFIGURED in each engine state, and what NOP, GETCFG, SETCFG,
the three loads and BUILD's checks answer. -/

namespace Sys2Proof.Machine

/-! ## A command of UNCONFIGURED in each engine state -/

section
variable {i : Instr} {s : State} {info : Nat} {x : Run Answer} (hb : body i s = whenUnconfigured info s x)
include hb

/-- In UNCONFIGURED it completes as its run does (R86). -/
theorem exec_unconfigured_of_respond {u : State} (hu : s.eng = .unconfigured) (hx : x = respond 0 u) :
    exec i s = .next (u.emit [0x00000000]) := by
  rw [exec_eq_finish, hb, whenUnconfigured_of_unconfigured _ _ hu, hx, finish_respond, okWord_zero]

/-- In UNCONFIGURED, if its run raises before it changed anything, it only takes the fault (R210). -/
theorem exec_unconfigured_of_raised {c : Cause} {b : BufId} {k : Nat} (hu : s.eng = .unconfigured)
    (hx : x = .raised { cause := c, buf := b, info := k } s) : exec i s = .next (faultedBy s i.opcode b c k) := by
  rw [exec_eq_finish, hb, whenUnconfigured_of_unconfigured _ _ hu, hx, finish_raised,
    State.takeFault_of_not_faulted _ _ _ (by rw [hu]; decide)]
  rfl

/-- Elsewhere it raises `State(0, info)` before it changed anything (R189). -/
theorem exec_unconfigured_of_ne (hne : s.eng ≠ .unconfigured) :
    exec i s = .next (s.takeFault i.opcode { cause := .state, buf := .b0, info := info }) := by
  rw [exec_eq_finish, hb, whenUnconfigured_of_ne _ _ hne, finish_raised]

/-- In READY it takes the fault `State(0, info)` (R189, R204). -/
theorem exec_unconfigured_of_ready (hr : s.eng = .ready) :
    exec i s = .next (faultedBy s i.opcode .b0 .state info) := by
  rw [exec_unconfigured_of_ne hb (by rw [hr]; decide), takeFault_eq_faultedBy hr]

/-- In FAULTED it is refused (R211). -/
theorem exec_unconfigured_of_faulted (hf : s.eng = .faulted) : exec i s = .next (refusedIn s) := by
  rw [exec_unconfigured_of_ne hb (by rw [hf]; decide), State.takeFault_of_faulted _ _ _ hf]
  rfl

end

/-- The commands that construct the engine are those of UNCONFIGURED (R189). -/
theorem body_eq_whenUnconfigured {i : Instr} (hi : Keeps.constructs i = true) (hr : i ≠ .reset) (s : State) :
    ∃ info x, body i s = whenUnconfigured info s x := by
  cases i with
  | reset => exact absurd rfl hr
  | setcfg | ldhp | ldip | ldwin | build => exact ⟨_, _, rfl⟩
  | _ => cases hi

/-- After BUILD they only take a fault, or are refused (R184, R189). -/
theorem eq_takeFault_of_constructs {i : Instr} {s t : State} (hi : Keeps.constructs i = true) (hr : i ≠ .reset)
    (hne : s.eng ≠ .unconfigured) (he : exec i s = .next t) :
    ∃ info, t = s.takeFault i.opcode { cause := .state, buf := .b0, info := info } := by
  obtain ⟨info, x, hb⟩ := body_eq_whenUnconfigured hi hr s
  rw [exec_unconfigured_of_ne hb hne] at he
  cases he
  exact ⟨info, rfl⟩

theorem errWord_state : errWord .state = 0x84000000 := by decide

/-- Settles O12: each command waits for its engine state before its run begins. -/
theorem wrongStateTakesTheStateFault : Obligations.WrongStateTakesTheStateFault := by
  refine ⟨fun i s hu hi => ?_, fun s hr => ?_⟩
  · obtain ⟨_, _, rfl⟩ | ⟨_, _, _, rfl⟩ | ⟨_, _, _, rfl⟩ | ⟨_, _, rfl⟩ | ⟨_, _, rfl⟩ | ⟨_, rfl⟩ | ⟨_, _, rfl⟩ |
      ⟨_, rfl⟩ | ⟨_, rfl⟩ | rfl | rfl | rfl | ⟨_, rfl⟩ | ⟨_, _, rfl⟩ := hi <;>
    exact exec_ready_of_unconfigured hu rfl
  · exact ⟨fun _ _ => exec_unconfigured_of_ready rfl hr, fun _ _ => exec_unconfigured_of_ready rfl hr,
      fun _ _ => exec_unconfigured_of_ready rfl hr, fun _ _ => exec_unconfigured_of_ready rfl hr,
      exec_unconfigured_of_ready rfl hr, exec_firrun_of_no_highpass hr⟩

/-- Settles O14: outside UNCONFIGURED a command that constructs the engine only takes a fault, and no other but RESET
writes the configuration. -/
theorem configurationImmutableOnceReady : Obligations.ConfigurationImmutableOnceReady := by
  refine ⟨fun i s t hne hr he => ?_, fun i s t hne hi he => ?_⟩
  · cases hi : Keeps.constructs i with
    | false => exact sameConfiguration_of_exec hi he
    | true =>
      obtain ⟨info, rfl⟩ := eq_takeFault_of_constructs hi hr hne he
      exact sameConfiguration_takeFault ..
  · have ⟨hc, hr⟩ : Keeps.constructs i = true ∧ i ≠ .reset := by
      obtain ⟨_, _, rfl⟩ | ⟨_, _, rfl⟩ | ⟨_, _, rfl⟩ | ⟨_, _, rfl⟩ | rfl := hi <;> exact ⟨rfl, (nomatch ·)⟩
    obtain ⟨info, rfl⟩ := eq_takeFault_of_constructs hc hr hne he
    exact ⟨State.takeFault_eng .., by rw [State.takeFault_resp, errWord_state]⟩

/-! ## NOP and GETCFG (R180, R183) -/

/-- Settles O17: neither command's run does anything. -/
theorem nopAndGetcfgOnlyAnswer : Obligations.NopAndGetcfgOnlyAnswer := by
  refine ⟨by decide, fun r s => ⟨?_, ?_, ?_⟩⟩
  · cases r <;> decide
  · rw [exec_eq_finish, body, finish_respond, okWord_zero]
    rfl
  · rw [exec_eq_finish, body, finish_done, okWord_zero]
    rfl

/-! ## SETCFG (R29, R182) -/

/-- A response is in no register. -/
@[simp] theorem readCfg_emit (s : State) (ws : List Word) (r : CfgReg) : (s.emit ws).readCfg r = s.readCfg r := by
  cases r <;> rfl

/-- SETCFG leaves every other register, the read-only ones too (R182). -/
theorem readCfg_writeCfg_of_ne (s : State) {r r' : CfgReg} (v : Word) (h : r' ≠ r) :
    (s.writeCfg r v).readCfg r' = s.readCfg r' := by
  by_cases hw : regNum r' < 8
  · rw [readCfg_writeCfg s r r' v hw, if_neg h]
  · cases r'
    case maxIn | factor | segSize | ctrl | capMul0 | capMul1 | capMul2 | capMul3 => exact absurd (by decide) hw
    all_goals cases r <;> rfl

/-- SETCFG writes registers 0 to 7 only (R182). -/
theorem writeCfg_frame (s : State) (r : CfgReg) (v : Word) :
    { s.writeCfg r v with
      maxIn := s.maxIn, factor := s.factor, segSize := s.segSize, ctrl := s.ctrl, capMul0 := s.capMul0,
      capMul1 := s.capMul1, capMul2 := s.capMul2, capMul3 := s.capMul3 } = s := by
  cases r <;> rfl

theorem writeCfg_resp (s : State) (r : CfgReg) (v : Word) : (s.writeCfg r v).resp = s.resp := by cases r <;> rfl

theorem commandWord_setcfg (r : CfgReg) (v : Word) :
    (Instr.setcfg r v).commandWord = 0x08000000 ||| BitVec.ofNat 32 (regNum r) := by
  have word : cmdWord 0x02 0 (0#20 ++ r.bits) = 0x08000000 ||| BitVec.ofNat 32 (regNum r) := by cases r <;> decide
  exact word

/-- The masks of the writable registers (R30). -/
theorem writableMask_of_lt {r : CfgReg} (h : regNum r < 8) :
    writableMask r = if r = .factor then 0x00000007 else if r = .ctrl then 0x00000001 else 0x00FFFFFF := by
  cases r
  case hpLen | ipLen | winLen | status | fault | faultInfo | shortfall | accPos => exact absurd h (by decide)
  all_goals rfl

/-- Settles O19: the clauses are the two outcomes of the register check and the two states that do not reach it. -/
theorem setcfgStoresTheMaskedValue : Obligations.SetcfgStoresTheMaskedValue := by
  intro r v s
  refine ⟨congrArg (· :: [v]) (commandWord_setcfg r v), writableMask_of_lt, fun hu hw => ?_,
    fun hu hro => exec_unconfigured_of_raised rfl hu (if_pos hro), exec_unconfigured_of_ready rfl,
    exec_unconfigured_of_faulted rfl⟩
  refine ⟨_, exec_unconfigured_of_respond rfl hu (if_neg (Nat.not_le.2 hw)), ?_, fun r' hr' => ?_, ?_, ?_⟩
  · rw [readCfg_emit, readCfg_writeCfg s r r v hw, if_pos rfl]
  · rw [readCfg_emit, readCfg_writeCfg_of_ne s v hr']
  · rw [State.emit_resp, writeCfg_resp]
  · exact congrArg (fun u : State => { u with resp := s.resp }) (writeCfg_frame s r v)

/-! ## LDHP, LDIP and LDWIN (R185 to R187) -/

section
variable {i : Instr} {n : BitVec 24} {words : Nat} {s u : State} (hb : body i s = loadTable n words s u)
include hb

/-- A load of a vector that fits answers from the loaded state. -/
theorem exec_load_of_le (hu : s.eng = .unconfigured) (hfit : n.toNat ≤ words) :
    exec i s = .next (u.emit [0x00000000]) :=
  exec_unconfigured_of_respond hb hu (if_neg (Nat.not_lt.2 hfit))

/-- A load of a longer vector takes the fault `Config(0, n)` and writes nothing. -/
theorem exec_load_of_lt (hu : s.eng = .unconfigured) (hlong : words < n.toNat) :
    exec i s = .next (faultedBy s i.opcode .b0 .config n.toNat) :=
  exec_unconfigured_of_raised hb hu (if_pos hlong)

end

section
variable {n k : Nat} {ws : List Word} (hlen : ws.length = n) (m : Memory)
include hlen

theorem Memory.read_load_of_lt (hk : k < n) : (m.fill 0 (ws.take n)).read k = ws[k]? := by
  rw [Memory.read_fill, List.take_of_length_le hlen.le, hlen, if_pos ⟨Nat.zero_le k, by omega⟩, Nat.sub_zero]

/-- A load leaves the words of the RAM beyond its vector. -/
theorem Memory.read_load_of_le (hk : n ≤ k) : (m.fill 0 (ws.take n)).read k = m.read k := by
  rw [Memory.read_fill, List.take_of_length_le hlen.le, hlen, if_neg (by omega)]

end

/-- A count in a length register reads back (R36, R88). -/
theorem setWidth_toNat (n : BitVec 24) : (n.setWidth 32).toNat = n.toNat := by
  rw [BitVec.toNat_setWidth]; omega

/-- Settles O20: the load is a fill of `HC` from word 0 on. -/
theorem ldhpLoadsTheVector : Obligations.LdhpLoadsTheVector := by
  intro n ws s hlen
  refine ⟨rfl, fun hu hfit => ⟨_, exec_load_of_le rfl hu hfit, fun k hk => ?_, fun k hk => ?_, ?_, rfl, rfl⟩,
    exec_load_of_lt rfl, exec_unconfigured_of_ready rfl, exec_unconfigured_of_faulted rfl⟩
  · exact Memory.read_load_of_lt hlen s.hc hk
  · exact Memory.read_load_of_le hlen s.hc hk
  · exact setWidth_toNat n

/-- Settles O21: the load is a fill of `IC` from word 0 on. -/
theorem ldipLoadsTheVector : Obligations.LdipLoadsTheVector := by
  intro n ws s hlen
  refine ⟨rfl, fun hu hfit => ⟨_, exec_load_of_le rfl hu hfit, fun k hk => ?_, fun k hk => ?_, ?_, rfl, rfl⟩,
    exec_load_of_lt rfl, exec_unconfigured_of_ready rfl, exec_unconfigured_of_faulted rfl⟩
  · exact Memory.read_load_of_lt hlen s.ic hk
  · exact Memory.read_load_of_le hlen s.ic hk
  · exact setWidth_toNat n

/-- Settles O22: the load is a fill of `W` from word 0 on. -/
theorem ldwinLoadsTheWindow : Obligations.LdwinLoadsTheWindow := by
  intro n ws s hlen
  refine ⟨rfl, fun hu hfit => ⟨_, exec_load_of_le rfl hu hfit, fun k hk => ?_, fun k hk => ?_, ?_, rfl, rfl⟩,
    exec_load_of_lt rfl, exec_unconfigured_of_ready rfl, exec_unconfigured_of_faulted rfl⟩
  · exact Memory.read_load_of_lt hlen s.win hk
  · exact Memory.read_load_of_le hlen s.win hk
  · exact setWidth_toNat n

/-! ## BUILD's checks (R188) -/

/-- BUILD with a check that fails only takes the fault `Config` (R205, R209). -/
theorem exec_build_of_check {s : State} {b : BufId} {k : Nat} (hu : s.eng = .unconfigured)
    (h : buildCheck s = some (b, k)) : exec .build s = .next (faultedBy s 0x07 b .config k) :=
  exec_unconfigured_of_raised rfl hu (buildRun_of_check h)

/-- Check 4 fails for a buffer whose capacity is 0 words or more than its store holds. -/
theorem capBad_eq_true {s : State} {b : BufId} :
    capBad s b = true ↔ ¬ (s.capMul b ≠ 0 ∧ s.capMul b * s.maxInCount ≤ s.params.bufWords) := by
  rw [← Nat.one_le_iff_ne_zero, ← capBad_eq_false, Bool.not_eq_false]

/-- Settles O24: the checks are tried in their order, and the first that fails is reported. -/
theorem buildReportsTheFirstFailingCheck : Obligations.BuildReportsTheFirstFailingCheck := by
  intro s hu bad c1 c2 c3 c4 c4s c5 c6 c7 c8 c9
  have report {b : BufId} {k : Nat} (h : buildCheck s = some (b, k)) : bad b k := exec_build_of_check hu h
  have checks : buildCheck s =
      if ¬ c1 then some (.b0, 1)
      else if ¬ c2 then some (.b0, 2)
      else if ¬ c3 then some (.b0, 3)
      else if ¬ c4 .b0 then some (.b0, 4)
      else if ¬ c4 .b1 then some (.b1, 4)
      else if ¬ c4 .b2 then some (.b2, 4)
      else if ¬ c4 .b3 then some (.b3, 4)
      else if ¬ c5 then some (.b0, 5)
      else if ¬ c6 then some (.b0, 6)
      else if ¬ c7 then some (.b0, 7)
      else if ¬ c8 then some (.b0, 8)
      else if ¬ c9 then some (.b1, 9)
      else if s.capMul s.intIn * s.maxInCount < s.R - 1 then some (s.intIn, 9)
      else none := by
    simp only [buildCheck, capBad_eq_true, c1, c2, c3, c4, c5, c6, c7, c8, c9, Classical.not_imp, Decidable.not_not,
      Nat.not_le, ne_eq]
  rw [checks] at report
  refine ⟨fun h => ?_, fun h1 h => ?_, fun h1 h2 h => ?_, fun h1 h2 h3 h => ?_, fun h1 h2 h3 h4 h => ?_,
    fun h1 h2 h3 h4 h5 h => ?_, fun h1 h2 h3 h4 h5 h6 h => ?_, fun h1 h2 h3 ⟨h4, h5, h6, h7⟩ h => ?_,
    fun h1 h2 h3 ⟨h4, h5, h6, h7⟩ h8 h => ?_, fun h1 h2 h3 ⟨h4, h5, h6, h7⟩ h8 h9 h => ?_,
    fun h1 h2 h3 ⟨h4, h5, h6, h7⟩ h8 h9 h10 h => ?_, fun h1 h2 h3 ⟨h4, h5, h6, h7⟩ h8 h9 h10 h11 h => ?_,
    fun h1 h2 h3 ⟨h4, h5, h6, h7⟩ h8 h9 h10 h11 h12 h => ?_⟩ <;>
  exact report (by simp only [*, not_true_eq_false, not_false_eq_true, if_true, if_false])

end Sys2Proof.Machine
end

section
/-! The FAULTED state (R211, R212): what each command answers there, and that RESET alone leads out. -/

namespace Sys2Proof.Machine

section
variable {i : Instr} {s : State}

/-- The commands of READY are those that neither construct the engine nor run in every engine state (R189). -/
theorem body_eq_whenReady (hi : Keeps.constructs i = false) (hnop : i ≠ .nop) (hget : ∀ r, i ≠ .getcfg r) (s : State) :
    ∃ x, body i s = whenReady s x := by
  cases i with
  | nop => exact absurd rfl hnop
  | getcfg r => exact absurd rfl (hget r)
  | reset | setcfg | ldhp | ldip | ldwin | build => cases hi
  | _ => exact ⟨_, rfl⟩

theorem refusedIn_eq_emit (s : State) : refusedIn s = s.emit [0x84000000] := by
  rw [← errWord_state]
  rfl

/-- Every command but NOP, GETCFG and RESET waits for one of the other two engine states (R189), and so is refused in
FAULTED (R211). -/
theorem exec_of_faulted (hf : s.eng = .faulted) (hnop : i ≠ .nop) (hreset : i ≠ .reset) (hget : ∀ r, i ≠ .getcfg r) :
    exec i s = .next (s.emit [0x84000000]) := by
  rw [← refusedIn_eq_emit]
  cases hi : Keeps.constructs i with
  | true =>
    obtain ⟨info, x, hb⟩ := body_eq_whenUnconfigured hi hreset s
    exact exec_unconfigured_of_faulted hb hf
  | false =>
    obtain ⟨x, hb⟩ := body_eq_whenReady hi hnop hget s
    exact exec_ready_of_faulted hf hb

/-- NOP and GETCFG as responses (R180, R183). -/
theorem exec_nop_and_getcfg (r : CfgReg) (s : State) :
    exec .nop s = .next (s.emit [0x00000000]) ∧ exec (.getcfg r) s = .next (s.emit [0x00000000, s.readCfg r]) := by
  obtain ⟨-, hanswers⟩ := nopAndGetcfgOnlyAnswer
  obtain ⟨-, hexec⟩ := hanswers r s
  exact hexec

theorem exec_reset (s : State) : exec .reset s = .next (s.toReset.emit [0x00000000]) := by
  obtain ⟨-, hexec, -⟩ := resetCommandGivesTheResetState
  exact hexec s

/-- In FAULTED every command but RESET adds its response to the stream and does nothing else (R211). -/
theorem exec_of_faulted_emits (hf : s.eng = .faulted) (hreset : i ≠ .reset) : ∃ ws, exec i s = .next (s.emit ws) := by
  by_cases hnop : i = .nop
  · obtain ⟨hexec, -⟩ := exec_nop_and_getcfg .status s
    exact ⟨_, hnop ▸ hexec⟩
  by_cases hget : ∃ r, i = .getcfg r
  · obtain ⟨r, rfl⟩ := hget
    obtain ⟨-, hexec⟩ := exec_nop_and_getcfg r s
    exact ⟨_, hexec⟩
  · exact ⟨_, exec_of_faulted hf hnop hreset (not_exists.1 hget)⟩

end

/-- Settles O10: the command is refused at its gate, the step runs the command that decodes, and an illegal word is
O6's case of FAULTED. -/
theorem faultedRefusesTheOtherCommands : Obligations.FaultedRefusesTheOtherCommands := by
  refine ⟨fun i s => exec_of_faulted, fun i s rest hf hidle hdecode hnop hreset hget => ?_, fun s r _ => ?_,
    fun s cw payload rest hf hidle hport hlen hrows => ?_⟩
  · rw [stepRunsTheDecodedCommand s i rest hidle hdecode]
    exact exec_of_faulted (s := { s with port := rest }) hf hnop hreset hget
  · obtain ⟨hnop, hget⟩ := exec_nop_and_getcfg r s
    exact ⟨hnop, hget, _, exec_reset s, rfl, rfl⟩
  · obtain ⟨-, hanswered⟩ := illegalWordTakesTheIllegalFault s cw payload rest hidle hport hlen hrows
    exact hanswered hf

/-- Settles O11: a response is not in the latch, and the reset state has the latch clear. -/
theorem onlyResetLeavesFaulted : Obligations.OnlyResetLeavesFaulted := by
  refine ⟨fun i s t hf he hreset => ?_, fun s _ => ⟨_, exec_reset s, rfl, rfl, rfl⟩⟩
  obtain ⟨ws, hexec⟩ := exec_of_faulted_emits hf hreset
  rw [hexec] at he
  cases he
  exact ⟨hf, State.emit_fault s ws, State.emit_faultInfo s ws⟩

end Sys2Proof.Machine
end

section
/-! The hardware reset (R230, R231, R49). -/

namespace Sys2Proof.Machine

theorem step_of_reset_asserted {s : State} (h : s.resetIn ≠ .idle) : step s = .next (resetStep s) := by
  rw [step]
  cases hr : s.resetIn with
  | idle => exact absurd hr h
  | betweenCommands => rfl
  | insideCommand => rfl

/-- Abandoning a command only takes words off the front of the port. -/
theorem dropCommand_eq (s : State) :
    ∃ taken rest, s.port = taken ++ rest ∧ s.dropCommand = { s with port := rest } := by
  rw [State.dropCommand]
  cases hf : frame s.port with
  | error e => exact ⟨[], s.port, rfl, rfl⟩
  | ok f =>
    obtain ⟨hport, -⟩ := frame_ok hf
    exact ⟨f.cw :: f.payload, f.rest, hport, rfl⟩

/-- Whichever way the reset input is asserted, the reset differs in the words left on the port at most (R230). -/
theorem resetStep_eq (s : State) :
    ∃ taken rest, s.port = taken ++ rest ∧ resetStep s = State.hardReset { s with port := rest } := by
  rw [resetStep]
  split
  · obtain ⟨taken, rest, hport, hdrop⟩ := dropCommand_eq s
    exact ⟨taken, rest, hport, congrArg State.hardReset hdrop⟩
  · exact ⟨[], s.port, rfl, rfl⟩

/-- After a hardware reset only the parameters, the interface and the draw number can differ from the reset state
(R49, R231). -/
theorem hardReset_eq_reset (s : State) :
    { s.hardReset with port := [], params := State.reset.params, resp := [], draws := 0 } = State.reset := rfl

/-- Settles O8: the step is the reset of the state with fewer words on its port, which keeps the parameters and the
responses. -/
theorem hardwareResetGivesTheResetState : Obligations.HardwareResetGivesTheResetState := by
  intro s hasserted
  obtain ⟨taken, rest, hport, hreset⟩ := resetStep_eq s
  refine ⟨State.hardReset { s with port := rest }, taken, ?_, hport, hardReset_eq_reset _, State.hardReset_resp _,
    State.hardReset_params _⟩
  rw [step_of_reset_asserted hasserted, hreset]

end Sys2Proof.Machine
end
